-- ==== Sys2Proof/Word.lean ====
section
/-! DEFINITION. The words of the hardware: bytes, register words, datapath words, the two kinds of encoded
instruction, and the overflow event. spec/00_scope.md R8, R9, R11; spec/30_encoding.md R61, R69. -/

namespace Sys2Proof

/-- One byte of `IN` or `OUT` (20_memory.md R43). -/
abbrev Byte := BitVec 8

/-- A register word of `REG` and a command word (10_state.md R32, 30_encoding.md R62). -/
abbrev Word32 := BitVec 32

/-- A datapath element: a signed two's-complement word of `W = 64` bits (R8). -/
abbrev Word64 := BitVec 64

/-- A micro-operation in the sequencer: the 8-bit identifier of 30_encoding.md R69 in bits `[7:0]`, its operands
above it. DESIGN CHOICE (log 14): the spec gives the operands no bits. -/
abbrev MicroWord := BitVec 104

/-- An encoded instruction: a host-written command word, or a micro-operation of the sequencer (R61). -/
inductive Code where
  | command (w : Word32)
  | micro (w : MicroWord)
  deriving DecidableEq, Repr

/-- The event `raise Overflow(v)` of R11 with the value that left `INT64`. -/
structure Overflow where
  value : Int
  deriving DecidableEq, Repr

end Sys2Proof
end

