-- ==== Sys2Proof/Config.lean ====
section
/-! DEFINITION. The build-time parameters of spec/00_scope.md R5 and the platform's base addresses (spec/20_memory.md
R59), as plain data that State carries, and the opaque constants that stand for what the spec leaves open. -/

namespace Sys2Proof

/-- `SCHEDULE` (R5): the order of splitting and reconstruction within a block. -/
inductive Schedule where
  | interleaved
  | splitAllFirst
  deriving DecidableEq, Repr

/-- `NOISE_INDEX` (R5): which offset is added to the noise cursor. -/
inductive NoiseIndex where
  | phase
  | output
  deriving DecidableEq, Repr

/-- A pseudorandom draw: 23 signed bits are exactly the range `[-2^22, 2^22 - 1]` of 41_noise_table_gen.md R77. -/
abbrev Draw := BitVec 23

/-- `FIR_TABLE` (R5, 40_fir_coeff_gen.md R71): the reference generator of R72, or any other function, written out as
one row of coefficients for each block length. An entry no row gives is unconstrained (log 3). -/
inductive FirTable where
  | reference
  | table (rows : List (Nat × List Word64))
  deriving DecidableEq, Repr

/-- `NOISE_DRAW` (R5, 41_noise_table_gen.md R77): the draws of the seeds in `rows`, and `others` for every other seed.
A draw that no list gives is unconstrained, so the empty lists are the uninterpreted function (log 5). -/
structure NoiseDraw where
  rows : List (Word32 × List Draw)
  others : List Draw
  deriving DecidableEq, Repr

/-- The build-time parameters. `F`, `N_MAX` and `NL` are powers of two, so their exponents are held: no hardware
exists for another value (R5). `fBits` is the source's `FILTER_FREQ_BITS`, the `B` of the rules. -/
structure Params where
  fBits : Nat
  nMaxBits : Nat
  nlBits : Nat
  noiseShift : Fin 64
  outShift : Fin 41
  schedule : Schedule
  noiseIndex : NoiseIndex
  firTable : FirTable
  noiseDraw : NoiseDraw
  regBase : Nat
  inBase : Nat
  outBase : Nat
  deriving DecidableEq, Repr

/-- `F` (R5). -/
def Params.f (p : Params) : Nat := 2 ^ p.fBits

/-- `N_MAX` (R5). -/
def Params.nMax (p : Params) : Nat := 2 ^ p.nMaxBits

/-- `NL` (R5). -/
def Params.nl (p : Params) : Nat := 2 ^ p.nlBits

/-- The "legal values" column of R5 where the types do not say it already:
`F <= N_MAX`, `N_MAX <= NL`, `NL <= 2^31` (so `N_MAX <= 2^31`). -/
def Params.legal (p : Params) : Bool :=
  decide (p.fBits ≤ p.nMaxBits) && decide (p.nMaxBits ≤ p.nlBits) && decide (p.nlBits ≤ 31)

namespace Config

/-- `NOISE_SHIFT`: the spec gives it no value (92_eei_decisions.md D12). A free value (log 2). -/
opaque noiseShift : Fin 64

/-- `NOISE_DRAW` where no table gives a draw: seed, index (41_noise_table_gen.md R77). A free value (log 5). -/
opaque noiseDraw : Word32 → Nat → Draw

/-- `FIR_TABLE` where no row gives a coefficient: `N`, `F`, `i` (40_fir_coeff_gen.md R71). A free value (log 3). -/
opaque firCoeff : Nat → Nat → Nat → Word64

/-- The "any value" of 93_implementation_defined.md: the free value of each index of the draw counter (log 8). -/
opaque freeWord : Nat → Word64

/-- `HIF_SHIFT` where `CFG_N` is no power of two, so that `log2` has no meaning (R9). A free value (log 16). -/
opaque freeShift : Nat → Fin 64

/-- What an array gives at an index where it has no entry. No rule reads one. A free value (log 16). -/
opaque outsideWord : Nat → Word64

/-- `REG_BASE`, `IN_BASE`, `OUT_BASE` (20_memory.md R59): the platform's choice. Free values (log 19). -/
opaque regBase : Nat
opaque inBase : Nat
opaque outBase : Nat

end Config

/-- The parameters of this hardware: the values R5 gives, the reference configuration where it gives only that
(log 1), the opaque constants where it gives none (log 2, log 5, log 19). -/
def Params.thisHardware : Params where
  fBits := 2
  nMaxBits := 8
  nlBits := 16
  noiseShift := Config.noiseShift
  outShift := 32
  schedule := .interleaved
  noiseIndex := .phase
  firTable := .reference
  noiseDraw := { rows := [], others := [] }
  regBase := Config.regBase
  inBase := Config.inBase
  outBase := Config.outBase

end Sys2Proof
end

