-- ==== Sys2Proof/Syntax.lean ====
section
/-! DEFINITION. The instruction set: one constructor for each row of spec/opcode_table.json. Four commands and two
reserved ranges (spec/30_encoding.md R63, R65), ten micro-operations (R69). -/

namespace Sys2Proof

/-- The commands and micro-operations. The index operands are the loop indices of the rules: `j` an input or output
position, `g` a group, `p` a sub-phase (00_scope.md section 5). -/
inductive Instr where
  /-- `NOP`, 44_block_processor.md R110. -/
  | nop
  /-- `OPEN`, 44_block_processor.md R103 and R104; its operands come from `PEND` (R64). -/
  | openStream
  /-- `PROCESS`, 44_block_processor.md R107 and R108. -/
  | process
  /-- `CLOSE`, 44_block_processor.md R111. -/
  | closeStream
  /-- The reserved `OP` values `0x4 + low`, `low` in 0..3, 30_encoding.md R65. -/
  | reservedOp47 (low : BitVec 2)
  /-- The reserved `OP` values `0x8 + low`, `low` in 0..7, 30_encoding.md R65. -/
  | reservedOp8F (low : BitVec 3)
  /-- `FIR_GEN`, 40_fir_coeff_gen.md R73. -/
  | firGen
  /-- `NOISE_GEN`, 41_noise_table_gen.md R78. -/
  | noiseGen
  /-- `SPLIT_SAMPLE(j)`, 42_band_splitter.md R82. -/
  | splitSample (j : Nat)
  /-- `LP_STORE(g)`, 42_band_splitter.md R86. -/
  | lpStore (g : Nat)
  /-- `SPLIT_GROUP(g)`, 42_band_splitter.md R87. -/
  | splitGroup (g : Nat)
  /-- `RECON_SUBSAMPLE(g, p)`, 43_reconstructor.md R92. -/
  | reconSubsample (g : Nat) (p : Nat)
  /-- `RECON_GROUP(g)`, 43_reconstructor.md R97. -/
  | reconGroup (g : Nat)
  /-- `DECODE24(j)`, 44_block_processor.md R105. -/
  | decode24 (j : Nat)
  /-- `ENCODE24(j, y)`, 44_block_processor.md R106. -/
  | encode24 (j : Nat) (y : Word64)
  /-- `CURSOR_ADVANCE`, 44_block_processor.md R109. -/
  | cursorAdvance
  deriving DecidableEq, Repr

end Sys2Proof
end

