-- ==== Sys2Proof/WellFormed.lean ====
section
/-! DEFINITION. Well-formed instructions: the operands fit the fields that encode them, and, for given parameters and
block length, lie in the ranges their rules state. -/

namespace Sys2Proof

/-- An index operand fits its 32-bit field of a micro-operation word (log 14). Every index the rules use does, since
`N <= N_MAX <= 2^31` (00_scope.md R5). -/
def indexFits (k : Nat) : Bool := decide (k < 2 ^ 32)

/-- Every operand fits its field. -/
def Instr.wellFormed : Instr → Bool
  | .nop => true
  | .openStream => true
  | .process => true
  | .closeStream => true
  | .reservedOp47 _ => true
  | .reservedOp8F _ => true
  | .firGen => true
  | .noiseGen => true
  | .splitSample j => indexFits j
  | .lpStore g => indexFits g
  | .splitGroup g => indexFits g
  | .reconSubsample g p => indexFits g && indexFits p
  | .reconGroup g => indexFits g
  | .decode24 j => indexFits j
  | .encode24 j _ => indexFits j
  | .cursorAdvance => true

/-- The operand ranges the rules state: `j` in `0 .. N-1` (42 R82, 44 R105, R106), `g` in `0 .. L-1` with `L = N/F`
(42 R86, R87, 43 R92, R97), `p` in `0 .. F-1` (43 R92). -/
def Instr.inRange (hw : Params) (n : Nat) : Instr → Bool
  | .nop => true
  | .openStream => true
  | .process => true
  | .closeStream => true
  | .reservedOp47 _ => true
  | .reservedOp8F _ => true
  | .firGen => true
  | .noiseGen => true
  | .splitSample j => decide (j < n)
  | .lpStore g => decide (g < n / hw.f)
  | .splitGroup g => decide (g < n / hw.f)
  | .reconSubsample g p => decide (g < n / hw.f) && decide (p < hw.f)
  | .reconGroup g => decide (g < n / hw.f)
  | .decode24 j => decide (j < n)
  | .encode24 j _ => decide (j < n)
  | .cursorAdvance => true

/-- A command is written by the host; the others are internal micro-operations (30_encoding.md R61, R69). -/
def Instr.isCommand : Instr → Bool
  | .nop => true
  | .openStream => true
  | .process => true
  | .closeStream => true
  | .reservedOp47 _ => true
  | .reservedOp8F _ => true
  | .firGen => false
  | .noiseGen => false
  | .splitSample _ => false
  | .lpStore _ => false
  | .splitGroup _ => false
  | .reconSubsample _ _ => false
  | .reconGroup _ => false
  | .decode24 _ => false
  | .encode24 _ _ => false
  | .cursorAdvance => false

end Sys2Proof
end

