-- ==== Sys2Proof/Decode.lean ====
section
/-! DEFINITION. The decoder, total on every word and every byte list, refusing by name, and the encoder after it.
spec/30_encoding.md R62, R63, R65 (command words), R69 (micro-operation identifiers); operand fields log 14. -/

namespace Sys2Proof

/-- Why a word is no instruction. -/
inductive DecodeError where
  /-- A command word with `RSVD != 0` (R65, `CMD_RESERVED_BITS`). -/
  | reservedBits
  /-- A micro-operation identifier that R69 does not list. -/
  | unknownMicro
  /-- A bit set where the micro-operation has no operand (log 14). -/
  | operandBits
  /-- A byte list that is neither a command word nor a micro-operation word. -/
  | length
  deriving DecidableEq, Repr

/-- Field `OP = [3:0]` of a command word (R62). -/
def opField (w : Word32) : BitVec 4 := w.extractLsb' 0 4

/-- Field `RSVD = [31:4]` of a command word (R62). -/
def rsvdField (w : Word32) : BitVec 28 := w.extractLsb' 4 28

/-- A command word (R63): `RSVD` first (60_exceptions.md R121), then `OP`. -/
def decodeCommand (w : Word32) : Except DecodeError Instr :=
  if rsvdField w ≠ 0 then .error .reservedBits
  else if opField w = 0x0 then .ok .nop
  else if opField w = 0x1 then .ok .openStream
  else if opField w = 0x2 then .ok .process
  else if opField w = 0x3 then .ok .closeStream
  else if (opField w).toNat < 0x8 then .ok (.reservedOp47 ((opField w).extractLsb' 0 2))
  else .ok (.reservedOp8F ((opField w).extractLsb' 0 3))

/-- The identifier of a micro-operation word, bits `[7:0]` (R69). -/
def microIdField (w : MicroWord) : BitVec 8 := w.extractLsb' 0 8

/-- The first index operand (`j` or `g`), bits `[39:8]` (log 14). -/
def indexField (w : MicroWord) : Word32 := w.extractLsb' 8 32

/-- The sub-phase operand `p` of `RECON_SUBSAMPLE`, bits `[71:40]` (log 14). -/
def phaseField (w : MicroWord) : Word32 := w.extractLsb' 40 32

/-- The value operand `y` of `ENCODE24`, bits `[103:40]` (log 14). -/
def valueField (w : MicroWord) : Word64 := w.extractLsb' 40 64

/-- `i`, if no bit of the word from `lo` up is set. -/
def noBitsFrom (w : MicroWord) (lo : Nat) (i : Instr) : Except DecodeError Instr :=
  if w.toNat < 2 ^ lo then .ok i else .error .operandBits

/-- A micro-operation word (R69). -/
def decodeMicro (w : MicroWord) : Except DecodeError Instr :=
  if microIdField w = 0x10 then noBitsFrom w 8 .firGen
  else if microIdField w = 0x11 then noBitsFrom w 8 .noiseGen
  else if microIdField w = 0x20 then noBitsFrom w 40 (.splitSample (indexField w).toNat)
  else if microIdField w = 0x21 then noBitsFrom w 40 (.lpStore (indexField w).toNat)
  else if microIdField w = 0x22 then noBitsFrom w 40 (.splitGroup (indexField w).toNat)
  else if microIdField w = 0x30 then
    noBitsFrom w 72 (.reconSubsample (indexField w).toNat (phaseField w).toNat)
  else if microIdField w = 0x31 then noBitsFrom w 40 (.reconGroup (indexField w).toNat)
  else if microIdField w = 0x40 then noBitsFrom w 40 (.decode24 (indexField w).toNat)
  else if microIdField w = 0x41 then .ok (.encode24 (indexField w).toNat (valueField w))
  else if microIdField w = 0x42 then noBitsFrom w 8 .cursorAdvance
  else .error .unknownMicro

/-- The decoder. -/
def decode : Code → Except DecodeError Instr
  | .command w => decodeCommand w
  | .micro w => decodeMicro w

/-- The number a little-endian byte list spells (00_scope.md R13, 20_memory.md R45). -/
def numOfBytes : List Byte → Nat
  | [] => 0
  | b :: bs => b.toNat + 256 * numOfBytes bs

/-- The `n` bytes of a number, lowest first. -/
def bytesOfNum : Nat → Nat → List Byte
  | 0, _ => []
  | n + 1, w => BitVec.ofNat 8 w :: bytesOfNum n (w / 256)

/-- An encoded instruction from its bytes: four bytes are a command word (R61), thirteen a micro-operation word. -/
def codeOfBytes (bs : List Byte) : Except DecodeError Code :=
  if bs.length = 4 then .ok (.command (BitVec.ofNat 32 (numOfBytes bs)))
  else if bs.length = 13 then .ok (.micro (BitVec.ofNat 104 (numOfBytes bs)))
  else .error .length

/-- The decoder on bytes. -/
def decodeBytes (bs : List Byte) : Except DecodeError Instr :=
  match codeOfBytes bs with
  | .ok c => decode c
  | .error e => .error e

/-- The bytes an opcode-table row's bits stand for: a row of 8 bits is a micro-operation identifier with operands of
zero, every other row a command word. -/
def tableBytes (nbits w : Nat) : List Byte :=
  if nbits = 8 then bytesOfNum 13 w else bytesOfNum 4 w

/-- The instruction the decoder reads from the bits of an opcode-table row. -/
def decodeTableWord (nbits w : Nat) : Option Instr :=
  match decodeBytes (tableBytes nbits w) with
  | .ok i => some i
  | .error _ => none

/-- A command word from its `OP` (R62). -/
def commandWord (op : BitVec 4) : Code := .command ((0 : BitVec 28) ++ op)

/-- A micro-operation word with no operand. -/
def microPlain (id : BitVec 8) : Code := .micro ((0 : BitVec 96) ++ id)

/-- A micro-operation word with one index operand. -/
def microIndex (id : BitVec 8) (k : Nat) : Code := .micro ((0 : BitVec 64) ++ BitVec.ofNat 32 k ++ id)

/-- The identifier of each micro-operation (R69); 0 for a command, which has none. -/
def Instr.microId : Instr → BitVec 8
  | .nop => 0
  | .openStream => 0
  | .process => 0
  | .closeStream => 0
  | .reservedOp47 _ => 0
  | .reservedOp8F _ => 0
  | .firGen => 0x10
  | .noiseGen => 0x11
  | .splitSample _ => 0x20
  | .lpStore _ => 0x21
  | .splitGroup _ => 0x22
  | .reconSubsample _ _ => 0x30
  | .reconGroup _ => 0x31
  | .decode24 _ => 0x40
  | .encode24 _ _ => 0x41
  | .cursorAdvance => 0x42

/-- The encoder: the code of a well-formed instruction. -/
def encode : Instr → Code
  | .nop => commandWord 0x0
  | .openStream => commandWord 0x1
  | .process => commandWord 0x2
  | .closeStream => commandWord 0x3
  | .reservedOp47 low => commandWord ((1 : BitVec 2) ++ low)
  | .reservedOp8F low => commandWord ((1 : BitVec 1) ++ low)
  | .firGen => microPlain 0x10
  | .noiseGen => microPlain 0x11
  | .splitSample j => microIndex 0x20 j
  | .lpStore g => microIndex 0x21 g
  | .splitGroup g => microIndex 0x22 g
  | .reconSubsample g p =>
    .micro ((0 : Word32) ++ BitVec.ofNat 32 p ++ BitVec.ofNat 32 g ++ (0x30 : BitVec 8))
  | .reconGroup g => microIndex 0x31 g
  | .decode24 j => microIndex 0x40 j
  | .encode24 j y => .micro (y ++ BitVec.ofNat 32 j ++ (0x41 : BitVec 8))
  | .cursorAdvance => microPlain 0x42

/-- The bytes of an encoded instruction, lowest first (20_memory.md R45). -/
def Code.bytes : Code → List Byte
  | .command w => bytesOfNum 4 w.toNat
  | .micro w => bytesOfNum 13 w.toNat

end Sys2Proof
end

