-- ==== Sys2Proof/Machine/State.lean ====
section
/-! DEFINITION. The state of the machine as plain data: the parameters, the Filter instance, the control and status
state, the argument registers, the buffers, the sequencer, and the moves of the host and the platform still to come.
spec/10_state.md, spec/20_memory.md, spec/70_reset_and_hazards.md. Also the reasons a step can stop. -/

namespace Sys2Proof.Machine

/-- `STATE` (10_state.md R26). The encoding 3 is never read (R34), and no value stands for it. -/
inductive InstState where
  | unconfigured
  | ready
  | fault
  deriving DecidableEq, Repr

/-- `ERRCODE` (60_exceptions.md R120). The codes 8 to 15 are never written, and no value stands for them. -/
inductive ErrCode where
  | none
  | cfgNNotPow2
  | cfgNTooSmall
  | cfgNTooLarge
  | cmdReservedOp
  | cmdReservedBits
  | cmdNotReady
  | overflow
  deriving DecidableEq, Repr

/-- The host's three address spaces (20_memory.md R43). -/
inductive Space where
  | reg
  | inp
  | out
  deriving DecidableEq, Repr

/-- The registers of `REG` (10_state.md R32); `reserved` is every offset from `0x34` up (R39). -/
inductive Reg where
  | cmd
  | status
  | argRate
  | argBlocklen
  | argSeed
  | cfgN
  | cfgRate
  | noisei
  | hifsumLo
  | hifsumHi
  | paramF
  | paramNl
  | paramNmax
  | reserved
  deriving DecidableEq, Repr

/-- What a host access does: read, or write a value (its low bytes, for an access of 1 or 2 bytes). -/
inductive HostOp where
  | read
  | write (v : Word32)
  deriving DecidableEq, Repr

/-- One host access (20_memory.md R46, R47): a space, a byte offset and a width in bytes. -/
structure Access where
  space : Space
  off : Nat
  width : Nat
  op : HostOp
  deriving DecidableEq, Repr

/-- One move of the interleaving of the agents (20_memory.md R43, R51, R52; log 10). -/
inductive Move where
  /-- A host access by space and offset. -/
  | access (a : Access)
  /-- A host access by bus address, resolved with the platform's base addresses (R59). -/
  | bus (addr : Nat) (width : Nat) (op : HostOp)
  /-- The host's `WAIT`: it polls `STATUS` until `BUSY = 0` (30_encoding.md R68). -/
  | wait
  /-- The block's turn: its enabled step, if it has one (44_block_processor.md R100). -/
  | block
  /-- The platform's reset (70_reset_and_hazards.md R133). -/
  | reset
  deriving DecidableEq, Repr

/-- The latched command `PEND` (10_state.md R31): the command word and the three arguments copied at issue. -/
structure Pending where
  word : Word32
  rate : Word32
  blockLen : Word32
  seed : Word32
  deriving DecidableEq, Repr

/-- A buffer's bytes: the bytes that differ from what an unlisted byte reads as, by strictly rising offset (log 7). -/
abbrev Memory := List Host.Cell

/-- The whole state. -/
structure State where
  /-- The build-time parameters (00_scope.md R5); no step changes them (70_reset_and_hazards.md R135). -/
  hw : Params
  /-- 10_state.md R17. -/
  prev : Word64
  /-- 10_state.md R18, `N_MAX` entries. -/
  hif : List Word64
  /-- 10_state.md R19. -/
  hifsum : Word64
  /-- 10_state.md R20, `N_MAX` entries. -/
  lopass : List Word64
  /-- 10_state.md R21, `N_MAX` entries. -/
  fir : List Word64
  /-- 10_state.md R22, `NL` entries. -/
  noise : List Word64
  /-- 10_state.md R23, in `[0, NL - 1]`. -/
  noisei : Nat
  /-- 10_state.md R25. -/
  cfgN : Word32
  /-- 10_state.md R25. -/
  cfgRate : Word32
  /-- `STATE`, 10_state.md R26. -/
  inst : InstState
  /-- 10_state.md R27. -/
  busy : Bool
  /-- 10_state.md R28. -/
  ovf : Bool
  /-- 10_state.md R29. -/
  lost : Bool
  /-- 10_state.md R30. -/
  errcode : ErrCode
  /-- 10_state.md R31; meaningful only while `busy`. -/
  pend : Pending
  /-- 10_state.md R35. -/
  argRate : Word32
  /-- 10_state.md R35. -/
  argBlocklen : Word32
  /-- 10_state.md R35. -/
  argSeed : Word32
  /-- Space `IN`, 20_memory.md R43. -/
  inMem : Memory
  /-- Space `OUT`, 20_memory.md R43. -/
  outMem : Memory
  /-- The micro-operations waiting in the sequencer (10_state.md R41; log 14). -/
  seq : List MicroWord
  /-- The moves still to come, the next first (log 10). -/
  inputs : List Move
  /-- The value the host's last read returned (30_encoding.md R68; log 21). -/
  rdata : Word32
  /-- The value the last stand-alone `DECODE24` returned (44_block_processor.md R105; log 15). -/
  decoded : Word64
  /-- The index of the next free value (log 8). -/
  draws : Nat
  deriving DecidableEq, Repr

/-- Why the machine stops. -/
inductive Fault where
  /-- Raised by a micro-operation placed in the sequencer from outside whose operand names an element the block has no
  storage for (a byte of `IN` or `OUT` at `3 * N_MAX` or above, an entry of a ring past its last). No command issues
  one. Safe (log 16). -/
  | noSuchElement
  deriving DecidableEq, Repr

/-- What the machine gives no meaning. -/
inductive Refusal where
  /-- Raised by the dispatch for an instruction without a meaning. Safe. No instruction raises it now. -/
  | notModelled (mnemonic : String)
  /-- Raised by the step for parameters outside the legal values of 00_scope.md R5: no hardware exists for them.
  Safe (log 22). -/
  | illegalConfiguration
  /-- Raised by a host access to `REG` that is not 4 bytes at an aligned offset below `0x100` (20_memory.md R46).
  Safe (log 12). -/
  | illegalRegAccess
  /-- Raised by a host access to `IN` or `OUT` that is not 1, 2 or 4 bytes inside the space (20_memory.md R47).
  Safe (log 12). -/
  | illegalBufferAccess
  /-- Raised by a host write to `IN` while `BUSY = 1` (20_memory.md R54). Unsafe: an assumption about the host
  (log 13). -/
  | inWriteWhileBusy
  /-- Raised by a host access at a bus address in none of the block's windows (20_memory.md R59). Safe (log 19). -/
  | noSpaceAtAddress
  /-- Raised by a sequencer word that encodes no micro-operation; none is ever placed there by the machine.
  Safe (log 14). -/
  | badMicroWord
  deriving DecidableEq, Repr

/-- The state right after reset (70_reset_and_hazards.md R134). The elements R134 leaves unspecified hold zero
(log 6, log 7, log 18); the parameters are those of this hardware. -/
def State.reset : State where
  hw := Params.thisHardware
  prev := 0
  hif := List.replicate Params.thisHardware.nMax 0
  hifsum := 0
  lopass := List.replicate Params.thisHardware.nMax 0
  fir := List.replicate Params.thisHardware.nMax 0
  noise := List.replicate Params.thisHardware.nl 0
  noisei := 0
  cfgN := 0
  cfgRate := 0
  inst := .unconfigured
  busy := false
  ovf := false
  lost := false
  errcode := .none
  pend := { word := 0, rate := 0, blockLen := 0, seed := 0 }
  argRate := 0
  argBlocklen := 0
  argSeed := 0
  inMem := []
  outMem := []
  seq := []
  inputs := []
  rdata := 0
  decoded := 0
  draws := 0

end Sys2Proof.Machine
end

