-- ==== Sys2Proof/Machine/Flags.lean ====
section
/-! DEFINITION. Checked 64-bit arithmetic with the overflow event (spec/00_scope.md R10, R11), and the status fields
(spec/10_state.md R34; spec/60_exceptions.md R120). -/

namespace Sys2Proof.Machine

/-- `chk64` (R11): the exact value narrowed to 64 bits if it lies in `INT64`, else `raise Overflow(v)`. -/
def chk64 (v : Int) : Except Overflow Word64 :=
  if -9223372036854775808 ≤ v ∧ v ≤ 9223372036854775807 then .ok (BitVec.ofInt 64 v) else .error ⟨v⟩

/-- `add64` (R11). -/
def add64 (a b : Word64) : Except Overflow Word64 := chk64 (a.toInt + b.toInt)

/-- `sub64` (R11). -/
def sub64 (a b : Word64) : Except Overflow Word64 := chk64 (a.toInt - b.toInt)

/-- `mul64` (R11): the full product, checked. -/
def mul64 (a b : Word64) : Except Overflow Word64 := chk64 (a.toInt * b.toInt)

/-- `abs64` (R11). -/
def abs64 (a : Word64) : Except Overflow Word64 := chk64 a.toInt.natAbs

/-- `x >> s` (R10): `floor(x / 2^s)`, which never leaves `INT64`. -/
def asr (x : Word64) (s : Nat) : Word64 := BitVec.ofInt 64 (x.toInt / ((2 ^ s : Nat) : Int))

/-- The value of `STATUS.STATE` (10_state.md R34). -/
def InstState.code : InstState → BitVec 2
  | .unconfigured => 0
  | .ready => 1
  | .fault => 2

/-- The value of `STATUS.ERRCODE` (60_exceptions.md R120). -/
def ErrCode.code : ErrCode → BitVec 4
  | .none => 0
  | .cfgNNotPow2 => 1
  | .cfgNTooSmall => 2
  | .cfgNTooLarge => 3
  | .cmdReservedOp => 4
  | .cmdReservedBits => 5
  | .cmdNotReady => 6
  | .overflow => 7

/-- The `STATUS` register (10_state.md R34): `ERRCODE` in `[11:8]`, `LOST` in `[4]`, `OVF` in `[3]`, `BUSY` in `[2]`,
`STATE` in `[1:0]`; the reserved bits read 0. -/
def statusWord (s : State) : Word32 :=
  (0 : BitVec 20) ++ s.errcode.code ++ (0 : BitVec 3) ++ BitVec.ofBool s.lost ++ BitVec.ofBool s.ovf
    ++ BitVec.ofBool s.busy ++ s.inst.code

end Sys2Proof.Machine
end

