-- ==== Sys2Proof/Machine/Ops.lean ====
section
/-! DEFINITION. The shared operations: buffer bytes and the little-endian primitives (spec/00_scope.md R13), array
entries and loops (R14), free values (spec/93_implementation_defined.md), the end of a command
(spec/44_block_processor.md R100) and the overflow fault (spec/60_exceptions.md R123). -/

namespace Sys2Proof.Machine

/-! ### Buffers -/

/-- What a byte nobody has written reads as. DESIGN CHOICE, unsafe: the spec leaves it unspecified (log 7). -/
def unlistedByte : Byte := 0

/-- `byte(space, off)`. -/
def Memory.read : Memory → Nat → Byte
  | [], _ => unlistedByte
  | c :: rest, off => if c.1 = off then c.2 else Memory.read rest off

/-- One cell in front of a buffer's later cells, left out if it holds what an unlisted byte reads as. -/
def Memory.consCell (off : Nat) (b : Byte) (rest : Memory) : Memory :=
  if b = unlistedByte then rest else (off, b) :: rest

/-- `byte(space, off) <- b`. -/
def Memory.write : Memory → Nat → Byte → Memory
  | [], off, b => Memory.consCell off b []
  | c :: rest, off, b =>
    if off < c.1 then Memory.consCell off b (c :: rest)
    else if off = c.1 then Memory.consCell off b rest
    else c :: Memory.write rest off b

/-- Every cell lies at `lo` or above, offsets rise strictly, and no cell holds what an unlisted byte reads as. -/
def Memory.wfFrom : Nat → Memory → Bool
  | _, [] => true
  | lo, c :: rest => decide (lo ≤ c.1) && decide (c.2 ≠ unlistedByte) && Memory.wfFrom (c.1 + 1) rest

/-- The canonical form. -/
def Memory.wf (m : Memory) : Bool := Memory.wfFrom 0 m

/-- Every listed offset lies below `size`. -/
def Memory.below (m : Memory) (size : Nat) : Bool := m.all (fun c => decide (c.1 < size))

/-- `MemRead(space, off, n)` (R13): little-endian. -/
def memRead (m : Memory) (off : Nat) : Nat → Nat
  | 0 => 0
  | n + 1 => (m.read off).toNat + 256 * memRead m (off + 1) n

/-- `MemWrite(space, off, n, v)` (R13): little-endian. -/
def memWrite (m : Memory) (off : Nat) : Nat → Nat → Memory
  | 0, _ => m
  | n + 1, v => memWrite (m.write off (BitVec.ofNat 8 v)) (off + 1) n (v / 256)

/-! ### Arrays and loops -/

/-- `arr[i]` (R14). No rule reads past an array's entries; such a read is unconstrained (log 16). -/
def readAt (arr : List Word64) (i : Nat) : Word64 := arr.getD i (Config.outsideWord i)

/-- `for k in i .. i + n - 1: body(k)` (R14), which ends at the first overflow. -/
def forUp {σ : Type} (body : Nat → σ → Except Overflow σ) : Nat → Nat → σ → Except Overflow σ
  | _, 0, x => .ok x
  | i, n + 1, x =>
    match body i x with
    | .ok y => forUp body (i + 1) n y
    | .error e => .error e

/-! ### Free values -/

/-- The free values with indexes `base .. base + n - 1`. -/
def freeWords (base n : Nat) : List Word64 := (List.range n).map fun k => Config.freeWord (base + k)

/-- Free values for the bytes `off .. off + n - 1` of a buffer. -/
def Memory.fillFree (m : Memory) (base off : Nat) : Nat → Memory
  | 0 => m
  | n + 1 => Memory.fillFree (m.write off ((Config.freeWord base).setWidth 8)) (base + 1) (off + 1) n

/-- A free cursor in `[0, NL - 1]` (60_exceptions.md R123, 10_state.md R23). -/
def freeCursor (hw : Params) (base : Nat) : Nat := (Config.freeWord base).toNat % hw.nl

/-! ### Derived quantities -/

/-- `N` (10_state.md R25). -/
def State.len (s : State) : Nat := s.cfgN.toNat

/-- `L = T = N / F` (00_scope.md R7). -/
def State.groups (s : State) : Nat := s.len / s.hw.f

/-! ### The leaky integrator -/

/-- The recurrence of 42_band_splitter.md R82 step 2 and 41_noise_table_gen.md R78:
`x - (x >> B) + (v >> B)`, each operation checked in the order written. -/
def leak (b : Nat) (x v : Word64) : Except Overflow Word64 := do
  let d ← sub64 x (asr x b)
  add64 d (asr v b)

/-! ### The end of a command -/

/-- A command's completion (44_block_processor.md R100): `ERRCODE` is written and `BUSY` falls. Apart from these two a
rejected command changes nothing (R101). -/
def complete (code : ErrCode) (s : State) : State := { s with errcode := code, busy := false }

/-- TAKING THE EXCEPTION: the overflow fault (60_exceptions.md R123). No later micro-operation runs; the mutable
datapath and the block's `OUT` bytes become any value; `fir`, `noise`, `CFG_N`, `CFG_RATE`, `LOST` and `IN` stay.
There is no return from it (R124, R126): OPEN, CLOSE and reset are the ways out. -/
def overflowFault (s : State) : State :=
  { s with
    inst := .fault
    ovf := true
    errcode := .overflow
    busy := false
    seq := []
    prev := Config.freeWord s.draws
    hifsum := Config.freeWord (s.draws + 1)
    noisei := freeCursor s.hw (s.draws + 2)
    hif := freeWords (s.draws + 3) s.len ++ s.hif.drop s.len
    lopass := freeWords (s.draws + 3 + s.len) s.groups ++ s.lopass.drop s.groups
    outMem := s.outMem.fillFree (s.draws + 3 + s.len + s.groups) 0 (3 * s.len)
    draws := s.draws + 3 + s.len + s.groups + 3 * s.len }

/-- The state after an operation that may overflow, run at `s`: its result, or the overflow fault. -/
def settle (s : State) : Except Overflow State → State
  | .ok t => t
  | .error _ => overflowFault s

/-- The mutable datapath becomes unspecified: the Filter instance is discarded (44_block_processor.md R111). The tables
are not mutable: no command but OPEN writes them (10_state.md R24; log 25). -/
def discardInstance (s : State) : State :=
  { s with
    prev := Config.freeWord s.draws
    hifsum := Config.freeWord (s.draws + 1)
    noisei := freeCursor s.hw (s.draws + 2)
    hif := freeWords (s.draws + 3) s.hw.nMax
    lopass := freeWords (s.draws + 3 + s.hw.nMax) s.hw.nMax
    draws := s.draws + 3 + 2 * s.hw.nMax }

/-- The tables become unspecified (70_reset_and_hazards.md R134). -/
def discardTables (s : State) : State :=
  { s with
    fir := freeWords s.draws s.hw.nMax
    noise := freeWords (s.draws + s.hw.nMax) s.hw.nl
    draws := s.draws + s.hw.nMax + s.hw.nl }

end Sys2Proof.Machine
end

