-- ==== Sys2Proof/Machine/Operands.lean ====
section
/-! DEFINITION. The operand forms: the 24-bit sample (spec/00_scope.md R12, spec/30_encoding.md R66), the ring,
coefficient, noise and output indices of the rules, and the register at each offset (spec/10_state.md R32). -/

namespace Sys2Proof.Machine

/-- `sext_24(u)` (R12). -/
def sext24 (u : Nat) : Int := if u.testBit 23 then (u : Int) - 16777216 else u

/-- `trunc_24(y) = y[23:0]` (R12), without saturation (44_block_processor.md R106). -/
def trunc24 (y : Word64) : Nat := y.toNat % 16777216

/-- `N` is not zero and `N & (N - 1) = 0` (44_block_processor.md R103). -/
def isPow2 (n : Nat) : Bool := decide (n ≠ 0) && decide (n &&& (n - 1) = 0)

/-- `HIF_SHIFT = log2(N) + 1` (00_scope.md R7). Where `N` is no power of two `log2` has no meaning (R9) and the shift is
unconstrained (log 16); no command runs with such an `N`. -/
def hifShift (n : Nat) : Nat := if isPow2 n then n.log2 + 1 else (Config.freeShift n).val

/-- The `lopass` entry of tap `k` at group `g`: `(g + L - k) & MASK_L` (43_reconstructor.md R90). -/
def ringIndex (l g k : Nat) : Nat := (g + l - k) &&& (l - 1)

/-- The coefficient of tap `k` and sub-phase `p`: `k*F + p` (43_reconstructor.md R93). -/
def coeffIndex (hw : Params) (k p : Nat) : Nat := k * hw.f + p

/-- The noise entry of output `(g, p)` (43_reconstructor.md R92, R94). -/
def noiseEntry (hw : Params) (cursor g p : Nat) : Nat :=
  match hw.noiseIndex with
  | .phase => (cursor + p) &&& (hw.nl - 1)
  | .output => (cursor + g * hw.f + p) &&& (hw.nl - 1)

/-- The position of output `(g, p)` in the block: `g*F + p` (43_reconstructor.md R92). -/
def outPosition (hw : Params) (g p : Nat) : Nat := g * hw.f + p

/-- The register at an offset of `REG` (10_state.md R32, R39). -/
def regAt (off : Nat) : Reg :=
  if off = 0x00 then .cmd
  else if off = 0x04 then .status
  else if off = 0x08 then .argRate
  else if off = 0x0C then .argBlocklen
  else if off = 0x10 then .argSeed
  else if off = 0x14 then .cfgN
  else if off = 0x18 then .cfgRate
  else if off = 0x1C then .noisei
  else if off = 0x20 then .hifsumLo
  else if off = 0x24 then .hifsumHi
  else if off = 0x28 then .paramF
  else if off = 0x2C then .paramNl
  else if off = 0x30 then .paramNmax
  else .reserved

/-- The offset of a named register (10_state.md R32); the first reserved offset for `reserved`. -/
def regOffset : Reg → Nat
  | .cmd => 0x00
  | .status => 0x04
  | .argRate => 0x08
  | .argBlocklen => 0x0C
  | .argSeed => 0x10
  | .cfgN => 0x14
  | .cfgRate => 0x18
  | .noisei => 0x1C
  | .hifsumLo => 0x20
  | .hifsumHi => 0x24
  | .paramF => 0x28
  | .paramNl => 0x2C
  | .paramNmax => 0x30
  | .reserved => 0x34

end Sys2Proof.Machine
end

