-- ==== Sys2Proof/Machine/SampleCodec.lean ====
section
/-! DEFINITION. The sample codec of audio_block_processor: `DECODE24` and `ENCODE24`. spec/44_block_processor.md R105,
R106; spec/30_encoding.md R66, R67. -/

namespace Sys2Proof.Machine

/-- The value `DECODE24(j)` returns (R105): `sext_24(MemRead(IN, 3j, 3))`. -/
def decodeSample (s : State) (j : Nat) : Word64 := BitVec.ofInt 64 (sext24 (memRead s.inMem (3 * j) 3))

/-- `ENCODE24(j, y)` (R106): `MemWrite(OUT, 3j, 3, trunc_24(y))`. -/
def encodeSample (j : Nat) (y : Word64) (s : State) : State :=
  { s with outMem := memWrite s.outMem (3 * j) 3 (trunc24 y) }

/-- The micro-operation `DECODE24(j)` by itself: the value it returns goes to the result port (log 15). Sample `j`
exists for `j < N_MAX` (20_memory.md R43; log 16). -/
def execDecode24 (j : Nat) (s : State) : Host.Outcome State Fault Refusal :=
  if j < s.hw.nMax then .next { s with decoded := decodeSample s j } else .fault .noSuchElement

/-- The micro-operation `ENCODE24(j, y)`. -/
def execEncode24 (j : Nat) (y : Word64) (s : State) : Host.Outcome State Fault Refusal :=
  if j < s.hw.nMax then .next (encodeSample j y s) else .fault .noSuchElement

end Sys2Proof.Machine
end

