-- ==== Sys2Proof/Machine/BandSplitter.lean ====
section
/-! DEFINITION. leaky_integrator_band_splitter: `SPLIT_SAMPLE`, `LP_STORE`, `SPLIT_GROUP`. spec/42_band_splitter.md. -/

namespace Sys2Proof.Machine

/-- `SPLIT_SAMPLE(j)` (R82, R83): the residual is taken against the updated `prev`, its absolute value before the
scaling, and the sum changes by the inserted magnitude less the evicted one. -/
def splitSample (j : Nat) (s : State) : Except Overflow State := do
  let v := decodeSample s j
  let prev ← leak s.hw.fBits s.prev v
  let r ← sub64 v prev
  let mag ← abs64 r
  let h := asr mag (hifShift s.len)
  let less ← sub64 s.hifsum (readAt s.hif j)
  let hifsum ← add64 less h
  .ok { s with prev := prev, hifsum := hifsum, hif := s.hif.set j h }

/-- `LP_STORE(g)` (R86). -/
def lpStore (g : Nat) (s : State) : State := { s with lopass := s.lopass.set g s.prev }

/-- `SPLIT_GROUP(g)` (R87): `SPLIT_SAMPLE(g*F + s)` for `s` in `0 .. F-1`, then `LP_STORE(g)`. -/
def splitGroup (g : Nat) (s : State) : Except Overflow State := do
  let t ← forUp splitSample (g * s.hw.f) s.hw.f s
  .ok (lpStore g t)

/-- The micro-operation `SPLIT_SAMPLE(j)`. -/
def execSplitSample (j : Nat) (s : State) : Host.Outcome State Fault Refusal :=
  if j < s.hw.nMax then .next (settle s (splitSample j s)) else .fault .noSuchElement

/-- The micro-operation `LP_STORE(g)`. -/
def execLpStore (g : Nat) (s : State) : Host.Outcome State Fault Refusal :=
  if g < s.hw.nMax then .next (lpStore g s) else .fault .noSuchElement

/-- The micro-operation `SPLIT_GROUP(g)`: its samples are `g*F .. g*F + F - 1`. -/
def execSplitGroup (g : Nat) (s : State) : Host.Outcome State Fault Refusal :=
  if (g + 1) * s.hw.f ≤ s.hw.nMax then .next (settle s (splitGroup g s)) else .fault .noSuchElement

end Sys2Proof.Machine
end

