-- ==== Sys2Proof/Machine/Binary64.lean ====
section
/-! DEFINITION. The IEEE 754 binary64 arithmetic that the reference FIR generator needs (spec/40_fir_coeff_gen.md R72):
round to nearest, ties to even; `sin` and `cos` correctly rounded. A finite binary64 value is held exactly, as an
integer count of `2^-1074`, the least binary64 step. PRESUMED: the format itself (93_implementation_defined.md K1).
Exponents above the format's range are not reached by R72 and are not checked (log 4). -/

namespace Sys2Proof.Machine

/-- A finite binary64 value, in units of `2^-1074`. -/
abbrev B64 := Int

/-- `2^1074`: the value 1. -/
def B64.unit : Nat := 2 ^ 1074

/-- The integer nearest to `n / d`, ties to even. -/
def roundTiesEven (n d : Nat) : Nat :=
  if 2 * (n % d) < d then n / d
  else if d < 2 * (n % d) then n / d + 1
  else n / d + (n / d) % 2

/-- The binary64 value nearest to `n / d`: 53 significant bits, or the least step below the normal range. -/
def roundNat (n d : Nat) : Nat :=
  let ulp := 2 ^ ((n * B64.unit / d).log2 - 52)
  roundTiesEven (n * B64.unit) (d * ulp) * ulp

/-- The binary64 value nearest to the rational `n / d`. -/
def B64.round (n : Int) (d : Nat) : B64 := n.sign * roundNat n.natAbs d

/-- Product, rounded. -/
def B64.mul (a b : B64) : B64 := B64.round (a * b) (B64.unit * B64.unit)

/-- Quotient, rounded. -/
def B64.div (a b : B64) : B64 := b.sign * B64.round a b.natAbs

/-- Sum, rounded. -/
def B64.add (a b : B64) : B64 := B64.round (a + b) B64.unit

/-- An integer, rounded. -/
def B64.ofInt (n : Int) : B64 := B64.round n 1

/-- The scale of the fixed-point evaluation of `sin` and `cos`: 400 fraction bits. -/
def trigUnit : Nat := 2 ^ 400

/-- `floor(π * 2^400)`. -/
def piScaled : Nat :=
  0x3243f6a8885a308d313198a2e03707344a4093822299f31d0082efa98ec4e6c89452821e638d01377be5466cf34e90c6cc0ac

/-- `|a|` reduced modulo `2π`, with 400 fraction bits. -/
def reduceAngle (a : B64) : Nat := a.natAbs * trigUnit / B64.unit % (2 * piScaled)

/-- `n` terms of the alternating power series whose current term is `t`; the next is `-t * r^2 / (k (k+1))`. -/
def trigSeries (r : Nat) : Nat → Int → Nat → Int
  | 0, _, _ => 0
  | n + 1, t, k =>
    t + trigSeries r n (-(t * (r * r : Nat)) / ((trigUnit * trigUnit * k * (k + 1) : Nat) : Int)) (k + 2)

/-- `sin`, correctly rounded (log 4). -/
def B64.sin (a : B64) : B64 :=
  a.sign * B64.round (trigSeries (reduceAngle a) 80 (reduceAngle a) 2) trigUnit

/-- `cos`, correctly rounded (log 4). -/
def B64.cos (a : B64) : B64 := B64.round (trigSeries (reduceAngle a) 80 trigUnit 1) trigUnit

/-- The binary64 value nearest to π. -/
def B64.pi : B64 := B64.round piScaled trigUnit

/-- `trunc_toward_zero(a * 2^32)`. -/
def B64.toQ32 (a : B64) : Int := a.sign * (a.natAbs * 2 ^ 32 / B64.unit : Nat)

end Sys2Proof.Machine
end

