-- ==== Sys2Proof/Machine/FirCoeffGen.lean ====
section
/-! DEFINITION. windowed_sinc_coeff_gen: the coefficient function and `FIR_GEN`. spec/40_fir_coeff_gen.md. -/

namespace Sys2Proof.Machine

/-- `s` of R72: `sin(pi x) / (pi x)` at `x = (i - c) / F`, and 1 at the centre tap. -/
def refSinc (n f i : Nat) : B64 :=
  if i = n / 2 then B64.ofInt 1
  else
    let x := B64.div (B64.ofInt ((i : Int) - (n / 2 : Nat))) (B64.ofInt f)
    B64.div (B64.sin (B64.mul B64.pi x)) (B64.mul B64.pi x)

/-- `w` of R72: the periodic Hamming window `0.54 - 0.46 cos(2 pi i / N)`. -/
def refWindow (n i : Nat) : B64 :=
  let angle := B64.div (B64.mul (B64.mul (B64.ofInt 2) B64.pi) (B64.ofInt i)) (B64.ofInt n)
  B64.add (B64.round 54 100) (-(B64.mul (B64.round 46 100) (B64.cos angle)))

/-- The reference generator (R72): `trunc(((4.0 / F) s w) 2^32)`. -/
def refCoeff (n f i : Nat) : Int :=
  (B64.mul (B64.mul (B64.div (B64.ofInt 4) (B64.ofInt f)) (refSinc n f i)) (refWindow n i)).toQ32

/-- `FIR_TABLE(N, F, i)` (R71) of a parameter. -/
def firTableValue (t : FirTable) (n f i : Nat) : Word64 :=
  match t with
  | .reference => BitVec.ofInt 64 (refCoeff n f i)
  | .table rows => (((rows.find? fun r => r.1 == n).map Prod.snd).getD []).getD i (Config.firCoeff n f i)

/-- The kernel of a block length: `FIR_TABLE(N, F, i)` for `i` in `0 .. N-1`. -/
def firKernel (hw : Params) (n : Nat) : List Word64 :=
  (List.range n).map fun i => firTableValue hw.firTable n hw.f i

/-- `FIR_GEN` (R73): `fir[0 .. N-1]` is the kernel, and `fir[N .. N_MAX-1]` becomes unspecified. -/
def firGen (s : State) : State :=
  { s with
    fir := firKernel s.hw s.len ++ freeWords s.draws (s.hw.nMax - s.len)
    draws := s.draws + (s.hw.nMax - s.len) }

/-- The micro-operation `FIR_GEN`. -/
def execFirGen (s : State) : Host.Outcome State Fault Refusal := .next (firGen s)

end Sys2Proof.Machine
end

