-- ==== Sys2Proof/Machine/NoiseTableGen.lean ====
section
/-! DEFINITION. band_limited_noise_table_gen: the draws and `NOISE_GEN`. spec/41_noise_table_gen.md. -/

namespace Sys2Proof.Machine

/-- The `i`-th draw `d[i]` of `NOISE_DRAW(seed)` (R77), sign-extended to a datapath word. -/
def noiseDraw (d : NoiseDraw) (seed : Word32) (i : Nat) : Word64 :=
  ((((d.rows.find? fun r => r.1 == seed).map Prod.snd).getD d.others).getD i (Config.noiseDraw seed i)).signExtend 64

/-- The loop of R78 from index `i` with the recurrence's state `lp` (R79): the table entries, in ascending order (R81). -/
def noiseLoop (b : Nat) (d : Nat → Word64) : Nat → Nat → Word64 → Except Overflow (List Word64)
  | _, 0, _ => .ok []
  | i, n + 1, lp => do
    let lp' ← leak b lp (d i)
    let e ← sub64 (d i) lp'
    let rest ← noiseLoop b d (i + 1) n lp'
    .ok (e :: rest)

/-- `NOISE_GEN` (R78) with the seed latched at issue (R77). -/
def noiseGen (s : State) : Except Overflow State := do
  let t ← noiseLoop s.hw.fBits (noiseDraw s.hw.noiseDraw s.pend.seed) 0 s.hw.nl 0
  .ok { s with noise := t }

/-- The micro-operation `NOISE_GEN`. -/
def execNoiseGen (s : State) : Host.Outcome State Fault Refusal := .next (settle s (noiseGen s))

end Sys2Proof.Machine
end

