-- ==== Sys2Proof/Machine/Reconstructor.lean ====
section
/-! DEFINITION. interpolating_fir_reconstructor: `RECON_SUBSAMPLE` and `RECON_GROUP`. spec/43_reconstructor.md. -/

namespace Sys2Proof.Machine

/-- One tap of the dot product (R92 step 1): `acc + lopass[(g + L - k) & MASK_L] * fir[k*F + p]`, product and sum
checked (R96). -/
def dotTap (s : State) (g p k : Nat) (acc : Word64) : Except Overflow Word64 := do
  let m ← mul64 (readAt s.lopass (ringIndex s.groups g k)) (readAt s.fir (coeffIndex s.hw k p))
  add64 acc m

/-- The accumulator of output `(g, p)` (R92 steps 1 and 2): the `T` taps in ascending order, then the noise term,
whose shift applies to the product alone. -/
def reconAcc (s : State) (g p : Nat) : Except Overflow Word64 := do
  let acc ← forUp (dotTap s g p) 0 s.groups 0
  let m ← mul64 (readAt s.noise (noiseEntry s.hw s.noisei g p)) s.hifsum
  add64 acc (asr m s.hw.noiseShift.val)

/-- `RECON_SUBSAMPLE(g, p)` (R92, R95). -/
def reconSubsample (g p : Nat) (s : State) : Except Overflow State := do
  let acc ← reconAcc s g p
  .ok (encodeSample (outPosition s.hw g p) (asr acc s.hw.outShift.val) s)

/-- `RECON_GROUP(g)` (R97): the sub-phases `0 .. F-1` in order. -/
def reconGroup (g : Nat) (s : State) : Except Overflow State := forUp (reconSubsample g) 0 s.hw.f s

/-- The micro-operation `RECON_SUBSAMPLE(g, p)`: its output is sample `g*F + p`. -/
def execReconSubsample (g p : Nat) (s : State) : Host.Outcome State Fault Refusal :=
  if g * s.hw.f + p < s.hw.nMax then .next (settle s (reconSubsample g p s)) else .fault .noSuchElement

/-- The micro-operation `RECON_GROUP(g)`: its outputs are the samples `g*F .. g*F + F - 1`. -/
def execReconGroup (g : Nat) (s : State) : Host.Outcome State Fault Refusal :=
  if (g + 1) * s.hw.f ≤ s.hw.nMax then .next (settle s (reconGroup g s)) else .fault .noSuchElement

end Sys2Proof.Machine
end

