-- ==== Sys2Proof/Machine/BlockProcessor.lean ====
section
/-! DEFINITION. audio_block_processor: the commands and `CURSOR_ADVANCE`. spec/44_block_processor.md. Every command
completes (R102): its meaning answers the state after its completion (R100). -/

namespace Sys2Proof.Machine

/-- `CURSOR_ADVANCE` (R109): `noisei <- (noisei + N) & MASK_NL`. -/
def cursorAdvance (s : State) : State := { s with noisei := (s.noisei + s.len) &&& (s.hw.nl - 1) }

/-- The micro-operation `CURSOR_ADVANCE`. -/
def execCursorAdvance (s : State) : Host.Outcome State Fault Refusal := .next (cursorAdvance s)

/-- `NOP` (R110). -/
def execNop (s : State) : Host.Outcome State Fault Refusal := .next (complete .none s)

/-- The validation of OPEN (R103), in its order: the code that rejects the block length, if one does. -/
def openCheck (hw : Params) (n : Nat) : ErrCode :=
  if isPow2 n = false then .cfgNNotPow2
  else if hw.nMax < n then .cfgNTooLarge
  else if n < hw.f then .cfgNTooSmall
  else .none

/-- The first part of an accepted OPEN (R104): the configuration is written and the mutable state is zero in the
entries in use; the entries not in use are unspecified (10_state.md R18, R20; log 24). -/
def openClear (s : State) : State :=
  { s with
    cfgN := s.pend.blockLen
    cfgRate := s.pend.rate
    prev := 0
    hifsum := 0
    noisei := 0
    hif := List.replicate s.pend.blockLen.toNat 0 ++ freeWords s.draws (s.hw.nMax - s.pend.blockLen.toNat)
    lopass :=
      List.replicate (s.pend.blockLen.toNat / s.hw.f) 0
        ++ freeWords (s.draws + s.hw.nMax) (s.hw.nMax - s.pend.blockLen.toNat / s.hw.f)
    draws := s.draws + 2 * s.hw.nMax }

/-- The last part of an accepted OPEN (R104). -/
def openReady (s : State) : State := complete .none { s with inst := .ready, ovf := false, lost := false }

/-- An accepted OPEN (R104): clear, `FIR_GEN`, `NOISE_GEN`, ready. -/
def openAccepted (s : State) : Except Overflow State := do
  let t ← noiseGen (firGen (openClear s))
  .ok (openReady t)

/-- `OPEN` (R103, R104) with the operands latched in `PEND` (30_encoding.md R64). -/
def execOpen (s : State) : Host.Outcome State Fault Refusal :=
  match openCheck s.hw s.pend.blockLen.toNat with
  | .none => .next (settle s (openAccepted s))
  | code => .next (complete code s)

/-- `SPLIT_GROUP(g)` then `RECON_GROUP(g)`: the loop body of R107. -/
def splitThenRecon (g : Nat) (s : State) : Except Overflow State := do
  let t ← splitGroup g s
  reconGroup g t

/-- The groups of one block (R107, R108). -/
def processGroups (s : State) : Except Overflow State :=
  match s.hw.schedule with
  | .interleaved => forUp splitThenRecon 0 s.groups s
  | .splitAllFirst => do
    let t ← forUp splitGroup 0 s.groups s
    forUp reconGroup 0 s.groups t

/-- An accepted PROCESS up to its completion (R107, R108). -/
def processBlock (s : State) : Except Overflow State := do
  let t ← processGroups s
  .ok (complete .none (cursorAdvance t))

/-- `PROCESS` (R107, R108): rejected with code 6 unless `STATE = READY`; an overflow ends it with the fault. -/
def execProcess (s : State) : Host.Outcome State Fault Refusal :=
  if s.inst = .ready then .next (settle s (processBlock s)) else .next (complete .cmdNotReady s)

/-- `CLOSE` (R111): the tables stay (10_state.md R24; log 25). -/
def execClose (s : State) : Host.Outcome State Fault Refusal :=
  .next (complete .none
    { discardInstance s with inst := .unconfigured, cfgN := 0, cfgRate := 0, ovf := false, lost := false })

/-- A reserved `OP` in `0x4 .. 0x7` (30_encoding.md R65): code 4, nothing else. -/
def execReservedOp47 (_low : BitVec 2) (s : State) : Host.Outcome State Fault Refusal :=
  .next (complete .cmdReservedOp s)

/-- A reserved `OP` in `0x8 .. 0xF` (30_encoding.md R65): code 4, nothing else. -/
def execReservedOp8F (_low : BitVec 3) (s : State) : Host.Outcome State Fault Refusal :=
  .next (complete .cmdReservedOp s)

end Sys2Proof.Machine
end

