-- ==== Sys2Proof/Machine/Dispatch.lean ====
section
/-! DEFINITION. The dispatch: one arm for each instruction. -/

namespace Sys2Proof.Machine

def exec (i : Instr) (s : State) : Host.Outcome State Fault Refusal :=
  match i with
  | .nop => Sys2Proof.Machine.execNop s
  | .openStream => Sys2Proof.Machine.execOpen s
  | .process => Sys2Proof.Machine.execProcess s
  | .closeStream => Sys2Proof.Machine.execClose s
  | .reservedOp47 low => Sys2Proof.Machine.execReservedOp47 low s
  | .reservedOp8F low => Sys2Proof.Machine.execReservedOp8F low s
  | .firGen => Sys2Proof.Machine.execFirGen s
  | .noiseGen => Sys2Proof.Machine.execNoiseGen s
  | .splitSample j => Sys2Proof.Machine.execSplitSample j s
  | .lpStore g => Sys2Proof.Machine.execLpStore g s
  | .splitGroup g => Sys2Proof.Machine.execSplitGroup g s
  | .reconSubsample g p => Sys2Proof.Machine.execReconSubsample g p s
  | .reconGroup g => Sys2Proof.Machine.execReconGroup g s
  | .decode24 j => Sys2Proof.Machine.execDecode24 j s
  | .encode24 j y => Sys2Proof.Machine.execEncode24 j y s
  | .cursorAdvance => Sys2Proof.Machine.execCursorAdvance s

end Sys2Proof.Machine
end

