-- ==== Sys2Proof/Machine/HostPort.lean ====
section
/-! DEFINITION. The host's accesses: the registers of spec/10_state.md section 3 and the buffers, spec/20_memory.md.
Each is one indivisible step (R49). -/

namespace Sys2Proof.Machine

/-- What a register reads while `BUSY = 0`, and `STATUS`, the arguments, the parameters and the constant reads at all
times (10_state.md R33 to R39). -/
def regValue (s : State) : Reg → Word32
  | .cmd => 0
  | .status => statusWord s
  | .argRate => s.argRate
  | .argBlocklen => s.argBlocklen
  | .argSeed => s.argSeed
  | .cfgN => s.cfgN
  | .cfgRate => s.cfgRate
  | .noisei => if s.inst = .unconfigured then 0 else BitVec.ofNat 32 s.noisei
  | .hifsumLo => if s.inst = .unconfigured then 0 else s.hifsum.extractLsb' 0 32
  | .hifsumHi => if s.inst = .unconfigured then 0 else s.hifsum.extractLsb' 32 32
  | .paramF => BitVec.ofNat 32 s.hw.f
  | .paramNl => BitVec.ofNat 32 s.hw.nl
  | .paramNmax => BitVec.ofNat 32 s.hw.nMax
  | .reserved => 0

/-- The registers whose reads give any value while `BUSY = 1` (10_state.md R40). -/
def anyWhileBusy : Reg → Bool
  | .cmd => false
  | .status => false
  | .argRate => false
  | .argBlocklen => false
  | .argSeed => false
  | .cfgN => true
  | .cfgRate => true
  | .noisei => true
  | .hifsumLo => true
  | .hifsumHi => true
  | .paramF => false
  | .paramNl => false
  | .paramNmax => false
  | .reserved => false

/-- A read that returns any `n`-byte value: a fresh free value (93_implementation_defined.md U9, U10). -/
def readAny (n : Nat) (s : State) : State :=
  { s with rdata := BitVec.ofNat 32 ((Config.freeWord s.draws).toNat % 2 ^ (8 * n)), draws := s.draws + 1 }

/-- A read of a register (10_state.md R33 to R40). -/
def regRead (r : Reg) (s : State) : State :=
  if s.busy && anyWhileBusy r then readAny 4 s else { s with rdata := regValue s r }

/-- Command issue (20_memory.md R51): lost while busy (60_exceptions.md R119), else latched with the arguments. -/
def issueCommand (c : Word32) (s : State) : State :=
  if s.busy then { s with lost := true }
  else
    { s with
      pend := { word := c, rate := s.argRate, blockLen := s.argBlocklen, seed := s.argSeed }
      busy := true }

/-- A write of a register (10_state.md R33, R35); writes to read-only and reserved registers are ignored (R32, R39). -/
def regWrite (r : Reg) (v : Word32) (s : State) : State :=
  match r with
  | .cmd => issueCommand v s
  | .status => s
  | .argRate => { s with argRate := v }
  | .argBlocklen => { s with argBlocklen := v }
  | .argSeed => { s with argSeed := v }
  | .cfgN => s
  | .cfgRate => s
  | .noisei => s
  | .hifsumLo => s
  | .hifsumHi => s
  | .paramF => s
  | .paramNl => s
  | .paramNmax => s
  | .reserved => s

/-- A legal `REG` access (20_memory.md R46). -/
def legalReg (off width : Nat) : Bool := decide (width = 4) && decide (off % 4 = 0) && decide (off < 0x100)

/-- A legal `IN` or `OUT` access (20_memory.md R47). -/
def legalBuffer (hw : Params) (off width : Nat) : Bool :=
  (decide (width = 1) || decide (width = 2) || decide (width = 4)) && decide (off + width ≤ 3 * hw.nMax)

/-- An access to `REG` (20_memory.md R46). -/
def accessReg (off width : Nat) (op : HostOp) (s : State) : Host.Outcome State Fault Refusal :=
  if legalReg off width then
    match op with
    | .read => .next (regRead (regAt off) s)
    | .write v => .next (regWrite (regAt off) v s)
  else .refused .illegalRegAccess

/-- An access to `IN` (20_memory.md R47). The host has no write while `BUSY = 1` (R54; log 13). -/
def accessIn (off width : Nat) (op : HostOp) (s : State) : Host.Outcome State Fault Refusal :=
  if legalBuffer s.hw off width then
    match op with
    | .read => .next { s with rdata := BitVec.ofNat 32 (memRead s.inMem off width) }
    | .write v =>
      if s.busy then .refused .inWriteWhileBusy
      else .next { s with inMem := memWrite s.inMem off width v.toNat }
  else .refused .illegalBufferAccess

/-- An access to `OUT` (20_memory.md R47): writes are ignored; reads while `BUSY = 1` give any value (R54). -/
def accessOut (off width : Nat) (op : HostOp) (s : State) : Host.Outcome State Fault Refusal :=
  if legalBuffer s.hw off width then
    match op with
    | .read =>
      if s.busy then .next (readAny width s)
      else .next { s with rdata := BitVec.ofNat 32 (memRead s.outMem off width) }
    | .write _ => .next s
  else .refused .illegalBufferAccess

/-- A host access (20_memory.md R43). -/
def hostAccess (a : Access) (s : State) : Host.Outcome State Fault Refusal :=
  match a.space with
  | .reg => accessReg a.off a.width a.op s
  | .inp => accessIn a.off a.width a.op s
  | .out => accessOut a.off a.width a.op s

/-- The size of a space in bytes (20_memory.md R43). -/
def spaceSize (hw : Params) : Space → Nat
  | .reg => 0x100
  | .inp => 3 * hw.nMax
  | .out => 3 * hw.nMax

/-- The bus address of a space's first byte (20_memory.md R59). -/
def spaceBase (hw : Params) : Space → Nat
  | .reg => hw.regBase
  | .inp => hw.inBase
  | .out => hw.outBase

/-- The offset of a bus address in a space, if it lies in the space's window. -/
def offsetIn (hw : Params) (addr : Nat) (sp : Space) : Option (Space × Nat) :=
  if spaceBase hw sp ≤ addr ∧ addr < spaceBase hw sp + spaceSize hw sp then some (sp, addr - spaceBase hw sp) else none

/-- The space and offset of a bus address (20_memory.md R59); the first window in the order `REG`, `IN`, `OUT` where
the platform lets windows overlap (log 19). -/
def locate (hw : Params) (addr : Nat) : Option (Space × Nat) :=
  (offsetIn hw addr .reg).or ((offsetIn hw addr .inp).or (offsetIn hw addr .out))

/-- A host access by bus address. -/
def busAccess (addr width : Nat) (op : HostOp) (s : State) : Host.Outcome State Fault Refusal :=
  match locate s.hw addr with
  | some (sp, off) => hostAccess { space := sp, off := off, width := width, op := op } s
  | none => .refused .noSpaceAtAddress

/-- `byte(space, off)` of the three spaces as the host sees them while `BUSY = 0` (00_scope.md R13, 20_memory.md R45):
byte `off + b` of the register at `off` holds its bits `[8b+7:8b]`. -/
def spaceByte (s : State) (sp : Space) (off : Nat) : Byte :=
  match sp with
  | .reg => (regValue s (regAt (off - off % 4))).extractLsb' (8 * (off % 4)) 8
  | .inp => s.inMem.read off
  | .out => s.outMem.read off

end Sys2Proof.Machine
end

