-- ==== Sys2Proof/Machine/Agent.lean ====
section
/-! DEFINITION. The agents' turns: the block's command step (spec/44_block_processor.md R100), the sequencer, the host's
moves and the platform's reset (spec/70_reset_and_hazards.md R133, R134). -/

namespace Sys2Proof.Machine

/-- The pending command, performed and completed (R100). A word with `RSVD != 0` is no instruction: it completes with
code 5 and changes nothing else (30_encoding.md R65). -/
def commandStep (s : State) : Host.Outcome State Fault Refusal :=
  match decodeCommand s.pend.word with
  | .ok i => exec i s
  | .error _ => .next (complete .cmdReservedBits s)

/-- The block's turn: its one enabled step while `BUSY = 1`; it has none while `BUSY = 0` (R100), and its state holds
(60_exceptions.md R132). -/
def blockTurn (s : State) : Host.Outcome State Fault Refusal := if s.busy then commandStep s else .next s

/-- The micro-operation of a sequencer word (log 14). -/
def microStep (w : MicroWord) (s : State) : Host.Outcome State Fault Refusal :=
  match decodeMicro w with
  | .ok i => exec i s
  | .error _ => .refused .badMicroWord

/-- The platform's reset at any time (70_reset_and_hazards.md R133, R134). The parameters stay (R135). What R134 leaves
unspecified, the buffers among it, becomes any value. -/
def platformReset (s : State) : State :=
  { discardTables (discardInstance s) with
    inst := .unconfigured
    busy := false
    ovf := false
    lost := false
    errcode := .none
    pend := { word := 0, rate := 0, blockLen := 0, seed := 0 }
    cfgN := 0
    cfgRate := 0
    argRate := 0
    argBlocklen := 0
    argSeed := 0
    seq := []
    decoded := Config.freeWord (discardTables (discardInstance s)).draws
    inMem := Memory.fillFree [] ((discardTables (discardInstance s)).draws + 1) 0 (3 * s.hw.nMax)
    outMem := Memory.fillFree [] ((discardTables (discardInstance s)).draws + 1 + 3 * s.hw.nMax) 0 (3 * s.hw.nMax)
    draws := (discardTables (discardInstance s)).draws + 1 + 6 * s.hw.nMax }

/-- The host's `WAIT` (30_encoding.md R68, 20_memory.md R53): while `BUSY = 1` the block moves and the host goes on
waiting (44_block_processor.md R102; log 11); the poll that finds `BUSY = 0` ends it. -/
def hostWait (s : State) : Host.Outcome State Fault Refusal :=
  if s.busy then commandStep { s with inputs := .wait :: s.inputs } else .next (regRead .status s)

/-- One move, already taken off the list. -/
def takeMove (m : Move) (s : State) : Host.Outcome State Fault Refusal :=
  match m with
  | .access a => hostAccess a s
  | .bus addr width op => busAccess addr width op s
  | .wait => hostWait s
  | .block => blockTurn s
  | .reset => .next (platformReset s)

/-- The machine's next transition: the sequencer's micro-operations first (a command is atomic, 20_memory.md R50), then
the next move, and the block's turn when no move is left (log 10). -/
def advance (s : State) : Host.Outcome State Fault Refusal :=
  match s.seq with
  | w :: ws => microStep w { s with seq := ws }
  | [] =>
    match s.inputs with
    | m :: ms => takeMove m { s with inputs := ms }
    | [] => blockTurn s

/-- Where an opcode-table row's bits go so that the next transition runs them: a micro-operation into the sequencer, a
command word into `PEND` with `BUSY = 1` and the block to move (log 20). -/
def placeWord (s : State) (nbits w : Nat) : State :=
  if nbits = 8 then { s with seq := BitVec.ofNat 104 (numOfBytes (tableBytes nbits w)) :: s.seq }
  else
    { s with
      pend := { s.pend with word := BitVec.ofNat 32 (numOfBytes (tableBytes nbits w)) }
      busy := true
      seq := []
      inputs := .block :: s.inputs }

end Sys2Proof.Machine
end

