-- ==== Sys2Proof/Machine/Step.lean ====
section
/-! DEFINITION. One step of the machine, and where a host-supplied instruction word is placed. -/

namespace Sys2Proof.Machine

/-- One step. Parameters outside their legal values are refused: no hardware exists for them (00_scope.md R5). -/
def step (s : State) : Host.Outcome State Fault Refusal :=
  if s.hw.legal then advance s else .refused .illegalConfiguration

/-- The state whose next step runs the instruction with these bits. -/
def State.withFetchWord (s : State) (nbits w : Nat) : State := placeWord s nbits w

end Sys2Proof.Machine
end

