-- ==== Sys2Proof/Machine/HostSyntax.lean ====
section
/-! DEFINITION. The host assembly syntax of spec/30_encoding.md R68: each form and pseudo-instruction as the list of
moves it expands to, and the listing of an access. -/

namespace Sys2Proof.Machine.HostSyntax

/-- `WR <reg>, <v>`. -/
def wr (r : Reg) (v : Word32) : Move :=
  .access { space := .reg, off := regOffset r, width := 4, op := .write v }

/-- `RD <reg> -> <var>`; the variable is `State.rdata` after the move. -/
def rd (r : Reg) : Move := .access { space := .reg, off := regOffset r, width := 4, op := .read }

/-- `WRB IN, <off>, <v>`: the byte `v[7:0]`. -/
def wrb (off : Nat) (v : Byte) : Move :=
  .access { space := .inp, off := off, width := 1, op := .write (v.setWidth 32) }

/-- `RDB <space>, <off> -> <var>`. -/
def rdb (sp : Space) (off : Nat) : Move := .access { space := sp, off := off, width := 1, op := .read }

/-- `NOP`. -/
def nop : Move := wr .cmd 0x00000000

/-- `OPEN`. -/
def openStream : Move := wr .cmd 0x00000001

/-- `PROCESS`. -/
def process : Move := wr .cmd 0x00000002

/-- `CLOSE`. -/
def closeStream : Move := wr .cmd 0x00000003

/-- `WRIN j, s`: the three bytes of `trunc_24(s)`, lowest first. -/
def wrin (j : Nat) (s : Int) : List Move :=
  [wrb (3 * j) (BitVec.ofInt 8 s), wrb (3 * j + 1) (BitVec.ofInt 8 (s / 256)),
    wrb (3 * j + 2) (BitVec.ofInt 8 (s / 65536))]

/-- `RDOUT j -> var`: the three reads; the variable is `rdoutValue` of what they return. -/
def rdout (j : Nat) : List Move := [rdb .out (3 * j), rdb .out (3 * j + 1), rdb .out (3 * j + 2)]

/-- `sext_24({c, b, a})` of the bytes that `rdout` reads. -/
def rdoutValue (a b c : Byte) : Int := sext24 (c.toNat * 65536 + b.toNat * 256 + a.toNat)

/-- `OPENW rate, len, seed`. -/
def openw (rate len seed : Word32) : List Move :=
  [wr .argRate rate, wr .argBlocklen len, wr .argSeed seed, openStream, .wait]

/-- `BLOCK s0, ..., s(N-1)`. -/
def block (samples : List Int) : List Move :=
  (samples.zipIdx.flatMap fun x => wrin x.2 x.1) ++ [process, .wait]

/-- The listing `space:offset/width = bytes` of an access: a write's bytes in address order. -/
def listing (a : Access) : Space × Nat × Nat × List Byte :=
  match a.op with
  | .read => (a.space, a.off, a.width, [])
  | .write v => (a.space, a.off, a.width, bytesOfNum a.width v.toNat)

end Sys2Proof.Machine.HostSyntax
end

