-- ==== Sys2Proof/Machine/MicroProgram.lean ====
section
/-! DEFINITION. The micro-programs of the groups and of PROCESS: the micro-operations that the pseudocode of
spec/42_band_splitter.md R87, spec/43_reconstructor.md R97 and spec/44_block_processor.md R107, R108 issues, in order,
and the sequencer words that encode them; and a run of several steps. -/

namespace Sys2Proof.Machine

/-- `SPLIT_GROUP(g)` (R87): its `F` samples, then the store. -/
def splitGroupOps (hw : Params) (g : Nat) : List Instr :=
  ((List.range hw.f).map fun k => Instr.splitSample (g * hw.f + k)) ++ [.lpStore g]

/-- `RECON_GROUP(g)` (R97): its `F` sub-phases. -/
def reconGroupOps (hw : Params) (g : Nat) : List Instr := (List.range hw.f).map fun p => Instr.reconSubsample g p

/-- An accepted PROCESS over `l` groups, by groups (R107, R108). -/
def processOps (hw : Params) (l : Nat) : List Instr :=
  (match hw.schedule with
    | .interleaved => (List.range l).flatMap fun g => [Instr.splitGroup g, .reconGroup g]
    | .splitAllFirst =>
      ((List.range l).map fun g => Instr.splitGroup g) ++ (List.range l).map fun g => Instr.reconGroup g)
    ++ [.cursorAdvance]

/-- An accepted PROCESS over `l` groups, down to single samples. -/
def processLeafOps (hw : Params) (l : Nat) : List Instr :=
  (match hw.schedule with
    | .interleaved => (List.range l).flatMap fun g => splitGroupOps hw g ++ reconGroupOps hw g
    | .splitAllFirst => (List.range l).flatMap (splitGroupOps hw) ++ (List.range l).flatMap (reconGroupOps hw))
    ++ [.cursorAdvance]

/-- The sequencer word of a micro-operation. -/
def microWordOf (i : Instr) : MicroWord :=
  match encode i with
  | .micro w => w
  | .command _ => 0

/-- A state whose sequencer holds these micro-operations and nothing else. -/
def State.withMicroOps (s : State) (ops : List Instr) : State := { s with seq := ops.map microWordOf }

/-- `n` steps, stopping at the first fault or refusal. -/
def run (n : Nat) (s : State) : Host.Outcome State Fault Refusal := Sys2Proof.core.run n s

end Sys2Proof.Machine
end

