-- ==== Sys2Proof/Safety.lean ====
section
/-! DEFINITION. What counts as a good state and a well-behaved host, in the terms the statements use. -/

namespace Sys2Proof.Machine

/-! ### Invariants -/

/-- The storage is the hardware's: legal parameters, arrays of their declared lengths, a cursor of `log2(NL)` bits, a
block length the storage holds, and buffers in canonical form inside their spaces (00_scope.md R5; 10_state.md R16;
20_memory.md R43). -/
structure StorageOk (s : State) : Prop where
  legal : s.hw.legal = true
  hifLength : s.hif.length = s.hw.nMax
  lopassLength : s.lopass.length = s.hw.nMax
  firLength : s.fir.length = s.hw.nMax
  noiseLength : s.noise.length = s.hw.nl
  cursorBound : s.noisei < s.hw.nl
  lenBound : s.len ≤ s.hw.nMax
  inCanonical : s.inMem.wf = true
  outCanonical : s.outMem.wf = true
  inInside : s.inMem.below (3 * s.hw.nMax) = true
  outInside : s.outMem.below (3 * s.hw.nMax) = true

/-- An instance exists (`READY` or `FAULT`): a legal block length, the kernel of that length and a noise table in its
range (10_state.md R21, R22, R24; 44_block_processor.md R103, R104). -/
structure ConfiguredOk (s : State) : Prop where
  length : ∃ k, s.len = 2 ^ k ∧ s.hw.fBits ≤ k ∧ k ≤ s.hw.nMaxBits
  kernel : s.fir.take s.len = firKernel s.hw s.len
  noiseRange : ∀ x ∈ s.noise, -8388607 ≤ x.toInt ∧ x.toInt ≤ 8388607

/-- The stream's mutable state (`READY`): 10_state.md R17, R18, R19, R20, R23; 42_band_splitter.md R88. -/
structure StreamOk (s : State) : Prop where
  prevRange : -8388608 ≤ s.prev.toInt ∧ s.prev.toInt ≤ 8388607
  hifRange : ∀ h ∈ s.hif.take s.len, 0 ≤ h.toInt ∧ h.toInt ≤ 16777215 / (2 * s.len : Nat)
  hifSum : s.hifsum.toInt = ((s.hif.take s.len).map BitVec.toInt).sum
  lopassRange : ∀ x ∈ s.lopass.take s.groups, -8388608 ≤ x.toInt ∧ x.toInt ≤ 8388607
  cursorMultiple : s.len ∣ s.noisei

/-- The invariant of the machine between commands. -/
structure GoodState (s : State) : Prop where
  storage : StorageOk s
  noMicroOps : s.seq = []
  ovfIffFault : s.ovf = true ↔ s.inst = .fault
  lenZeroIff : s.cfgN = 0 ↔ s.inst = .unconfigured
  configured : s.inst ≠ .unconfigured → ConfiguredOk s
  stream : s.inst = .ready → StreamOk s

/-! ### The host -/

/-- A legal host access (20_memory.md R46, R47) that keeps the host's duty of R54 not to write `IN` while busy. -/
def legalAccess (s : State) (a : Access) : Bool :=
  match a.space with
  | .reg => legalReg a.off a.width
  | .inp => legalBuffer s.hw a.off a.width && (decide (a.op = .read) || !s.busy)
  | .out => legalBuffer s.hw a.off a.width

/-- A legal move. -/
def legalMove (s : State) : Move → Bool
  | .access a => legalAccess s a
  | .bus addr width op =>
    match locate s.hw addr with
    | some (sp, off) => legalAccess s { space := sp, off := off, width := width, op := op }
    | none => false
  | .wait => true
  | .block => true
  | .reset => true

/-- The next move, if there is one, is legal. -/
def nextMoveLegal (s : State) : Bool := s.inputs.head?.all (legalMove s)

/-- A safe step: it answers a next state. -/
def StepsOn (s : State) : Prop := ∃ t, step s = .next t

/-! ### What the statements compare -/

/-- The pending command is the instruction `i`. -/
def Pends (s : State) (i : Instr) : Prop := s.busy = true ∧ decodeCommand s.pend.word = .ok i

/-- The datapath elements (10_state.md R16) are the same. -/
def SameDatapath (s t : State) : Prop :=
  t.prev = s.prev ∧ t.hif = s.hif ∧ t.hifsum = s.hifsum ∧ t.lopass = s.lopass ∧ t.fir = s.fir ∧ t.noise = s.noise ∧
    t.noisei = s.noisei

/-- The configuration and status elements (10_state.md R25 to R30) but `BUSY` and `LOST` are the same. -/
def SameStatus (s t : State) : Prop :=
  t.cfgN = s.cfgN ∧ t.cfgRate = s.cfgRate ∧ t.inst = s.inst ∧ t.ovf = s.ovf ∧ t.errcode = s.errcode

/-- What no command touches: the parameters, the argument registers, the latch, the sequencer, the moves to come and
what the host has read. -/
def SameOutside (s t : State) : Prop :=
  t.hw = s.hw ∧ t.argRate = s.argRate ∧ t.argBlocklen = s.argBlocklen ∧ t.argSeed = s.argSeed ∧ t.pend = s.pend ∧
    t.seq = s.seq ∧ t.inputs = s.inputs ∧ t.rdata = s.rdata ∧ t.decoded = s.decoded

/-- Every byte of a buffer from `lo` up reads as before. -/
def SameBytesFrom (lo : Nat) (m m' : Memory) : Prop := ∀ off, lo ≤ off → m'.read off = m.read off

/-- A value lies in `INT64` (00_scope.md R9). -/
def InInt64 (v : Int) : Prop := -9223372036854775808 ≤ v ∧ v ≤ 9223372036854775807

/-- The exact dot product of the first `k` taps of output `(g, p)`, with the indices of 43_reconstructor.md R90 and R93
written with `mod`. -/
def exactDot (s : State) (g p : Nat) : Nat → Int
  | 0 => 0
  | k + 1 =>
    exactDot s g p k
      + (readAt s.lopass ((g + s.groups - k) % s.groups)).toInt * (readAt s.fir (k * s.hw.f + p)).toInt

/-- The noise sample of output `(g, p)` (43_reconstructor.md R94), with `mod`. -/
def exactNoise (s : State) (g p : Nat) : Int :=
  match s.hw.noiseIndex with
  | .phase => (readAt s.noise ((s.noisei + p) % s.hw.nl)).toInt
  | .output => (readAt s.noise ((s.noisei + g * s.hw.f + p) % s.hw.nl)).toInt

/-- The exact accumulator of output `(g, p)` (43_reconstructor.md R92). -/
def exactAcc (s : State) (g p : Nat) : Int :=
  exactDot s g p s.groups + exactNoise s g p * s.hifsum.toInt / (2 ^ s.hw.noiseShift.val : Nat)

/-- Every check of output `(g, p)` passes (43_reconstructor.md R96): each product, each partial sum, the noise product
and the final sum lie in `INT64`. -/
def ChecksPass (s : State) (g p : Nat) : Prop :=
  (∀ k < s.groups,
      InInt64 ((readAt s.lopass ((g + s.groups - k) % s.groups)).toInt * (readAt s.fir (k * s.hw.f + p)).toInt) ∧
        InInt64 (exactDot s g p (k + 1))) ∧
    InInt64 (exactNoise s g p * s.hifsum.toInt) ∧ InInt64 (exactAcc s g p)

/-- The bound of 43_reconstructor.md R96 on a kernel: for every sub-phase the sum of the coefficients' magnitudes is at
most `2^36`. -/
def KernelBound (s : State) : Prop :=
  ∀ p < s.hw.f, ((List.range s.groups).map fun k => (readAt s.fir (k * s.hw.f + p)).toInt.natAbs).sum ≤ 2 ^ 36

/-- The recurrence of 41_noise_table_gen.md R78 in exact integers: the estimate after `i` draws, from 0 (R79). -/
def exactEstimate (b : Nat) (d : Nat → Int) : Nat → Int
  | 0 => 0
  | i + 1 => exactEstimate b d i - exactEstimate b d i / (2 ^ b : Nat) + d i / (2 ^ b : Nat)

end Sys2Proof.Machine
end

