-- ==== Sys2Proof/Certificates/Slice0/Obligations.lean ====
section
/-! DEFINITION. The statements about the model, from the numbered rules of spec/. Each docstring names the rule, and the
log entry where a clause is the model's own choice. -/

section

open Sys2Proof Sys2Proof.Machine

/-! ### Encoding -/

/-- The words of the opcode table, written from R63, R65 and R69, decode to their rows' instructions; a micro-operation
identifier stands with operands of zero (log 14). -/
def Obligations.OpcodeTableWordsDecode : Prop :=
  decodeTableWord 32 0x00000000 = some .nop ∧ decodeTableWord 32 0x00000001 = some .openStream ∧
    decodeTableWord 32 0x00000002 = some .process ∧ decodeTableWord 32 0x00000003 = some .closeStream ∧
    (∀ l : BitVec 2, decodeTableWord 32 (0x00000004 + l.toNat) = some (.reservedOp47 l)) ∧
    (∀ l : BitVec 3, decodeTableWord 32 (0x00000008 + l.toNat) = some (.reservedOp8F l)) ∧
    decodeTableWord 8 0x10 = some .firGen ∧ decodeTableWord 8 0x11 = some .noiseGen ∧
    decodeTableWord 8 0x20 = some (.splitSample 0) ∧ decodeTableWord 8 0x21 = some (.lpStore 0) ∧
    decodeTableWord 8 0x22 = some (.splitGroup 0) ∧ decodeTableWord 8 0x30 = some (.reconSubsample 0 0) ∧
    decodeTableWord 8 0x31 = some (.reconGroup 0) ∧ decodeTableWord 8 0x40 = some (.decode24 0) ∧
    decodeTableWord 8 0x41 = some (.encode24 0 0) ∧ decodeTableWord 8 0x42 = some .cursorAdvance

/-- Decoding the encoding of a well-formed instruction, as a word and as bytes, gives it back, with every operand at
every value its field admits. -/
def Obligations.DecodeOfEncodeIsIdentity : Prop :=
  ∀ i : Instr, i.wellFormed = true → decode (encode i) = .ok i ∧ decodeBytes (encode i).bytes = .ok i

/-- Every code the decoder accepts is the encoding of the well-formed instruction it gives: no two codes share one. -/
def Obligations.EncodeOfDecodeIsIdentity : Prop :=
  ∀ (c : Code) (i : Instr), decode c = .ok i → i.wellFormed = true ∧ encode i = c

/-- R62, R65: a command word decodes to a command exactly when its `RSVD` bits are 0, and is refused for its reserved
bits otherwise. -/
def Obligations.CommandWordDecodesIffReservedBitsZero : Prop :=
  ∀ w : Word32,
    (w.toNat / 16 = 0 → ∃ i, decodeCommand w = .ok i ∧ i.isCommand = true) ∧
      (w.toNat / 16 ≠ 0 → decodeCommand w = .error .reservedBits)

/-! ### The step -/

/-- A step runs the decoded instruction: the pending command when the block moves (no move left, the block's turn, or a
waiting host), and the sequencer's first word when there is one (log 10, log 11, log 14). -/
def Obligations.StepRunsTheDecodedInstruction : Prop :=
  ∀ (s : State) (i : Instr), s.hw.legal = true →
    (s.seq = [] → Pends s i →
      (s.inputs = [] → step s = exec i s) ∧
        (∀ ms, s.inputs = .block :: ms → step s = exec i { s with inputs := ms }) ∧
        (∀ ms, s.inputs = .wait :: ms → step s = exec i s)) ∧
      (∀ w ws, s.seq = w :: ws → decodeMicro w = .ok i → step s = exec i { s with seq := ws })

/-- The bits of an opcode-table row, placed where the step takes its next instruction, are the instruction the next step
runs (log 20). -/
def Obligations.PlacedTableWordRunsNext : Prop :=
  ∀ (s : State) (w : Nat) (i : Instr), s.hw.legal = true →
    (w < 2 ^ 8 → decodeTableWord 8 w = some i → step (s.withFetchWord 8 w) = exec i s) ∧
      (w < 2 ^ 32 → decodeTableWord 32 w = some i →
        step (s.withFetchWord 32 w) =
          exec i { s with pend := { s.pend with word := BitVec.ofNat 32 w }, busy := true, seq := [] })

/-- R65: a pending word with `RSVD != 0` completes with code 5, a reserved `OP` with code 4, and both leave every other
piece of state unchanged; each reserved instruction completes in every state. -/
def Obligations.ReservedWordsCompleteWithTheirCode : Prop :=
  (∀ s : State, s.hw.legal = true → s.seq = [] → s.inputs = [] → s.busy = true →
    (s.pend.word.toNat / 16 ≠ 0 → step s = .next { s with errcode := .cmdReservedBits, busy := false }) ∧
      (s.pend.word.toNat / 16 = 0 → 4 ≤ s.pend.word.toNat →
        step s = .next { s with errcode := .cmdReservedOp, busy := false })) ∧
    (∀ (s : State) (l : BitVec 2),
      exec (.reservedOp47 l) s = .next { s with errcode := .cmdReservedOp, busy := false }) ∧
    ∀ (s : State) (l : BitVec 3),
      exec (.reservedOp8F l) s = .next { s with errcode := .cmdReservedOp, busy := false }

/-- R132, R100: while `BUSY = 0` the block has no step, and with no move to come the state holds. -/
def Obligations.IdleBlockHoldsItsState : Prop :=
  ∀ s : State, s.hw.legal = true → s.seq = [] → s.busy = false →
    (s.inputs = [] → step s = .next s) ∧
      (∀ ms, s.inputs = .block :: ms → step s = .next { s with inputs := ms })

/-- R102: every command completes, in every state, with `BUSY = 0`. -/
def Obligations.EveryCommandCompletes : Prop :=
  ∀ (i : Instr) (s : State), i.isCommand = true → ∃ t, exec i s = .next t ∧ t.busy = false

/-- R101: a command that completes with a code other than 0 and 7, an instruction's or the block's step on any pending
word, changed nothing but `ERRCODE` and `BUSY`. -/
def Obligations.RejectedCommandChangesNothingElse : Prop :=
  (∀ (i : Instr) (s t : State), i.isCommand = true → exec i s = .next t → t.errcode ≠ .none → t.errcode ≠ .overflow →
    t = { s with errcode := t.errcode, busy := false }) ∧
    ∀ s t : State, commandStep s = .next t → t.errcode ≠ .none → t.errcode ≠ .overflow →
      t = { s with errcode := t.errcode, busy := false }

/-- R121, from the second place on: the code of the pending command is the first cause that applies, in the order
`RSVD`, reserved `OP`, the command's own check; an accepted PROCESS gives code 7 exactly where a check of its groups
raises an overflow, and 0 otherwise. -/
def Obligations.ErrorCodePriority : Prop :=
  ∀ s t : State, s.hw.legal = true → s.seq = [] → s.inputs = [] → s.busy = true → step s = .next t →
    (s.pend.word.toNat / 16 ≠ 0 → t.errcode = .cmdReservedBits) ∧
      (s.pend.word.toNat / 16 = 0 → 4 ≤ s.pend.word.toNat → t.errcode = .cmdReservedOp) ∧
      (s.pend.word = 1 → (¬ ∃ k, s.pend.blockLen.toNat = 2 ^ k) → t.errcode = .cfgNNotPow2) ∧
      (s.pend.word = 1 → (∃ k, s.pend.blockLen.toNat = 2 ^ k) → s.hw.nMax < s.pend.blockLen.toNat →
        t.errcode = .cfgNTooLarge) ∧
      (s.pend.word = 1 → (∃ k, s.pend.blockLen.toNat = 2 ^ k) → s.pend.blockLen.toNat ≤ s.hw.nMax →
        s.pend.blockLen.toNat < s.hw.f → t.errcode = .cfgNTooSmall) ∧
      (s.pend.word = 1 → (∃ k, s.pend.blockLen.toNat = 2 ^ k) → s.hw.f ≤ s.pend.blockLen.toNat →
        s.pend.blockLen.toNat ≤ s.hw.nMax → t.errcode = .none) ∧
      (s.pend.word = 2 → s.inst ≠ .ready → t.errcode = .cmdNotReady) ∧
      (s.pend.word = 2 → s.inst = .ready →
        (∀ e, processGroups s = .error e → t.errcode = .overflow) ∧
          ∀ u, processGroups s = .ok u → t.errcode = .none) ∧
      (s.pend.word = 0 ∨ s.pend.word = 3 → t.errcode = .none)

/-! ### NOP, CLOSE, OPEN -/

/-- R110: NOP is accepted in every state, clears `ERRCODE` and changes nothing else (its completion clears `BUSY`). -/
def Obligations.NopOnlyClearsErrcode : Prop :=
  ∀ s : State, exec .nop s = .next { s with errcode := .none, busy := false }

/-- R111 with R24, R26, R29: CLOSE is accepted in every state; the status and the configuration are cleared, the mutable
datapath is unspecified, the cursor stays a cursor, and nothing else changes. Log 25: that the tables stay (R24, where a
comment of R111 has them unspecified), and that `LOST` is cleared in `UNCONFIGURED` too (R111's pseudocode, where its
remark says that CLOSE then only clears `ERRCODE`), are the model's readings. -/
def Obligations.CloseDiscardsTheInstance : Prop :=
  ∀ s : State, ∃ t, exec .closeStream s = .next t ∧
    t.inst = .unconfigured ∧ t.cfgN = 0 ∧ t.cfgRate = 0 ∧ t.ovf = false ∧ t.lost = false ∧ t.errcode = .none ∧
    t.busy = false ∧ t.noisei < t.hw.nl ∧ t.fir = s.fir ∧ t.noise = s.noise ∧ t.inMem = s.inMem ∧
    t.outMem = s.outMem ∧ SameOutside s t

/-- R103 with R101: OPEN rejects a length that is zero or no power of two, else one above `N_MAX`, else one below `F`,
each with its code, and changes nothing else. -/
def Obligations.OpenRejectsIllegalLengths : Prop :=
  ∀ s : State,
    ((¬ ∃ k, s.pend.blockLen.toNat = 2 ^ k) →
      exec .openStream s = .next { s with errcode := .cfgNNotPow2, busy := false }) ∧
    ((∃ k, s.pend.blockLen.toNat = 2 ^ k) → s.hw.nMax < s.pend.blockLen.toNat →
      exec .openStream s = .next { s with errcode := .cfgNTooLarge, busy := false }) ∧
    ((∃ k, s.pend.blockLen.toNat = 2 ^ k) → s.pend.blockLen.toNat ≤ s.hw.nMax → s.pend.blockLen.toNat < s.hw.f →
      exec .openStream s = .next { s with errcode := .cfgNTooSmall, busy := false })

/-- R104: OPEN with a legal length is accepted in every state and builds a ready instance: the configuration, zero in
the mutable state in use, the kernel of the length, the noise table of the seed's draws, the status; the buffers and
the host's registers are not touched. -/
def Obligations.OpenBuildsAReadyInstance : Prop :=
  ∀ (s : State) (k : Nat), s.hw.legal = true → s.pend.blockLen.toNat = 2 ^ k → s.hw.fBits ≤ k → k ≤ s.hw.nMaxBits →
    ∃ t, exec .openStream s = .next t ∧
      t.inst = .ready ∧ t.ovf = false ∧ t.lost = false ∧ t.errcode = .none ∧ t.busy = false ∧
      t.cfgN = s.pend.blockLen ∧ t.cfgRate = s.pend.rate ∧
      t.prev = 0 ∧ t.hifsum = 0 ∧ t.noisei = 0 ∧
      (∀ j < 2 ^ k, t.hif[j]? = some 0) ∧ (∀ i < 2 ^ k / s.hw.f, t.lopass[i]? = some 0) ∧
      (∀ i < 2 ^ k, t.fir[i]? = some (firTableValue s.hw.firTable (2 ^ k) s.hw.f i)) ∧
      (∀ i < s.hw.nl, (t.noise[i]?).map BitVec.toInt =
        some ((noiseDraw s.hw.noiseDraw s.pend.seed i).toInt
          - exactEstimate s.hw.fBits (fun j => (noiseDraw s.hw.noiseDraw s.pend.seed j).toInt) (i + 1))) ∧
      t.inMem = s.inMem ∧ t.outMem = s.outMem ∧ SameOutside s t

/-- R75 and R77: of two accepted OPENs on the same hardware, those with the same length give the same kernel, whatever
the seed, and those with the same seed the same noise table, whatever the length; the rate and the state do not
matter. -/
def Obligations.TablesDependOnLengthAndSeedOnly : Prop :=
  ∀ (s s' t t' : State) (k k' : Nat), s.hw.legal = true → s'.hw = s.hw →
    s.pend.blockLen.toNat = 2 ^ k → s.hw.fBits ≤ k → k ≤ s.hw.nMaxBits →
    s'.pend.blockLen.toNat = 2 ^ k' → s.hw.fBits ≤ k' → k' ≤ s.hw.nMaxBits →
    exec .openStream s = .next t → exec .openStream s' = .next t' →
    (k' = k → t'.fir.take (2 ^ k) = t.fir.take (2 ^ k)) ∧ (s'.pend.seed = s.pend.seed → t'.noise = t.noise)

/-! ### The generators -/

/-- R73: `FIR_GEN` writes the `N` coefficients of `FIR_TABLE` and nothing else of the datapath; the entries above `N`
are unspecified, drawn from the free values (log 8). -/
def Obligations.FirGenWritesTheKernel : Prop :=
  ∀ s : State, s.len ≤ s.hw.nMax →
    ∃ t, exec .firGen s = .next t ∧
      (∀ i < s.len, t.fir[i]? = some (firTableValue s.hw.firTable s.len s.hw.f i)) ∧ t.fir.length = s.hw.nMax ∧
      t = { s with fir := t.fir, draws := t.draws }

/-- R78, R79, R80: `NOISE_GEN` never overflows; entry `i` is draw `i` less the updated estimate, which starts at 0;
estimates and entries lie in their ranges; nothing else changes. -/
def Obligations.NoiseGenWritesTheResiduals : Prop :=
  ∀ s : State, ∃ t, exec .noiseGen s = .next t ∧ t.noise.length = s.hw.nl ∧
    (∀ i < s.hw.nl, (t.noise[i]?).map BitVec.toInt =
      some ((noiseDraw s.hw.noiseDraw s.pend.seed i).toInt
        - exactEstimate s.hw.fBits (fun j => (noiseDraw s.hw.noiseDraw s.pend.seed j).toInt) (i + 1))) ∧
    (∀ i, -4194304 ≤ exactEstimate s.hw.fBits (fun j => (noiseDraw s.hw.noiseDraw s.pend.seed j).toInt) i ∧
      exactEstimate s.hw.fBits (fun j => (noiseDraw s.hw.noiseDraw s.pend.seed j).toInt) i ≤ 4194303) ∧
    (∀ x ∈ t.noise, -8388607 ≤ x.toInt ∧ x.toInt ≤ 8388607) ∧ t = { s with noise := t.noise }

/-- R74 item 1: the reference kernel's centre tap is exactly `2^34 / F`, for every block length of 2 or more the
hardware can have. -/
def Obligations.ReferenceCentreTap : Prop :=
  ∀ n f : Nat, 1 ≤ n → n ≤ 31 → f ≤ n → refCoeff (2 ^ n) (2 ^ f) (2 ^ n / 2) = 2 ^ 34 / 2 ^ f

/-! ### The band splitter -/

/-- R84: the recurrence keeps any interval that holds the estimate and the sample, and never overflows. -/
def Obligations.RecurrenceKeepsItsInterval : Prop :=
  ∀ (b : Nat) (lo hi : Int) (x v : Word64), lo ≤ x.toInt → x.toInt ≤ hi → lo ≤ v.toInt → v.toInt ≤ hi →
    ∃ y, leak b x v = .ok y ∧ y.toInt = x.toInt - x.toInt / (2 ^ b : Nat) + v.toInt / (2 ^ b : Nat) ∧
      lo ≤ y.toInt ∧ y.toInt ≤ hi

/-- R85. On a constant input the recurrence changes the estimate by the difference of the bands, so it rests exactly in
the input's band. And on a good stream whose input samples are all `c`, `n` samples, taken one by one from the sequencer
(log 14) over the positions `0 .. N-1` again and again, bring the estimate into the band of `c` once
`n >= |c - prev|`, with a residual below `2^B` and a last magnitude of 0; `N` samples later the energy sum is 0. -/
def Obligations.ConstantInputSettlesInItsBand : Prop :=
  (∀ (b : Nat) (c x : Word64), ∃ y, leak b x c = .ok y ∧
    y.toInt = x.toInt + (c.toInt / (2 ^ b : Nat) - x.toInt / (2 ^ b : Nat)) ∧
    (y = x ↔ x.toInt / (2 ^ b : Nat) = c.toInt / (2 ^ b : Nat))) ∧
  ∀ (s : State) (c : Int) (n : Nat), GoodState s → s.inst = .ready →
    (∀ j < s.len, (decodeSample s j).toInt = c) → (c - s.prev.toInt).natAbs ≤ n →
    ∃ t, run n (s.withMicroOps ((List.range n).map fun i => .splitSample (i % s.len))) = .next t ∧
      t.prev.toInt / (2 ^ s.hw.fBits : Nat) = c / (2 ^ s.hw.fBits : Nat) ∧
      (c - t.prev.toInt).natAbs < 2 ^ s.hw.fBits ∧
      (0 < n → readAt t.hif ((n - 1) % s.len) = 0) ∧
      ((c - s.prev.toInt).natAbs + s.len ≤ n → t.hifsum = 0)

/-- R82, R83: `SPLIT_SAMPLE(j)` from an estimate in sample range. The residual is against the updated `prev`, the
magnitude is the residual's over `2N`, the sum changes by the magnitude less the evicted entry, no check fails, and
nothing else changes. -/
def Obligations.SplitSampleUpdatesEstimateAndEnergy : Prop :=
  ∀ (s : State) (j k : Nat), j < s.hw.nMax → j < s.hif.length → s.len = 2 ^ k →
    -8388608 ≤ s.prev.toInt → s.prev.toInt ≤ 8388607 →
    s.hifsum.toInt.natAbs ≤ 2 ^ 61 → (readAt s.hif j).toInt.natAbs ≤ 2 ^ 61 →
    ∃ t, exec (.splitSample j) s = .next t ∧
      t.prev.toInt
        = s.prev.toInt - s.prev.toInt / (2 ^ s.hw.fBits : Nat) + (decodeSample s j).toInt / (2 ^ s.hw.fBits : Nat) ∧
      -8388608 ≤ t.prev.toInt ∧ t.prev.toInt ≤ 8388607 ∧
      (readAt t.hif j).toInt = (((decodeSample s j).toInt - t.prev.toInt).natAbs : Int) / (2 * s.len : Nat) ∧
      t.hifsum.toInt = s.hifsum.toInt - (readAt s.hif j).toInt + (readAt t.hif j).toInt ∧
      t = { s with prev := t.prev, hifsum := t.hifsum, hif := s.hif.set j (readAt t.hif j) }

/-- R86: `LP_STORE(g)` writes `prev` to entry `g` and changes nothing else. -/
def Obligations.LpStoreWritesPrev : Prop :=
  ∀ (s : State) (g : Nat), g < s.hw.nMax → s.lopass.length = s.hw.nMax →
    ∃ t, exec (.lpStore g) s = .next t ∧ t.lopass[g]? = some s.prev ∧ (∀ i, i ≠ g → t.lopass[i]? = s.lopass[i]?) ∧
      t = { s with lopass := t.lopass }

/-- R87: `SPLIT_GROUP(g)` is its `F` samples and the store, run one by one from the sequencer. -/
def Obligations.SplitGroupIsItsMicroOperations : Prop :=
  ∀ (s : State) (g : Nat), StorageOk s → s.seq = [] → g < s.groups →
    ∃ t, exec (.splitGroup g) s = .next t ∧
      ∃ n ≤ s.hw.f + 1, run n (s.withMicroOps (splitGroupOps s.hw g)) = .next t

/-- R88 over a group of a stream: from a good stream state `SPLIT_GROUP(g)` completes without overflow, stores the new
`prev` and keeps `hifsum` the sum of the ring; only `prev`, `hif`, `hifsum` and `lopass` change. -/
def Obligations.SplitGroupKeepsTheEnergySum : Prop :=
  ∀ (s : State) (g : Nat), GoodState s → s.inst = .ready → g < s.groups →
    ∃ t, exec (.splitGroup g) s = .next t ∧ GoodState t ∧ t.lopass[g]? = some t.prev ∧
      t = { s with prev := t.prev, hif := t.hif, hifsum := t.hifsum, lopass := t.lopass }

/-! ### The reconstructor -/

/-- R92 with R90, R93, R94, R95: where every check passes, `RECON_SUBSAMPLE(g, p)` writes the 24 bits above `OUT_SHIFT`
of the exact accumulator as sample `g*F + p`, and changes no other byte of `OUT` and nothing else. -/
def Obligations.ReconSubsampleWritesThePolyphaseSum : Prop :=
  ∀ (s : State) (g p m : Nat), s.groups = 2 ^ m → g < s.groups → p < s.hw.f → g * s.hw.f + p < s.hw.nMax →
    s.outMem.wf = true → ChecksPass s g p →
    ∃ t, exec (.reconSubsample g p) s = .next t ∧
      (memRead t.outMem (3 * (g * s.hw.f + p)) 3 : Int)
        = exactAcc s g p / (2 ^ s.hw.outShift.val : Nat) % 16777216 ∧
      (∀ off, off < 3 * (g * s.hw.f + p) ∨ 3 * (g * s.hw.f + p) + 3 ≤ off → t.outMem.read off = s.outMem.read off) ∧
      t = { s with outMem := t.outMem }

/-- R96, R122: where a check fails, `RECON_SUBSAMPLE(g, p)` takes the overflow fault. -/
def Obligations.ReconSubsampleFaultsOnOverflow : Prop :=
  ∀ (s : State) (g p m : Nat), s.groups = 2 ^ m → g < s.groups → p < s.hw.f → g * s.hw.f + p < s.hw.nMax →
    ¬ ChecksPass s g p →
    ∃ t, exec (.reconSubsample g p) s = .next t ∧ t.inst = .fault ∧ t.ovf = true ∧ t.errcode = .overflow ∧
      t.busy = false ∧ t.seq = [] ∧ t.fir = s.fir ∧ t.noise = s.noise ∧ t.inMem = s.inMem

/-- R97: `RECON_GROUP(g)` is its `F` sub-phases, run one by one from the sequencer. -/
def Obligations.ReconGroupIsItsMicroOperations : Prop :=
  ∀ (s : State) (g : Nat), StorageOk s → s.seq = [] → g < s.groups →
    ∃ t, exec (.reconGroup g) s = .next t ∧
      ∃ n ≤ s.hw.f, run n (s.withMicroOps (reconGroupOps s.hw g)) = .next t

/-- R96 on a kernel within its bound: from a good stream state `RECON_GROUP(g)` completes without overflow and writes
only the bytes of the group's `F` outputs. -/
def Obligations.ReconGroupWritesOnlyItsOutputs : Prop :=
  ∀ (s : State) (g : Nat), GoodState s → s.inst = .ready → KernelBound s → g < s.groups →
    ∃ t, exec (.reconGroup g) s = .next t ∧
      (∀ off, off < 3 * (g * s.hw.f) ∨ 3 * ((g + 1) * s.hw.f) ≤ off → t.outMem.read off = s.outMem.read off) ∧
      t = { s with outMem := t.outMem }

/-- R98 (a) and (b): with every `lopass` entry `c` and `hifsum = 0`, output `(g, p)` is the low 24 bits of `c` times the
sub-phase's coefficient sum, shifted; with `c = 0` it is 0. -/
def Obligations.ConstantHistoryGivesTheScaledSum : Prop :=
  ∀ (s : State) (g p m : Nat) (c : Int), s.groups = 2 ^ m → g < s.groups → p < s.hw.f → g * s.hw.f + p < s.hw.nMax →
    s.outMem.wf = true → (∀ i < s.groups, (readAt s.lopass i).toInt = c) → s.hifsum = 0 → ChecksPass s g p →
    ∃ t, exec (.reconSubsample g p) s = .next t ∧
      (memRead t.outMem (3 * (g * s.hw.f + p)) 3 : Int)
        = c * ((List.range s.groups).map fun k => (readAt s.fir (k * s.hw.f + p)).toInt).sum
            / (2 ^ s.hw.outShift.val : Nat) % 16777216

/-! ### The sample codec and the cursor -/

/-- R105, R66: `DECODE24(j)` by itself returns the sign-extended value of the three bytes of sample `j`; it reads `IN`
and changes nothing but the port it returns the value on (the model's own, log 15). -/
def Obligations.Decode24ReturnsTheSample : Prop :=
  ∀ (s : State) (j : Nat), j < s.hw.nMax →
    ∃ t, exec (.decode24 j) s = .next t ∧
      t.decoded.toInt =
        (if (s.inMem.read (3 * j + 2)).toNat < 128 then 0 else -16777216)
          + ((s.inMem.read (3 * j)).toNat + 256 * (s.inMem.read (3 * j + 1)).toNat
              + 65536 * (s.inMem.read (3 * j + 2)).toNat : Nat) ∧
      -8388608 ≤ t.decoded.toInt ∧ t.decoded.toInt ≤ 8388607 ∧
      t = { s with decoded := t.decoded }

/-- R106: `ENCODE24(j, y)` writes the low 24 bits of `y`, lowest byte first, with no saturation, and changes no other
byte and nothing else. -/
def Obligations.Encode24WritesThreeBytes : Prop :=
  ∀ (s : State) (j : Nat) (y : Word64), j < s.hw.nMax → s.outMem.wf = true →
    ∃ t, exec (.encode24 j y) s = .next t ∧
      t.outMem.read (3 * j) = y.extractLsb' 0 8 ∧ t.outMem.read (3 * j + 1) = y.extractLsb' 8 8 ∧
      t.outMem.read (3 * j + 2) = y.extractLsb' 16 8 ∧
      (∀ off, off < 3 * j ∨ 3 * j + 3 ≤ off → t.outMem.read off = s.outMem.read off) ∧
      t = { s with outMem := t.outMem }

/-- R109: `CURSOR_ADVANCE` adds `N` modulo `NL`, and `NL / N` of them bring the cursor back. -/
def Obligations.CursorAdvanceWrapsAround : Prop :=
  (∀ s : State, exec .cursorAdvance s = .next { s with noisei := (s.noisei + s.len) % s.hw.nl }) ∧
    ∀ (s : State) (k : Nat), s.len = 2 ^ k → k ≤ s.hw.nlBits → s.noisei < s.hw.nl →
      (cursorAdvance^[s.hw.nl / s.len] s).noisei = s.noisei

/-- The micro-operations stop, by name, where an operand names storage the block does not have; no command issues one
(the model's choice, log 16). -/
def Obligations.MicroOperationsOnMissingStorageFault : Prop :=
  ∀ (s : State) (k p : Nat) (y : Word64),
    (s.hw.nMax ≤ k →
      exec (.splitSample k) s = .fault .noSuchElement ∧ exec (.lpStore k) s = .fault .noSuchElement ∧
        exec (.decode24 k) s = .fault .noSuchElement ∧ exec (.encode24 k y) s = .fault .noSuchElement) ∧
      (s.hw.nMax < (k + 1) * s.hw.f →
        exec (.splitGroup k) s = .fault .noSuchElement ∧ exec (.reconGroup k) s = .fault .noSuchElement) ∧
      (s.hw.nMax ≤ k * s.hw.f + p → exec (.reconSubsample k p) s = .fault .noSuchElement)

/-! ### PROCESS and the overflow fault -/

/-- R107: PROCESS while `STATE` is not `READY` is rejected with code 6 and changes nothing else. -/
def Obligations.ProcessRejectedUnlessReady : Prop :=
  ∀ s : State, s.inst ≠ .ready → exec .process s = .next { s with errcode := .cmdNotReady, busy := false }

/-- R107, R112, R96: on a good stream state with a kernel within the bound of R96, PROCESS runs its block to the end:
no overflow, `STATE` stays `READY`, `ERRCODE` is 0, the cursor advances by `N`; the tables, the configuration, `LOST`,
`IN` and the bytes of `OUT` past the block are unchanged. -/
def Obligations.ProcessRunsItsBlock : Prop :=
  ∀ s : State, GoodState s → s.inst = .ready → KernelBound s →
    ∃ t, exec .process s = .next t ∧ t.inst = .ready ∧ t.ovf = false ∧ t.errcode = .none ∧ t.busy = false ∧
      t.noisei = (s.noisei + s.len) % s.hw.nl ∧ t.fir = s.fir ∧ t.noise = s.noise ∧ t.cfgN = s.cfgN ∧
      t.cfgRate = s.cfgRate ∧ t.lost = s.lost ∧ t.inMem = s.inMem ∧ SameBytesFrom (3 * s.len) s.outMem t.outMem ∧
      SameOutside s t

/-- R107, R108 under both schedules: PROCESS is its micro-program. Run from the sequencer group by group, and down to
single samples, the micro-operations end in the state PROCESS completes, or in its fault. -/
def Obligations.ProcessIsItsMicroProgram : Prop :=
  ∀ s : State, GoodState s → s.inst = .ready →
    ∃ t, exec .process s = .next t ∧
      (∃ n ≤ (processOps s.hw s.groups).length, ∃ u : State,
        run n (s.withMicroOps (processOps s.hw s.groups)) = .next u ∧ u.seq = [] ∧
          t = if u.inst = .fault then u else { u with errcode := .none, busy := false }) ∧
      ∃ n ≤ (processLeafOps s.hw s.groups).length, ∃ u : State,
        run n (s.withMicroOps (processLeafOps s.hw s.groups)) = .next u ∧ u.seq = [] ∧
          t = if u.inst = .fault then u else { u with errcode := .none, busy := false }

/-- R112 (b): the output block and the new datapath state are a function of the datapath state in use and the `IN` bytes
of the block alone; so is whether the block overflows. -/
def Obligations.ProcessDependsOnlyOnItsInputs : Prop :=
  ∀ s s' t t' : State, GoodState s → GoodState s' → s.inst = .ready → s'.inst = .ready →
    s'.hw = s.hw → s'.cfgN = s.cfgN → s'.prev = s.prev → s'.hifsum = s.hifsum → s'.noisei = s.noisei →
    s'.noise = s.noise → s'.hif.take s.len = s.hif.take s.len → s'.lopass.take s.groups = s.lopass.take s.groups →
    (∀ off < 3 * s.len, s'.inMem.read off = s.inMem.read off) →
    exec .process s = .next t → exec .process s' = .next t' →
    t'.errcode = t.errcode ∧
      (t.errcode = .none →
        t'.prev = t.prev ∧ t'.hifsum = t.hifsum ∧ t'.noisei = t.noisei ∧
          t'.hif.take s.len = t.hif.take s.len ∧ t'.lopass.take s.groups = t.lopass.take s.groups ∧
          ∀ off < 3 * s.len, t'.outMem.read off = t.outMem.read off)

/-- R112 (e): from the zero state that OPEN leaves, an all-zero block gives an all-zero output block and leaves
`prev = hifsum = 0`, whatever the kernel and the noise. -/
def Obligations.ZeroBlockGivesZeroOutput : Prop :=
  ∀ s : State, GoodState s → s.inst = .ready → s.prev = 0 → (∀ h ∈ s.hif.take s.len, h = 0) →
    (∀ x ∈ s.lopass.take s.groups, x = 0) → (∀ off < 3 * s.len, s.inMem.read off = 0) →
    ∃ t, exec .process s = .next t ∧ t.inst = .ready ∧ t.errcode = .none ∧ t.prev = 0 ∧ t.hifsum = 0 ∧
      t.hif = s.hif ∧ t.lopass = s.lopass ∧ t.noisei = (s.noisei + s.len) % s.hw.nl ∧
      ∀ off < 3 * s.len, t.outMem.read off = 0

/-- R122, R123: a PROCESS in `READY` ends with code 7 exactly where a check of its groups raises an overflow, and then it
ends in the fault: `STATE`, `OVF`, `ERRCODE`, `BUSY` as the rule says, a cursor in its range, and `fir`, `noise`,
`CFG_N`, `CFG_RATE`, `LOST`, `IN`, the entries and bytes not in use, and the host's registers unchanged. -/
def Obligations.OverflowFaultEntry : Prop :=
  (∀ s t : State, s.inst = .ready → exec .process s = .next t →
    (t.errcode = .overflow ↔ ∃ e, processGroups s = .error e)) ∧
  ∀ (s : State) (e : Overflow), s.inst = .ready → processGroups s = .error e →
    ∃ t, exec .process s = .next t ∧ t.inst = .fault ∧ t.ovf = true ∧ t.errcode = .overflow ∧ t.busy = false ∧
      t.noisei < t.hw.nl ∧ t.fir = s.fir ∧ t.noise = s.noise ∧
      t.cfgN = s.cfgN ∧ t.cfgRate = s.cfgRate ∧ t.lost = s.lost ∧ t.inMem = s.inMem ∧
      SameBytesFrom (3 * s.len) s.outMem t.outMem ∧ t.hif.drop s.len = s.hif.drop s.len ∧
      t.lopass.drop s.groups = s.lopass.drop s.groups ∧ t.seq = [] ∧ t.hw = s.hw ∧ t.argRate = s.argRate ∧
      t.argBlocklen = s.argBlocklen ∧ t.argSeed = s.argSeed ∧ t.inputs = s.inputs

/-- R124: in `FAULT` PROCESS is rejected with code 6, NOP is accepted, the registers read what the fault left, OPEN with
a legal length and CLOSE leave it, and no step but theirs and reset does. -/
def Obligations.OnlyOpenCloseAndResetLeaveFault : Prop :=
  ∀ s : State, s.hw.legal = true → s.seq = [] → s.inst = .fault →
    exec .process s = .next { s with errcode := .cmdNotReady, busy := false } ∧
      exec .nop s = .next { s with errcode := .none, busy := false } ∧
      regValue s .noisei = BitVec.ofNat 32 s.noisei ∧
      (regValue s .hifsumHi ++ regValue s .hifsumLo) = s.hifsum ∧
      (∀ k, s.pend.blockLen.toNat = 2 ^ k → s.hw.fBits ≤ k → k ≤ s.hw.nMaxBits →
        ∃ t, exec .openStream s = .next t ∧ t.inst = .ready ∧ t.ovf = false) ∧
      (∃ t, exec .closeStream s = .next t ∧ t.inst = .unconfigured ∧ t.ovf = false) ∧
      ∀ t, step s = .next t → t.inst ≠ .fault →
        Pends s .openStream ∨ Pends s .closeStream ∨ s.inputs.head? = some .reset

/-! ### Invariants of the machine -/

/-- Reset meets the invariant; the values R134 leaves open are the model's (log 6, log 7). -/
def Obligations.ResetMeetsInvariant : Prop := GoodState State.reset

/-- Every step keeps the invariant: `hifsum` is the sum of the ring and every element is in its range while `READY`, the
tables are the kernel and a noise table while an instance exists, `OVF = 1` exactly in `FAULT`, `CFG_N = 0` exactly in
`UNCONFIGURED`, the storage is whole, the buffers are canonical. -/
def Obligations.StepKeepsInvariant : Prop := ∀ s t : State, GoodState s → step s = .next t → GoodState t

/-- Every step keeps the storage whole and the buffers canonical, also where the sequencer runs micro-operations placed
from outside. -/
def Obligations.StepKeepsStorage : Prop := ∀ s t : State, StorageOk s → step s = .next t → StorageOk t

/-- R26: the transitions of `STATE`. -/
def Obligations.StateTransitions : Prop :=
  ∀ s t : State, s.hw.legal = true → s.seq = [] → step s = .next t →
    t.inst = s.inst ∨ (t.inst = .ready ∧ Pends s .openStream) ∨
      (t.inst = .unconfigured ∧ (Pends s .closeStream ∨ s.inputs.head? = some .reset)) ∨
      (t.inst = .fault ∧ s.inst = .ready ∧ Pends s .process)

/-- R24 with R134: only an OPEN and reset change `fir` or `noise`; a CLOSE leaves them (log 25). -/
def Obligations.TablesChangeOnlyByOpenAndReset : Prop :=
  ∀ s t : State, s.hw.legal = true → s.seq = [] → step s = .next t → ¬ (t.fir = s.fir ∧ t.noise = s.noise) →
    Pends s .openStream ∨ s.inputs.head? = some .reset

/-- R60, R139: `OUT` changes only by an accepted PROCESS, in the bytes of its block, and by reset; `IN` only by a host
access and by reset. -/
def Obligations.BuffersChangeOnlyAsStated : Prop :=
  ∀ s t : State, s.hw.legal = true → s.seq = [] → step s = .next t → s.inputs.head? ≠ some .reset →
    (t.outMem = s.outMem ∨
        (Pends s .process ∧ s.inst = .ready ∧ SameBytesFrom (3 * s.len) s.outMem t.outMem)) ∧
      (t.inMem = s.inMem ∨ (∃ a ms, s.inputs = .access a :: ms) ∨ ∃ addr width op ms, s.inputs = .bus addr width op :: ms)

/-- R135: no step, reset among them, changes the build-time parameters. -/
def Obligations.ParametersNeverChange : Prop := ∀ s t : State, step s = .next t → t.hw = s.hw

/-! ### The host -/

/-- R102, R46, R47: on whole storage, with an empty sequencer, a machine whose next move is legal always steps. -/
def Obligations.LegalHostIsAlwaysServed : Prop :=
  ∀ s : State, StorageOk s → s.seq = [] → nextMoveLegal s = true → StepsOn s

/-- R51, R119: a `CMD` write latches the command and the arguments and sets `BUSY` while `BUSY = 0`, and only sets
`LOST` while `BUSY = 1`. -/
def Obligations.CmdWriteIssuesOrIsLost : Prop :=
  ∀ (s : State) (c : Word32) (ms : List Move), s.hw.legal = true → s.seq = [] →
    s.inputs = HostSyntax.wr .cmd c :: ms →
    (s.busy = false →
      step s = .next
        { s with
          inputs := ms
          pend := { word := c, rate := s.argRate, blockLen := s.argBlocklen, seed := s.argSeed }
          busy := true }) ∧
      (s.busy = true → step s = .next { s with inputs := ms, lost := true })

/-- R35: a write of an argument register stores all 32 bits, in every state, and a read returns the last value written;
nothing else changes. -/
def Obligations.ArgumentRegistersHoldWhatIsWritten : Prop :=
  ∀ (s : State) (v : Word32) (ms : List Move), s.hw.legal = true → s.seq = [] →
    (s.inputs = HostSyntax.wr .argRate v :: HostSyntax.rd .argRate :: ms →
      run 2 s = .next { s with inputs := ms, argRate := v, rdata := v }) ∧
    (s.inputs = HostSyntax.wr .argBlocklen v :: HostSyntax.rd .argBlocklen :: ms →
      run 2 s = .next { s with inputs := ms, argBlocklen := v, rdata := v }) ∧
    (s.inputs = HostSyntax.wr .argSeed v :: HostSyntax.rd .argSeed :: ms →
      run 2 s = .next { s with inputs := ms, argSeed := v, rdata := v })

/-- R34: the fields of `STATUS`, read at any time, without a side effect. -/
def Obligations.StatusReadGivesItsFields : Prop :=
  ∀ (s : State) (ms : List Move), s.hw.legal = true → s.seq = [] → s.inputs = HostSyntax.rd .status :: ms →
    ∃ t, step s = .next t ∧ t = { s with inputs := ms, rdata := t.rdata } ∧
      t.rdata.toNat % 4 = (match s.inst with | .unconfigured => 0 | .ready => 1 | .fault => 2) ∧
      t.rdata.getLsbD 2 = s.busy ∧ t.rdata.getLsbD 3 = s.ovf ∧ t.rdata.getLsbD 4 = s.lost ∧
      t.rdata.toNat / 32 % 8 = 0 ∧
      t.rdata.toNat / 256 % 16 =
        (match s.errcode with
          | .none => 0
          | .cfgNNotPow2 => 1
          | .cfgNTooSmall => 2
          | .cfgNTooLarge => 3
          | .cmdReservedOp => 4
          | .cmdReservedBits => 5
          | .cmdNotReady => 6
          | .overflow => 7) ∧
      t.rdata.toNat / 4096 = 0

/-- R36, R37: while `BUSY = 0` the configuration, the cursor and the energy read their elements, and the cursor and the
energy read 0 while `UNCONFIGURED`. -/
def Obligations.StateRegistersReadTheirElements : Prop :=
  ∀ (s : State) (ms : List Move), s.hw.legal = true → s.seq = [] → s.busy = false →
    (s.inputs = HostSyntax.rd .cfgN :: ms → step s = .next { s with inputs := ms, rdata := s.cfgN }) ∧
    (s.inputs = HostSyntax.rd .cfgRate :: ms → step s = .next { s with inputs := ms, rdata := s.cfgRate }) ∧
    (s.inputs = HostSyntax.rd .noisei :: ms →
      step s = .next { s with
        inputs := ms, rdata := if s.inst = .unconfigured then 0 else BitVec.ofNat 32 s.noisei }) ∧
    (s.inputs = HostSyntax.rd .hifsumLo :: HostSyntax.rd .hifsumHi :: ms → ∃ t u,
      step s = .next t ∧ step t = .next u ∧ u = { s with inputs := ms, rdata := u.rdata } ∧
        u.rdata ++ t.rdata = if s.inst = .unconfigured then 0 else s.hifsum)

/-- R33, R38, R39, R32: `CMD` and the reserved registers read 0, the parameter registers read the parameters, and a
write of a read-only or reserved register is ignored. -/
def Obligations.ConstantRegistersAndIgnoredWrites : Prop :=
  ∀ (s : State) (off : Nat) (ms : List Move), s.hw.legal = true → s.seq = [] → off % 4 = 0 → off < 0x100 →
    (s.inputs = .access { space := .reg, off := off, width := 4, op := .read } :: ms →
      (off = 0x00 ∨ 0x34 ≤ off → step s = .next { s with inputs := ms, rdata := 0 }) ∧
      (off = 0x28 → step s = .next { s with inputs := ms, rdata := BitVec.ofNat 32 s.hw.f }) ∧
      (off = 0x2C → step s = .next { s with inputs := ms, rdata := BitVec.ofNat 32 s.hw.nl }) ∧
      (off = 0x30 → step s = .next { s with inputs := ms, rdata := BitVec.ofNat 32 s.hw.nMax })) ∧
    ∀ v, s.inputs = .access { space := .reg, off := off, width := 4, op := .write v } :: ms →
      off = 0x04 ∨ 0x14 ≤ off → step s = .next { s with inputs := ms }

/-- R48, R44: an access that is not a `CMD` write leaves the datapath, the status, `BUSY`, `LOST`, the latch and `OUT`
unchanged; a read changes only what the host has read, and repeats while `BUSY = 0`. -/
def Obligations.OnlyCmdWritesHaveSideEffects : Prop :=
  ∀ (s t : State) (a : Access) (ms : List Move), s.hw.legal = true → s.seq = [] → s.inputs = .access a :: ms →
    step s = .next t →
    SameDatapath s t ∧ SameStatus s t ∧ t.outMem = s.outMem ∧ t.hw = s.hw ∧ t.seq = s.seq ∧
      (¬ (a.space = .reg ∧ a.off = 0 ∧ a.op ≠ .read) → t.busy = s.busy ∧ t.lost = s.lost ∧ t.pend = s.pend) ∧
      (a.op = .read → t = { s with inputs := ms, rdata := t.rdata, draws := t.draws }) ∧
      (a.op = .read → s.busy = false → t.draws = s.draws ∧
        ∀ u, step { t with inputs := .access a :: ms } = .next u → u.rdata = t.rdata)

/-- R47, R13, R45: a write of 1, 2 or 4 bytes to `IN` while `BUSY = 0` writes the value's bytes, lowest first, changes
no other byte and nothing else, and a read of the same bytes then returns the value written; a write to `OUT` is
ignored; a read of `IN`, and of `OUT` while `BUSY = 0`, returns its bytes, the lowest address in the low bits, zero
above them (log 21), and changes nothing else; a register read while `BUSY = 0` returns the little-endian value of the
register's four bytes. -/
def Obligations.HostAccessesAreLittleEndian : Prop :=
  (∀ (s : State) (off width : Nat) (v : Word32) (ms : List Move), s.hw.legal = true → s.seq = [] → s.inMem.wf = true →
    width = 1 ∨ width = 2 ∨ width = 4 → off + width ≤ 3 * s.hw.nMax →
    (s.busy = false →
      s.inputs = .access { space := .inp, off := off, width := width, op := .write v }
        :: .access { space := .inp, off := off, width := width, op := .read } :: ms →
      ∃ t u, step s = .next t ∧ step t = .next u ∧
        (∀ b < width, t.inMem.read (off + b) = v.extractLsb' (8 * b) 8) ∧
        (∀ x, x < off ∨ off + width ≤ x → t.inMem.read x = s.inMem.read x) ∧
        u = { s with inputs := ms, inMem := t.inMem, rdata := u.rdata } ∧
        u.rdata.toNat = v.toNat % 2 ^ (8 * width)) ∧
    (s.inputs = .access { space := .out, off := off, width := width, op := .write v } :: ms →
      step s = .next { s with inputs := ms })) ∧
  (∀ (s : State) (sp : Space) (off width : Nat) (ms : List Move), s.hw.legal = true → s.seq = [] →
    sp = .inp ∨ (sp = .out ∧ s.busy = false) → width = 1 ∨ width = 2 ∨ width = 4 → off + width ≤ 3 * s.hw.nMax →
    s.inputs = .access { space := sp, off := off, width := width, op := .read } :: ms →
    ∃ t, step s = .next t ∧ (∀ b < width, t.rdata.extractLsb' (8 * b) 8 = spaceByte s sp (off + b)) ∧
      t.rdata.toNat < 2 ^ (8 * width) ∧ t = { s with inputs := ms, rdata := t.rdata }) ∧
  ∀ (s : State) (off : Nat) (ms : List Move), s.hw.legal = true → s.seq = [] → s.busy = false → off % 4 = 0 →
    off < 0x100 → s.inputs = .access { space := .reg, off := off, width := 4, op := .read } :: ms →
    ∃ t, step s = .next t ∧
      t.rdata.toNat = (spaceByte s .reg off).toNat + 256 * (spaceByte s .reg (off + 1)).toNat
        + 65536 * (spaceByte s .reg (off + 2)).toNat + 16777216 * (spaceByte s .reg (off + 3)).toNat

/-- R46, R47, R54: an illegal access, and a write of `IN` while `BUSY = 1`, is refused by name (log 12, log 13). -/
def Obligations.IllegalAccessesAreRefused : Prop :=
  ∀ (s : State) (a : Access) (ms : List Move), s.hw.legal = true → s.seq = [] → s.inputs = .access a :: ms →
    (a.space = .reg → ¬ (a.width = 4 ∧ a.off % 4 = 0 ∧ a.off < 0x100) → step s = .refused .illegalRegAccess) ∧
      (a.space ≠ .reg → ¬ ((a.width = 1 ∨ a.width = 2 ∨ a.width = 4) ∧ a.off + a.width ≤ 3 * s.hw.nMax) →
        step s = .refused .illegalBufferAccess) ∧
      (∀ v, a.space = .inp → a.op = .write v → (a.width = 1 ∨ a.width = 2 ∨ a.width = 4) →
        a.off + a.width ≤ 3 * s.hw.nMax → s.busy = true → step s = .refused .inWriteWhileBusy)

/-- R59: an access by bus address in one of the windows is the access at its offset; outside all three it is refused
(log 19). -/
def Obligations.BusAccessesReachTheirSpace : Prop :=
  ∀ (s : State) (addr width : Nat) (op : HostOp) (ms : List Move), s.hw.legal = true → s.seq = [] →
    s.inputs = .bus addr width op :: ms →
    (∀ sp, spaceBase s.hw sp ≤ addr → addr < spaceBase s.hw sp + spaceSize s.hw sp →
      (∀ sp', sp' ≠ sp → ¬ (spaceBase s.hw sp' ≤ addr ∧ addr < spaceBase s.hw sp' + spaceSize s.hw sp')) →
      step s =
        step { s with
          inputs := .access { space := sp, off := addr - spaceBase s.hw sp, width := width, op := op } :: ms }) ∧
    ((∀ sp, ¬ (spaceBase s.hw sp ≤ addr ∧ addr < spaceBase s.hw sp + spaceSize s.hw sp)) →
      step s = .refused .noSpaceAtAddress)

/-! ### Reset -/

/-- R134, the elements it gives a value. -/
def Obligations.ResetHoldsItsStatedValues : Prop :=
  State.reset.inst = .unconfigured ∧ State.reset.busy = false ∧ State.reset.ovf = false ∧ State.reset.lost = false ∧
    State.reset.errcode = .none ∧ State.reset.cfgN = 0 ∧ State.reset.cfgRate = 0 ∧ State.reset.argRate = 0 ∧
    State.reset.argBlocklen = 0 ∧ State.reset.argSeed = 0 ∧ statusWord State.reset = 0x00000000 ∧
    regValue State.reset .noisei = 0 ∧ regValue State.reset .hifsumLo = 0 ∧ regValue State.reset .hifsumHi = 0 ∧
    regValue State.reset .paramF = BitVec.ofNat 32 State.reset.hw.f ∧
    regValue State.reset .paramNl = BitVec.ofNat 32 State.reset.hw.nl ∧
    regValue State.reset .paramNmax = BitVec.ofNat 32 State.reset.hw.nMax ∧
    regValue State.reset .cmd = 0 ∧ regValue State.reset .reserved = 0

/-- R133, R134, R135: a reset at any time, also while a command is pending, leaves the stated values and the parameters;
the moves to come and what the host has read are the environment's and stay. -/
def Obligations.PlatformResetAtAnyTime : Prop :=
  ∀ (s : State) (ms : List Move), s.hw.legal = true → s.seq = [] → s.inputs = .reset :: ms →
    ∃ t, step s = .next t ∧ t.inst = .unconfigured ∧ t.busy = false ∧ t.ovf = false ∧ t.lost = false ∧
      t.errcode = .none ∧ t.cfgN = 0 ∧ t.cfgRate = 0 ∧ t.argRate = 0 ∧ t.argBlocklen = 0 ∧ t.argSeed = 0 ∧
      statusWord t = 0 ∧ t.noisei < t.hw.nl ∧ t.hw = s.hw ∧ t.inputs = ms ∧ t.rdata = s.rdata ∧
      t.hif.length = s.hw.nMax ∧ t.lopass.length = s.hw.nMax ∧ t.fir.length = s.hw.nMax ∧ t.noise.length = s.hw.nl

end
end

