-- ==== Sys2Proof/Laws/Arith.lean ====
section
/-! SUPPORT. Checked arithmetic and the leaky integrator: what each answers, once. -/

namespace Sys2Proof.Machine

theorem toInt_ofInt_of_inInt64 {v : Int} (h : InInt64 v) : (BitVec.ofInt 64 v : Word64).toInt = v := by
  rw [BitVec.toInt_ofInt]
  exact Int.bmod_eq_of_le (by have := h.1; norm_num; omega) (by have := h.2; norm_num; omega)

theorem inInt64_toInt (x : Word64) : InInt64 x.toInt := by
  have h1 := BitVec.le_toInt x
  have h2 := BitVec.toInt_lt (x := x)
  unfold InInt64
  norm_num at h1 h2
  omega

/-- `chk64` narrows exactly the values of `INT64`. -/
theorem chk64_of_inInt64 {v : Int} (h : InInt64 v) : chk64 v = .ok (BitVec.ofInt 64 v) := by
  unfold chk64; exact if_pos h

theorem chk64_of_not_inInt64 {v : Int} (h : ¬ InInt64 v) : chk64 v = .error ⟨v⟩ := by
  unfold chk64; exact if_neg h

theorem chk64_ok {v : Int} {y : Word64} (h : chk64 v = .ok y) : InInt64 v ∧ y.toInt = v := by
  by_cases hv : InInt64 v
  · rw [chk64_of_inInt64 hv] at h
    cases h
    exact ⟨hv, toInt_ofInt_of_inInt64 hv⟩
  · rw [chk64_of_not_inInt64 hv] at h
    cases h

/-- The value a checked operation answers, when its exact value is in range. -/
theorem chk64_exists {v : Int} (h : InInt64 v) : ∃ y : Word64, chk64 v = .ok y ∧ y.toInt = v :=
  ⟨_, chk64_of_inInt64 h, toInt_ofInt_of_inInt64 h⟩

theorem ediv_pow_nonneg {x : Int} (s : Nat) (h : 0 ≤ x) : 0 ≤ x / ((2 ^ s : Nat) : Int) ∧ x / ((2 ^ s : Nat) : Int) ≤ x :=
  ⟨Int.ediv_nonneg h (by positivity), Int.ediv_le_self _ h⟩

theorem ediv_pow_neg {x : Int} (s : Nat) (h : x < 0) : x ≤ x / ((2 ^ s : Nat) : Int) ∧ x / ((2 ^ s : Nat) : Int) < 0 := by
  have hp : (1 : Int) ≤ ((2 ^ s : Nat) : Int) := by exact_mod_cast Nat.one_le_two_pow
  refine ⟨?_, Int.ediv_neg_of_neg_of_pos h (by omega)⟩
  rw [Int.le_ediv_iff_mul_le (by omega)]
  nlinarith

/-- An arithmetic right shift is the exact quotient rounded toward minus infinity, and never overflows (R10). -/
theorem asr_toInt (x : Word64) (s : Nat) : (asr x s).toInt = x.toInt / ((2 ^ s : Nat) : Int) := by
  apply toInt_ofInt_of_inInt64
  have h := inInt64_toInt x
  unfold InInt64 at *
  rcases lt_or_ge x.toInt 0 with hx | hx
  · have := ediv_pow_neg s hx; omega
  · have := ediv_pow_nonneg s hx; omega

/-- R84 in exact integers: the recurrence is monotone in both arguments. -/
theorem recurrence_mono {b : Nat} {x y v w : Int} (hx : x ≤ y) (hv : v ≤ w) :
    x - x / (2 ^ b : Nat) + v / (2 ^ b : Nat) ≤ y - y / (2 ^ b : Nat) + w / (2 ^ b : Nat) := by
  have hp : (0 : Int) < ((2 ^ b : Nat) : Int) := by positivity
  have h1 : v / ((2 ^ b : Nat) : Int) ≤ w / ((2 ^ b : Nat) : Int) := Int.ediv_le_ediv hp hv
  have h2 : y / ((2 ^ b : Nat) : Int) ≤ x / ((2 ^ b : Nat) : Int) + (y - x) := by
    have : y / ((2 ^ b : Nat) : Int) ≤ (x + (y - x) * ((2 ^ b : Nat) : Int)) / ((2 ^ b : Nat) : Int) := by
      apply Int.ediv_le_ediv hp
      nlinarith
    rwa [Int.add_mul_ediv_right _ _ (by omega)] at this
  omega

/-- R84: the recurrence keeps an interval that holds the estimate and the sample. -/
theorem recurrence_range {b : Nat} {lo hi x v : Int} (hx : lo ≤ x ∧ x ≤ hi) (hv : lo ≤ v ∧ v ≤ hi) :
    lo ≤ x - x / (2 ^ b : Nat) + v / (2 ^ b : Nat) ∧ x - x / (2 ^ b : Nat) + v / (2 ^ b : Nat) ≤ hi := by
  have h1 := recurrence_mono (b := b) hx.1 hv.1
  have h2 := recurrence_mono (b := b) hx.2 hv.2
  omega

/-- `leak` answers the exact recurrence, always. -/
theorem leak_ok (b : Nat) (x v : Word64) :
    ∃ y, leak b x v = .ok y ∧ y.toInt = x.toInt - x.toInt / (2 ^ b : Nat) + v.toInt / (2 ^ b : Nat) := by
  have hx := inInt64_toInt x
  have hv := inInt64_toInt v
  have h1 : InInt64 (x.toInt - (asr x b).toInt) := by
    rw [asr_toInt]
    unfold InInt64 at *
    rcases lt_or_ge x.toInt 0 with h | h
    · have := ediv_pow_neg b h; omega
    · have := ediv_pow_nonneg b h; omega
  obtain ⟨d, hd, hd'⟩ := chk64_exists h1
  have h2 : InInt64 (d.toInt + (asr v b).toInt) := by
    rw [hd', asr_toInt, asr_toInt]
    exact recurrence_range hx hv
  obtain ⟨y, hy, hy'⟩ := chk64_exists h2
  refine ⟨y, ?_, by rw [hy', hd', asr_toInt, asr_toInt]⟩
  unfold leak sub64 add64
  rw [hd]
  exact hy

/-- Two values of one band differ by less than its width (42_band_splitter.md R85). -/
theorem natAbs_sub_lt_of_same_band {b : Nat} {c x : Int} (h : x / (2 ^ b : Nat) = c / (2 ^ b : Nat)) :
    (c - x).natAbs < 2 ^ b := by
  have hp : (0 : Int) < ((2 ^ b : Nat) : Int) := by positivity
  have hx := Int.emod_add_mul_ediv x ((2 ^ b : Nat) : Int)
  have hc := Int.emod_add_mul_ediv c ((2 ^ b : Nat) : Int)
  have := Int.emod_nonneg x hp.ne'
  have := Int.emod_nonneg c hp.ne'
  have := Int.emod_lt_of_pos x hp
  have := Int.emod_lt_of_pos c hp
  rw [h] at hx
  omega

/-- On a constant input the recurrence stays in the input's band, or comes nearer to the input (R85). -/
theorem recurrence_approaches {b d : Nat} {c x : Int}
    (h : x / (2 ^ b : Nat) = c / (2 ^ b : Nat) ∨ (c - x).natAbs ≤ d + 1) :
    (x - x / (2 ^ b : Nat) + c / (2 ^ b : Nat)) / (2 ^ b : Nat) = c / (2 ^ b : Nat) ∨
      (c - (x - x / (2 ^ b : Nat) + c / (2 ^ b : Nat))).natAbs ≤ d := by
  have hp : (0 : Int) < ((2 ^ b : Nat) : Int) := by positivity
  by_cases h0 : x / (2 ^ b : Nat) = c / (2 ^ b : Nat)
  · exact .inl (by rw [show x - x / (2 ^ b : Nat) + c / (2 ^ b : Nat) = x by omega, h0])
  · right
    rcases lt_or_ge x c with hx | hx
    · have := Int.ediv_le_ediv hp hx.le
      have := recurrence_range (b := b) (x := x) (v := c) ⟨le_rfl, hx.le⟩ ⟨hx.le, le_rfl⟩
      omega
    · have := Int.ediv_le_ediv hp hx
      have := recurrence_range (b := b) (x := x) (v := c) ⟨hx, le_rfl⟩ ⟨le_rfl, hx⟩
      omega

end Sys2Proof.Machine
end

