-- ==== Sys2Proof/Laws/Memory.lean ====
section
/-! SUPPORT. Buffers: read after write, the canonical form is kept, the little-endian primitives, and two canonical
buffers that read alike are equal. -/

namespace Sys2Proof.Machine

/-! ### One byte -/

theorem read_of_wfFrom_lt {m : Memory} {lo off : Nat} (h : Memory.wfFrom lo m = true) (ho : off < lo) :
    m.read off = unlistedByte := by
  induction m generalizing lo with
  | nil => rfl
  | cons c rest ih =>
    simp only [Memory.wfFrom, Bool.and_eq_true, decide_eq_true_eq] at h
    rw [Memory.read, if_neg (by omega)]
    exact ih h.2 (by omega)

theorem wfFrom_mono {m : Memory} {lo lo' : Nat} (h : Memory.wfFrom lo m = true) (hl : lo' ≤ lo) :
    Memory.wfFrom lo' m = true := by
  cases m with
  | nil => rfl
  | cons c rest =>
    simp only [Memory.wfFrom, Bool.and_eq_true, decide_eq_true_eq] at h ⊢
    exact ⟨⟨by omega, h.1.2⟩, h.2⟩

theorem consCell_wfFrom {m : Memory} {lo off : Nat} {b : Byte} (hl : lo ≤ off)
    (h : Memory.wfFrom (off + 1) m = true) : Memory.wfFrom lo (Memory.consCell off b m) = true := by
  unfold Memory.consCell
  split
  · exact wfFrom_mono h (by omega)
  · simp only [Memory.wfFrom, Bool.and_eq_true, decide_eq_true_eq]
    exact ⟨⟨hl, ‹_›⟩, h⟩

theorem consCell_read {m : Memory} {off x : Nat} {b : Byte} (h : Memory.wfFrom (off + 1) m = true) :
    (Memory.consCell off b m).read x = if x = off then b else m.read x := by
  unfold Memory.consCell
  by_cases hb : b = unlistedByte
  · rw [if_pos hb]
    split
    · subst x; rw [hb]; exact read_of_wfFrom_lt h (by omega)
    · rfl
  · rw [if_neg hb, Memory.read]
    by_cases hx : x = off
    · rw [if_pos hx.symm, if_pos hx]
    · rw [if_neg (Ne.symm hx), if_neg hx]

/-- A write keeps the canonical form from any lower bound of the buffer and the offset. -/
theorem write_wfFrom {m : Memory} {lo off : Nat} {b : Byte} (h : Memory.wfFrom lo m = true) (hl : lo ≤ off) :
    Memory.wfFrom lo (m.write off b) = true := by
  induction m generalizing lo with
  | nil => exact consCell_wfFrom hl rfl
  | cons c rest ih =>
    have h' := h
    simp only [Memory.wfFrom, Bool.and_eq_true, decide_eq_true_eq] at h
    unfold Memory.write
    split
    · exact consCell_wfFrom hl (wfFrom_mono (lo := c.1) (by
        simp only [Memory.wfFrom, Bool.and_eq_true, decide_eq_true_eq]; exact ⟨⟨le_rfl, h.1.2⟩, h.2⟩) (by omega))
    · split
      · rename_i h1 h2
        exact consCell_wfFrom hl (h2 ▸ h.2)
      · simp only [Memory.wfFrom, Bool.and_eq_true, decide_eq_true_eq]
        exact ⟨h.1, ih h.2 (by omega)⟩

/-- A write keeps the canonical form. -/
theorem write_wf {m : Memory} (off : Nat) (b : Byte) (h : m.wf = true) : (m.write off b).wf = true :=
  write_wfFrom h (Nat.zero_le _)

/-- Read after write: the byte written is read back, and every other byte reads as before. -/
theorem read_write {m : Memory} {lo off x : Nat} {b : Byte} (h : Memory.wfFrom lo m = true) :
    (m.write off b).read x = if x = off then b else m.read x := by
  induction m generalizing lo with
  | nil => exact consCell_read rfl
  | cons c rest ih =>
    simp only [Memory.wfFrom, Bool.and_eq_true, decide_eq_true_eq] at h
    unfold Memory.write
    split
    · exact consCell_read (by
        simp only [Memory.wfFrom, Bool.and_eq_true, decide_eq_true_eq]; exact ⟨⟨by omega, h.1.2⟩, h.2⟩)
    · split
      · rename_i h1 h2
        rw [consCell_read (h2 ▸ h.2), Memory.read]
        by_cases hx : x = off
        · rw [if_pos hx, if_pos hx]
        · rw [if_neg hx, if_neg hx, if_neg (by omega)]
      · rename_i h1 h2
        rw [Memory.read, Memory.read, ih h.2]
        by_cases hc : c.1 = x
        · rw [if_pos hc, if_pos hc, if_neg (by omega)]
        · rw [if_neg hc, if_neg hc]

/-- A write leaves every other byte alone, in any buffer. -/
theorem read_write_ne {m : Memory} {off x : Nat} (b : Byte) (hx : x ≠ off) : (m.write off b).read x = m.read x := by
  have hcons : ∀ rest : Memory, (Memory.consCell off b rest).read x = rest.read x := by
    intro rest
    unfold Memory.consCell
    split
    · rfl
    · rw [Memory.read, if_neg (Ne.symm hx)]
  induction m with
  | nil => exact hcons []
  | cons c rest ih =>
    unfold Memory.write
    split
    · exact hcons _
    · split
      · rw [hcons, Memory.read, if_neg (by omega)]
      · rw [Memory.read, Memory.read, ih]

theorem consCell_below {m : Memory} {off size : Nat} {b : Byte} (ho : off < size) (h : m.below size = true) :
    (Memory.consCell off b m).below size = true := by
  unfold Memory.consCell
  split
  · exact h
  · simp only [Memory.below, List.all_cons, Bool.and_eq_true, decide_eq_true_eq] at *
    exact ⟨ho, h⟩

/-- A write inside the space keeps every listed offset inside it. -/
theorem write_below {m : Memory} {off size : Nat} {b : Byte} (ho : off < size) (h : m.below size = true) :
    (m.write off b).below size = true := by
  induction m with
  | nil => exact consCell_below ho h
  | cons c rest ih =>
    have h' := h
    simp only [Memory.below, List.all_cons, Bool.and_eq_true, decide_eq_true_eq] at h
    unfold Memory.write
    split
    · exact consCell_below ho h'
    · split
      · exact consCell_below ho h.2
      · simp only [Memory.below, List.all_cons, Bool.and_eq_true, decide_eq_true_eq]
        exact ⟨h.1, ih h.2⟩

/-- Two canonical buffers that read alike are the same list. -/
theorem eq_of_read_eq {m m' : Memory} {lo : Nat} (h : Memory.wfFrom lo m = true) (h' : Memory.wfFrom lo m' = true)
    (hr : ∀ x, m.read x = m'.read x) : m = m' := by
  induction m generalizing m' lo with
  | nil =>
    cases m' with
    | nil => rfl
    | cons c rest =>
      simp only [Memory.wfFrom, Bool.and_eq_true, decide_eq_true_eq] at h'
      have := hr c.1
      rw [Memory.read, Memory.read, if_pos rfl] at this
      exact absurd this.symm h'.1.2
  | cons c rest ih =>
    simp only [Memory.wfFrom, Bool.and_eq_true, decide_eq_true_eq] at h
    cases m' with
    | nil =>
      have := hr c.1
      rw [Memory.read, Memory.read, if_pos rfl] at this
      exact absurd this h.1.2
    | cons d rest' =>
      simp only [Memory.wfFrom, Bool.and_eq_true, decide_eq_true_eq] at h'
      have hcd : c.1 = d.1 := by
        by_contra hne
        rcases Nat.lt_or_gt_of_ne hne with hlt | hlt
        · have := hr c.1
          rw [Memory.read, if_pos rfl, Memory.read, if_neg (by omega), read_of_wfFrom_lt h'.2 (by omega)] at this
          exact h.1.2 this
        · have := hr d.1
          rw [Memory.read, if_neg (by omega), read_of_wfFrom_lt h.2 (by omega), Memory.read, if_pos rfl] at this
          exact h'.1.2 this.symm
      have hb : c.2 = d.2 := by
        have := hr c.1
        rwa [Memory.read, if_pos rfl, Memory.read, if_pos hcd.symm] at this
      have hc : c = d := Prod.ext hcd hb
      subst hc
      congr 1
      refine ih h.2 h'.2 fun x => ?_
      by_cases hx : x = c.1
      · subst hx
        rw [read_of_wfFrom_lt h.2 (by omega), read_of_wfFrom_lt h'.2 (by omega)]
      · have := hr x
        rwa [Memory.read, Memory.read, if_neg (Ne.symm hx), if_neg (Ne.symm hx)] at this

/-! ### The little-endian primitives -/

theorem memWrite_wf {m : Memory} (off n v : Nat) (h : m.wf = true) : (memWrite m off n v).wf = true := by
  induction n generalizing m off v with
  | zero => exact h
  | succ n ih => exact ih _ _ (write_wf _ _ h)

theorem memWrite_below {m : Memory} {off n v size : Nat} (ho : off + n ≤ size) (h : m.below size = true) :
    (memWrite m off n v).below size = true := by
  induction n generalizing m off v with
  | zero => exact h
  | succ n ih => exact ih (by omega) (write_below (by omega) h)

/-- Outside the bytes written every byte reads as before. -/
theorem memWrite_read_outside {m : Memory} {off n v x : Nat} (hx : x < off ∨ off + n ≤ x) :
    (memWrite m off n v).read x = m.read x := by
  induction n generalizing m off v with
  | zero => rfl
  | succ n ih => rw [memWrite, ih (by omega), read_write_ne _ (by omega)]

/-- Byte `b` of the value written is read back at `off + b`. -/
theorem memWrite_read_inside {m : Memory} {off n v b : Nat} (h : m.wf = true) (hb : b < n) :
    (memWrite m off n v).read (off + b) = BitVec.ofNat 8 (v / 256 ^ b) := by
  induction n generalizing m off v b with
  | zero => omega
  | succ n ih =>
    rw [memWrite]
    cases b with
    | zero =>
      rw [memWrite_read_outside (by omega), read_write h, if_pos (by omega)]
      simp
    | succ b =>
      have := ih (m := m.write off (BitVec.ofNat 8 v)) (off := off + 1) (v := v / 256) (write_wf _ _ h)
        (show b < n by omega)
      rw [show off + (b + 1) = off + 1 + b by omega, this, Nat.div_div_eq_div_mul, Nat.pow_succ, Nat.mul_comm]

theorem memRead_congr {m m' : Memory} {off n : Nat} (h : ∀ x, off ≤ x → x < off + n → m'.read x = m.read x) :
    memRead m' off n = memRead m off n := by
  induction n generalizing off with
  | zero => rfl
  | succ n ih =>
    rw [memRead, memRead, h off (by omega) (by omega), ih fun x h1 h2 => h x (by omega) (by omega)]

/-- Byte `b` of a little-endian read is the byte at `off + b` (00_scope.md R13). -/
theorem memRead_byte (m : Memory) (off : Nat) {n b : Nat} (hb : b < n) :
    memRead m off n / 256 ^ b % 256 = (m.read (off + b)).toNat := by
  induction n generalizing off b with
  | zero => omega
  | succ n ih =>
    rw [memRead]
    have hlt := (m.read off).isLt
    cases b with
    | zero => simp; omega
    | succ b =>
      have := ih (off + 1) (b := b) (by omega)
      rw [pow_succ', ← Nat.div_div_eq_div_mul,
        show ((m.read off).toNat + 256 * memRead m (off + 1) n) / 256 = memRead m (off + 1) n by omega, this]
      congr 2
      omega

theorem memRead_lt (m : Memory) (off n : Nat) : memRead m off n < 256 ^ n := by
  induction n generalizing off with
  | zero => simp [memRead]
  | succ n ih =>
    have := ih (off + 1)
    have hb := (m.read off).isLt
    rw [memRead, Nat.pow_succ]
    omega

/-- A read of the bytes a write stored returns the value written. -/
theorem memRead_memWrite {m : Memory} (off n v : Nat) (h : m.wf = true) :
    memRead (memWrite m off n v) off n = v % 256 ^ n := by
  induction n generalizing m off v with
  | zero => simp [memRead, Nat.mod_one]
  | succ n ih =>
    have h0 : (memWrite m off (n + 1) v).read off = BitVec.ofNat 8 v := by
      have := memWrite_read_inside (n := n + 1) (v := v) (off := off) (b := 0) h (by omega)
      simpa using this
    rw [memRead, h0, memWrite, ih (off + 1) (v / 256) (write_wf _ _ h), BitVec.toNat_ofNat,
      show (256 : Nat) ^ (n + 1) = 256 * 256 ^ n by ring, Nat.mod_mul]

/-! ### Free bytes -/

theorem fillFree_wf {m : Memory} (base off n : Nat) (h : m.wf = true) : (m.fillFree base off n).wf = true := by
  induction n generalizing m base off with
  | zero => exact h
  | succ n ih => exact ih _ _ (write_wf _ _ h)

theorem fillFree_below {m : Memory} {base off n size : Nat} (ho : off + n ≤ size) (h : m.below size = true) :
    (m.fillFree base off n).below size = true := by
  induction n generalizing m base off with
  | zero => exact h
  | succ n ih => exact ih (by omega) (write_below (by omega) h)

/-- A fill reads as free values inside its range and as before outside. -/
theorem fillFree_read {m : Memory} {base off n x : Nat} (h : m.wf = true) :
    (m.fillFree base off n).read x =
      if off ≤ x ∧ x < off + n then (Config.freeWord (base + (x - off))).setWidth 8 else m.read x := by
  induction n generalizing m base off with
  | zero => rw [if_neg (by omega)]; rfl
  | succ n ih =>
    rw [Memory.fillFree, ih (write_wf _ _ h)]
    by_cases hx : x = off
    · subst hx
      rw [if_neg (by omega), if_pos (by omega), read_write h, if_pos rfl]
      simp
    · by_cases h1 : off + 1 ≤ x ∧ x < off + 1 + n
      · rw [if_pos h1, if_pos (by omega), show base + 1 + (x - (off + 1)) = base + (x - off) by omega]
      · rw [if_neg h1, if_neg (by omega), read_write h, if_neg hx]

/-- A fill leaves every byte outside its range alone, in any buffer. -/
theorem fillFree_read_outside {m : Memory} {base off n x : Nat} (hx : x < off ∨ off + n ≤ x) :
    (m.fillFree base off n).read x = m.read x := by
  induction n generalizing m base off with
  | zero => rfl
  | succ n ih => rw [Memory.fillFree, ih (by omega), read_write_ne _ (by omega)]

/-- Two canonical buffers that agree outside a range are the same once the range is filled. -/
theorem fillFree_eq_of_outside {m m' : Memory} {base off n : Nat} (h : m.wf = true) (h' : m'.wf = true)
    (hr : ∀ x, x < off ∨ off + n ≤ x → m'.read x = m.read x) : m'.fillFree base off n = m.fillFree base off n := by
  refine eq_of_read_eq (lo := 0) (fillFree_wf _ _ _ h') (fillFree_wf _ _ _ h) fun x => ?_
  rw [fillFree_read h', fillFree_read h]
  split
  · rfl
  · exact hr x (by omega)

end Sys2Proof.Machine
end

