-- ==== Sys2Proof/Laws/State.lean ====
section
/-! SUPPORT. One lemma for each field and each named update of the state, true by computation. -/

namespace Sys2Proof.Machine

@[simp] theorem complete_hw (code : ErrCode) (s : State) : (complete code s).hw = s.hw := rfl
@[simp] theorem complete_prev (code : ErrCode) (s : State) : (complete code s).prev = s.prev := rfl
@[simp] theorem complete_hif (code : ErrCode) (s : State) : (complete code s).hif = s.hif := rfl
@[simp] theorem complete_hifsum (code : ErrCode) (s : State) : (complete code s).hifsum = s.hifsum := rfl
@[simp] theorem complete_lopass (code : ErrCode) (s : State) : (complete code s).lopass = s.lopass := rfl
@[simp] theorem complete_fir (code : ErrCode) (s : State) : (complete code s).fir = s.fir := rfl
@[simp] theorem complete_noise (code : ErrCode) (s : State) : (complete code s).noise = s.noise := rfl
@[simp] theorem complete_noisei (code : ErrCode) (s : State) : (complete code s).noisei = s.noisei := rfl
@[simp] theorem complete_cfgN (code : ErrCode) (s : State) : (complete code s).cfgN = s.cfgN := rfl
@[simp] theorem complete_cfgRate (code : ErrCode) (s : State) : (complete code s).cfgRate = s.cfgRate := rfl
@[simp] theorem complete_inst (code : ErrCode) (s : State) : (complete code s).inst = s.inst := rfl
@[simp] theorem complete_busy (code : ErrCode) (s : State) : (complete code s).busy = false := rfl
@[simp] theorem complete_ovf (code : ErrCode) (s : State) : (complete code s).ovf = s.ovf := rfl
@[simp] theorem complete_lost (code : ErrCode) (s : State) : (complete code s).lost = s.lost := rfl
@[simp] theorem complete_errcode (code : ErrCode) (s : State) : (complete code s).errcode = code := rfl
@[simp] theorem complete_pend (code : ErrCode) (s : State) : (complete code s).pend = s.pend := rfl
@[simp] theorem complete_argRate (code : ErrCode) (s : State) : (complete code s).argRate = s.argRate := rfl
@[simp] theorem complete_argBlocklen (code : ErrCode) (s : State) :
    (complete code s).argBlocklen = s.argBlocklen := rfl
@[simp] theorem complete_argSeed (code : ErrCode) (s : State) : (complete code s).argSeed = s.argSeed := rfl
@[simp] theorem complete_inMem (code : ErrCode) (s : State) : (complete code s).inMem = s.inMem := rfl
@[simp] theorem complete_outMem (code : ErrCode) (s : State) : (complete code s).outMem = s.outMem := rfl
@[simp] theorem complete_seq (code : ErrCode) (s : State) : (complete code s).seq = s.seq := rfl
@[simp] theorem complete_inputs (code : ErrCode) (s : State) : (complete code s).inputs = s.inputs := rfl
@[simp] theorem complete_rdata (code : ErrCode) (s : State) : (complete code s).rdata = s.rdata := rfl
@[simp] theorem complete_decoded (code : ErrCode) (s : State) : (complete code s).decoded = s.decoded := rfl
@[simp] theorem complete_draws (code : ErrCode) (s : State) : (complete code s).draws = s.draws := rfl
@[simp] theorem complete_len (code : ErrCode) (s : State) : (complete code s).len = s.len := rfl
@[simp] theorem complete_groups (code : ErrCode) (s : State) : (complete code s).groups = s.groups := rfl

@[simp] theorem overflowFault_hw (s : State) : (overflowFault s).hw = s.hw := rfl
@[simp] theorem overflowFault_prev (s : State) : (overflowFault s).prev = Config.freeWord s.draws := rfl
@[simp] theorem overflowFault_hif (s : State) :
    (overflowFault s).hif = freeWords (s.draws + 3) s.len ++ s.hif.drop s.len := rfl
@[simp] theorem overflowFault_hifsum (s : State) : (overflowFault s).hifsum = Config.freeWord (s.draws + 1) := rfl
@[simp] theorem overflowFault_lopass (s : State) :
    (overflowFault s).lopass = freeWords (s.draws + 3 + s.len) s.groups ++ s.lopass.drop s.groups := rfl
@[simp] theorem overflowFault_fir (s : State) : (overflowFault s).fir = s.fir := rfl
@[simp] theorem overflowFault_noise (s : State) : (overflowFault s).noise = s.noise := rfl
@[simp] theorem overflowFault_noisei (s : State) : (overflowFault s).noisei = freeCursor s.hw (s.draws + 2) := rfl
@[simp] theorem overflowFault_cfgN (s : State) : (overflowFault s).cfgN = s.cfgN := rfl
@[simp] theorem overflowFault_cfgRate (s : State) : (overflowFault s).cfgRate = s.cfgRate := rfl
@[simp] theorem overflowFault_inst (s : State) : (overflowFault s).inst = .fault := rfl
@[simp] theorem overflowFault_busy (s : State) : (overflowFault s).busy = false := rfl
@[simp] theorem overflowFault_ovf (s : State) : (overflowFault s).ovf = true := rfl
@[simp] theorem overflowFault_lost (s : State) : (overflowFault s).lost = s.lost := rfl
@[simp] theorem overflowFault_errcode (s : State) : (overflowFault s).errcode = .overflow := rfl
@[simp] theorem overflowFault_pend (s : State) : (overflowFault s).pend = s.pend := rfl
@[simp] theorem overflowFault_argRate (s : State) : (overflowFault s).argRate = s.argRate := rfl
@[simp] theorem overflowFault_argBlocklen (s : State) : (overflowFault s).argBlocklen = s.argBlocklen := rfl
@[simp] theorem overflowFault_argSeed (s : State) : (overflowFault s).argSeed = s.argSeed := rfl
@[simp] theorem overflowFault_inMem (s : State) : (overflowFault s).inMem = s.inMem := rfl
@[simp] theorem overflowFault_outMem (s : State) :
    (overflowFault s).outMem = s.outMem.fillFree (s.draws + 3 + s.len + s.groups) 0 (3 * s.len) := rfl
@[simp] theorem overflowFault_seq (s : State) : (overflowFault s).seq = [] := rfl
@[simp] theorem overflowFault_inputs (s : State) : (overflowFault s).inputs = s.inputs := rfl
@[simp] theorem overflowFault_rdata (s : State) : (overflowFault s).rdata = s.rdata := rfl
@[simp] theorem overflowFault_decoded (s : State) : (overflowFault s).decoded = s.decoded := rfl
@[simp] theorem overflowFault_draws (s : State) :
    (overflowFault s).draws = s.draws + 3 + s.len + s.groups + 3 * s.len := rfl
@[simp] theorem overflowFault_len (s : State) : (overflowFault s).len = s.len := rfl
@[simp] theorem overflowFault_groups (s : State) : (overflowFault s).groups = s.groups := rfl

@[simp] theorem discardInstance_hw (s : State) : (discardInstance s).hw = s.hw := rfl
@[simp] theorem discardInstance_prev (s : State) : (discardInstance s).prev = Config.freeWord s.draws := rfl
@[simp] theorem discardInstance_hif (s : State) : (discardInstance s).hif = freeWords (s.draws + 3) s.hw.nMax := rfl
@[simp] theorem discardInstance_hifsum (s : State) : (discardInstance s).hifsum = Config.freeWord (s.draws + 1) := rfl
@[simp] theorem discardInstance_lopass (s : State) :
    (discardInstance s).lopass = freeWords (s.draws + 3 + s.hw.nMax) s.hw.nMax := rfl
@[simp] theorem discardInstance_fir (s : State) : (discardInstance s).fir = s.fir := rfl
@[simp] theorem discardInstance_noise (s : State) : (discardInstance s).noise = s.noise := rfl
@[simp] theorem discardInstance_noisei (s : State) : (discardInstance s).noisei = freeCursor s.hw (s.draws + 2) := rfl
@[simp] theorem discardInstance_cfgN (s : State) : (discardInstance s).cfgN = s.cfgN := rfl
@[simp] theorem discardInstance_cfgRate (s : State) : (discardInstance s).cfgRate = s.cfgRate := rfl
@[simp] theorem discardInstance_inst (s : State) : (discardInstance s).inst = s.inst := rfl
@[simp] theorem discardInstance_busy (s : State) : (discardInstance s).busy = s.busy := rfl
@[simp] theorem discardInstance_ovf (s : State) : (discardInstance s).ovf = s.ovf := rfl
@[simp] theorem discardInstance_lost (s : State) : (discardInstance s).lost = s.lost := rfl
@[simp] theorem discardInstance_errcode (s : State) : (discardInstance s).errcode = s.errcode := rfl
@[simp] theorem discardInstance_pend (s : State) : (discardInstance s).pend = s.pend := rfl
@[simp] theorem discardInstance_argRate (s : State) : (discardInstance s).argRate = s.argRate := rfl
@[simp] theorem discardInstance_argBlocklen (s : State) : (discardInstance s).argBlocklen = s.argBlocklen := rfl
@[simp] theorem discardInstance_argSeed (s : State) : (discardInstance s).argSeed = s.argSeed := rfl
@[simp] theorem discardInstance_inMem (s : State) : (discardInstance s).inMem = s.inMem := rfl
@[simp] theorem discardInstance_outMem (s : State) : (discardInstance s).outMem = s.outMem := rfl
@[simp] theorem discardInstance_seq (s : State) : (discardInstance s).seq = s.seq := rfl
@[simp] theorem discardInstance_inputs (s : State) : (discardInstance s).inputs = s.inputs := rfl
@[simp] theorem discardInstance_rdata (s : State) : (discardInstance s).rdata = s.rdata := rfl
@[simp] theorem discardInstance_decoded (s : State) : (discardInstance s).decoded = s.decoded := rfl
@[simp] theorem discardInstance_draws (s : State) : (discardInstance s).draws = s.draws + 3 + 2 * s.hw.nMax := rfl
@[simp] theorem discardInstance_len (s : State) : (discardInstance s).len = s.len := rfl
@[simp] theorem discardInstance_groups (s : State) : (discardInstance s).groups = s.groups := rfl

@[simp] theorem discardTables_hw (s : State) : (discardTables s).hw = s.hw := rfl
@[simp] theorem discardTables_prev (s : State) : (discardTables s).prev = s.prev := rfl
@[simp] theorem discardTables_hif (s : State) : (discardTables s).hif = s.hif := rfl
@[simp] theorem discardTables_hifsum (s : State) : (discardTables s).hifsum = s.hifsum := rfl
@[simp] theorem discardTables_lopass (s : State) : (discardTables s).lopass = s.lopass := rfl
@[simp] theorem discardTables_fir (s : State) : (discardTables s).fir = freeWords s.draws s.hw.nMax := rfl
@[simp] theorem discardTables_noise (s : State) :
    (discardTables s).noise = freeWords (s.draws + s.hw.nMax) s.hw.nl := rfl
@[simp] theorem discardTables_noisei (s : State) : (discardTables s).noisei = s.noisei := rfl
@[simp] theorem discardTables_cfgN (s : State) : (discardTables s).cfgN = s.cfgN := rfl
@[simp] theorem discardTables_cfgRate (s : State) : (discardTables s).cfgRate = s.cfgRate := rfl
@[simp] theorem discardTables_inst (s : State) : (discardTables s).inst = s.inst := rfl
@[simp] theorem discardTables_busy (s : State) : (discardTables s).busy = s.busy := rfl
@[simp] theorem discardTables_ovf (s : State) : (discardTables s).ovf = s.ovf := rfl
@[simp] theorem discardTables_lost (s : State) : (discardTables s).lost = s.lost := rfl
@[simp] theorem discardTables_errcode (s : State) : (discardTables s).errcode = s.errcode := rfl
@[simp] theorem discardTables_pend (s : State) : (discardTables s).pend = s.pend := rfl
@[simp] theorem discardTables_argRate (s : State) : (discardTables s).argRate = s.argRate := rfl
@[simp] theorem discardTables_argBlocklen (s : State) : (discardTables s).argBlocklen = s.argBlocklen := rfl
@[simp] theorem discardTables_argSeed (s : State) : (discardTables s).argSeed = s.argSeed := rfl
@[simp] theorem discardTables_inMem (s : State) : (discardTables s).inMem = s.inMem := rfl
@[simp] theorem discardTables_outMem (s : State) : (discardTables s).outMem = s.outMem := rfl
@[simp] theorem discardTables_seq (s : State) : (discardTables s).seq = s.seq := rfl
@[simp] theorem discardTables_inputs (s : State) : (discardTables s).inputs = s.inputs := rfl
@[simp] theorem discardTables_rdata (s : State) : (discardTables s).rdata = s.rdata := rfl
@[simp] theorem discardTables_decoded (s : State) : (discardTables s).decoded = s.decoded := rfl
@[simp] theorem discardTables_draws (s : State) : (discardTables s).draws = s.draws + s.hw.nMax + s.hw.nl := rfl
@[simp] theorem discardTables_len (s : State) : (discardTables s).len = s.len := rfl
@[simp] theorem discardTables_groups (s : State) : (discardTables s).groups = s.groups := rfl

@[simp] theorem openClear_hw (s : State) : (openClear s).hw = s.hw := rfl
@[simp] theorem openClear_prev (s : State) : (openClear s).prev = 0 := rfl
@[simp] theorem openClear_hif (s : State) :
    (openClear s).hif = List.replicate s.pend.blockLen.toNat 0 ++ freeWords s.draws (s.hw.nMax - s.pend.blockLen.toNat) := rfl
@[simp] theorem openClear_hifsum (s : State) : (openClear s).hifsum = 0 := rfl
@[simp] theorem openClear_lopass (s : State) :
    (openClear s).lopass = List.replicate (s.pend.blockLen.toNat / s.hw.f) 0
      ++ freeWords (s.draws + s.hw.nMax) (s.hw.nMax - s.pend.blockLen.toNat / s.hw.f) := rfl
@[simp] theorem openClear_fir (s : State) : (openClear s).fir = s.fir := rfl
@[simp] theorem openClear_noise (s : State) : (openClear s).noise = s.noise := rfl
@[simp] theorem openClear_noisei (s : State) : (openClear s).noisei = 0 := rfl
@[simp] theorem openClear_cfgN (s : State) : (openClear s).cfgN = s.pend.blockLen := rfl
@[simp] theorem openClear_cfgRate (s : State) : (openClear s).cfgRate = s.pend.rate := rfl
@[simp] theorem openClear_inst (s : State) : (openClear s).inst = s.inst := rfl
@[simp] theorem openClear_busy (s : State) : (openClear s).busy = s.busy := rfl
@[simp] theorem openClear_ovf (s : State) : (openClear s).ovf = s.ovf := rfl
@[simp] theorem openClear_lost (s : State) : (openClear s).lost = s.lost := rfl
@[simp] theorem openClear_errcode (s : State) : (openClear s).errcode = s.errcode := rfl
@[simp] theorem openClear_pend (s : State) : (openClear s).pend = s.pend := rfl
@[simp] theorem openClear_argRate (s : State) : (openClear s).argRate = s.argRate := rfl
@[simp] theorem openClear_argBlocklen (s : State) : (openClear s).argBlocklen = s.argBlocklen := rfl
@[simp] theorem openClear_argSeed (s : State) : (openClear s).argSeed = s.argSeed := rfl
@[simp] theorem openClear_inMem (s : State) : (openClear s).inMem = s.inMem := rfl
@[simp] theorem openClear_outMem (s : State) : (openClear s).outMem = s.outMem := rfl
@[simp] theorem openClear_seq (s : State) : (openClear s).seq = s.seq := rfl
@[simp] theorem openClear_inputs (s : State) : (openClear s).inputs = s.inputs := rfl
@[simp] theorem openClear_rdata (s : State) : (openClear s).rdata = s.rdata := rfl
@[simp] theorem openClear_decoded (s : State) : (openClear s).decoded = s.decoded := rfl
@[simp] theorem openClear_draws (s : State) : (openClear s).draws = s.draws + 2 * s.hw.nMax := rfl

@[simp] theorem openReady_hw (s : State) : (openReady s).hw = s.hw := rfl
@[simp] theorem openReady_prev (s : State) : (openReady s).prev = s.prev := rfl
@[simp] theorem openReady_hif (s : State) : (openReady s).hif = s.hif := rfl
@[simp] theorem openReady_hifsum (s : State) : (openReady s).hifsum = s.hifsum := rfl
@[simp] theorem openReady_lopass (s : State) : (openReady s).lopass = s.lopass := rfl
@[simp] theorem openReady_fir (s : State) : (openReady s).fir = s.fir := rfl
@[simp] theorem openReady_noise (s : State) : (openReady s).noise = s.noise := rfl
@[simp] theorem openReady_noisei (s : State) : (openReady s).noisei = s.noisei := rfl
@[simp] theorem openReady_cfgN (s : State) : (openReady s).cfgN = s.cfgN := rfl
@[simp] theorem openReady_cfgRate (s : State) : (openReady s).cfgRate = s.cfgRate := rfl
@[simp] theorem openReady_inst (s : State) : (openReady s).inst = .ready := rfl
@[simp] theorem openReady_busy (s : State) : (openReady s).busy = false := rfl
@[simp] theorem openReady_ovf (s : State) : (openReady s).ovf = false := rfl
@[simp] theorem openReady_lost (s : State) : (openReady s).lost = false := rfl
@[simp] theorem openReady_errcode (s : State) : (openReady s).errcode = .none := rfl
@[simp] theorem openReady_pend (s : State) : (openReady s).pend = s.pend := rfl
@[simp] theorem openReady_argRate (s : State) : (openReady s).argRate = s.argRate := rfl
@[simp] theorem openReady_argBlocklen (s : State) : (openReady s).argBlocklen = s.argBlocklen := rfl
@[simp] theorem openReady_argSeed (s : State) : (openReady s).argSeed = s.argSeed := rfl
@[simp] theorem openReady_inMem (s : State) : (openReady s).inMem = s.inMem := rfl
@[simp] theorem openReady_outMem (s : State) : (openReady s).outMem = s.outMem := rfl
@[simp] theorem openReady_seq (s : State) : (openReady s).seq = s.seq := rfl
@[simp] theorem openReady_inputs (s : State) : (openReady s).inputs = s.inputs := rfl
@[simp] theorem openReady_rdata (s : State) : (openReady s).rdata = s.rdata := rfl
@[simp] theorem openReady_decoded (s : State) : (openReady s).decoded = s.decoded := rfl
@[simp] theorem openReady_draws (s : State) : (openReady s).draws = s.draws := rfl
@[simp] theorem openReady_len (s : State) : (openReady s).len = s.len := rfl
@[simp] theorem openReady_groups (s : State) : (openReady s).groups = s.groups := rfl

@[simp] theorem firGen_hw (s : State) : (firGen s).hw = s.hw := rfl
@[simp] theorem firGen_prev (s : State) : (firGen s).prev = s.prev := rfl
@[simp] theorem firGen_hif (s : State) : (firGen s).hif = s.hif := rfl
@[simp] theorem firGen_hifsum (s : State) : (firGen s).hifsum = s.hifsum := rfl
@[simp] theorem firGen_lopass (s : State) : (firGen s).lopass = s.lopass := rfl
@[simp] theorem firGen_fir (s : State) :
    (firGen s).fir = firKernel s.hw s.len ++ freeWords s.draws (s.hw.nMax - s.len) := rfl
@[simp] theorem firGen_noise (s : State) : (firGen s).noise = s.noise := rfl
@[simp] theorem firGen_noisei (s : State) : (firGen s).noisei = s.noisei := rfl
@[simp] theorem firGen_cfgN (s : State) : (firGen s).cfgN = s.cfgN := rfl
@[simp] theorem firGen_cfgRate (s : State) : (firGen s).cfgRate = s.cfgRate := rfl
@[simp] theorem firGen_inst (s : State) : (firGen s).inst = s.inst := rfl
@[simp] theorem firGen_busy (s : State) : (firGen s).busy = s.busy := rfl
@[simp] theorem firGen_ovf (s : State) : (firGen s).ovf = s.ovf := rfl
@[simp] theorem firGen_lost (s : State) : (firGen s).lost = s.lost := rfl
@[simp] theorem firGen_errcode (s : State) : (firGen s).errcode = s.errcode := rfl
@[simp] theorem firGen_pend (s : State) : (firGen s).pend = s.pend := rfl
@[simp] theorem firGen_argRate (s : State) : (firGen s).argRate = s.argRate := rfl
@[simp] theorem firGen_argBlocklen (s : State) : (firGen s).argBlocklen = s.argBlocklen := rfl
@[simp] theorem firGen_argSeed (s : State) : (firGen s).argSeed = s.argSeed := rfl
@[simp] theorem firGen_inMem (s : State) : (firGen s).inMem = s.inMem := rfl
@[simp] theorem firGen_outMem (s : State) : (firGen s).outMem = s.outMem := rfl
@[simp] theorem firGen_seq (s : State) : (firGen s).seq = s.seq := rfl
@[simp] theorem firGen_inputs (s : State) : (firGen s).inputs = s.inputs := rfl
@[simp] theorem firGen_rdata (s : State) : (firGen s).rdata = s.rdata := rfl
@[simp] theorem firGen_decoded (s : State) : (firGen s).decoded = s.decoded := rfl
@[simp] theorem firGen_draws (s : State) : (firGen s).draws = s.draws + (s.hw.nMax - s.len) := rfl
@[simp] theorem firGen_len (s : State) : (firGen s).len = s.len := rfl
@[simp] theorem firGen_groups (s : State) : (firGen s).groups = s.groups := rfl

@[simp] theorem lpStore_hw (g : Nat) (s : State) : (lpStore g s).hw = s.hw := rfl
@[simp] theorem lpStore_prev (g : Nat) (s : State) : (lpStore g s).prev = s.prev := rfl
@[simp] theorem lpStore_hif (g : Nat) (s : State) : (lpStore g s).hif = s.hif := rfl
@[simp] theorem lpStore_hifsum (g : Nat) (s : State) : (lpStore g s).hifsum = s.hifsum := rfl
@[simp] theorem lpStore_lopass (g : Nat) (s : State) : (lpStore g s).lopass = s.lopass.set g s.prev := rfl
@[simp] theorem lpStore_fir (g : Nat) (s : State) : (lpStore g s).fir = s.fir := rfl
@[simp] theorem lpStore_noise (g : Nat) (s : State) : (lpStore g s).noise = s.noise := rfl
@[simp] theorem lpStore_noisei (g : Nat) (s : State) : (lpStore g s).noisei = s.noisei := rfl
@[simp] theorem lpStore_cfgN (g : Nat) (s : State) : (lpStore g s).cfgN = s.cfgN := rfl
@[simp] theorem lpStore_cfgRate (g : Nat) (s : State) : (lpStore g s).cfgRate = s.cfgRate := rfl
@[simp] theorem lpStore_inst (g : Nat) (s : State) : (lpStore g s).inst = s.inst := rfl
@[simp] theorem lpStore_busy (g : Nat) (s : State) : (lpStore g s).busy = s.busy := rfl
@[simp] theorem lpStore_ovf (g : Nat) (s : State) : (lpStore g s).ovf = s.ovf := rfl
@[simp] theorem lpStore_lost (g : Nat) (s : State) : (lpStore g s).lost = s.lost := rfl
@[simp] theorem lpStore_errcode (g : Nat) (s : State) : (lpStore g s).errcode = s.errcode := rfl
@[simp] theorem lpStore_pend (g : Nat) (s : State) : (lpStore g s).pend = s.pend := rfl
@[simp] theorem lpStore_argRate (g : Nat) (s : State) : (lpStore g s).argRate = s.argRate := rfl
@[simp] theorem lpStore_argBlocklen (g : Nat) (s : State) : (lpStore g s).argBlocklen = s.argBlocklen := rfl
@[simp] theorem lpStore_argSeed (g : Nat) (s : State) : (lpStore g s).argSeed = s.argSeed := rfl
@[simp] theorem lpStore_inMem (g : Nat) (s : State) : (lpStore g s).inMem = s.inMem := rfl
@[simp] theorem lpStore_outMem (g : Nat) (s : State) : (lpStore g s).outMem = s.outMem := rfl
@[simp] theorem lpStore_seq (g : Nat) (s : State) : (lpStore g s).seq = s.seq := rfl
@[simp] theorem lpStore_inputs (g : Nat) (s : State) : (lpStore g s).inputs = s.inputs := rfl
@[simp] theorem lpStore_rdata (g : Nat) (s : State) : (lpStore g s).rdata = s.rdata := rfl
@[simp] theorem lpStore_decoded (g : Nat) (s : State) : (lpStore g s).decoded = s.decoded := rfl
@[simp] theorem lpStore_draws (g : Nat) (s : State) : (lpStore g s).draws = s.draws := rfl
@[simp] theorem lpStore_len (g : Nat) (s : State) : (lpStore g s).len = s.len := rfl
@[simp] theorem lpStore_groups (g : Nat) (s : State) : (lpStore g s).groups = s.groups := rfl

@[simp] theorem encodeSample_hw (j : Nat) (y : Word64) (s : State) : (encodeSample j y s).hw = s.hw := rfl
@[simp] theorem encodeSample_prev (j : Nat) (y : Word64) (s : State) : (encodeSample j y s).prev = s.prev := rfl
@[simp] theorem encodeSample_hif (j : Nat) (y : Word64) (s : State) : (encodeSample j y s).hif = s.hif := rfl
@[simp] theorem encodeSample_hifsum (j : Nat) (y : Word64) (s : State) : (encodeSample j y s).hifsum = s.hifsum := rfl
@[simp] theorem encodeSample_lopass (j : Nat) (y : Word64) (s : State) : (encodeSample j y s).lopass = s.lopass := rfl
@[simp] theorem encodeSample_fir (j : Nat) (y : Word64) (s : State) : (encodeSample j y s).fir = s.fir := rfl
@[simp] theorem encodeSample_noise (j : Nat) (y : Word64) (s : State) : (encodeSample j y s).noise = s.noise := rfl
@[simp] theorem encodeSample_noisei (j : Nat) (y : Word64) (s : State) : (encodeSample j y s).noisei = s.noisei := rfl
@[simp] theorem encodeSample_cfgN (j : Nat) (y : Word64) (s : State) : (encodeSample j y s).cfgN = s.cfgN := rfl
@[simp] theorem encodeSample_cfgRate (j : Nat) (y : Word64) (s : State) :
    (encodeSample j y s).cfgRate = s.cfgRate := rfl
@[simp] theorem encodeSample_inst (j : Nat) (y : Word64) (s : State) : (encodeSample j y s).inst = s.inst := rfl
@[simp] theorem encodeSample_busy (j : Nat) (y : Word64) (s : State) : (encodeSample j y s).busy = s.busy := rfl
@[simp] theorem encodeSample_ovf (j : Nat) (y : Word64) (s : State) : (encodeSample j y s).ovf = s.ovf := rfl
@[simp] theorem encodeSample_lost (j : Nat) (y : Word64) (s : State) : (encodeSample j y s).lost = s.lost := rfl
@[simp] theorem encodeSample_errcode (j : Nat) (y : Word64) (s : State) :
    (encodeSample j y s).errcode = s.errcode := rfl
@[simp] theorem encodeSample_pend (j : Nat) (y : Word64) (s : State) : (encodeSample j y s).pend = s.pend := rfl
@[simp] theorem encodeSample_argRate (j : Nat) (y : Word64) (s : State) :
    (encodeSample j y s).argRate = s.argRate := rfl
@[simp] theorem encodeSample_argBlocklen (j : Nat) (y : Word64) (s : State) :
    (encodeSample j y s).argBlocklen = s.argBlocklen := rfl
@[simp] theorem encodeSample_argSeed (j : Nat) (y : Word64) (s : State) :
    (encodeSample j y s).argSeed = s.argSeed := rfl
@[simp] theorem encodeSample_inMem (j : Nat) (y : Word64) (s : State) : (encodeSample j y s).inMem = s.inMem := rfl
@[simp] theorem encodeSample_outMem (j : Nat) (y : Word64) (s : State) :
    (encodeSample j y s).outMem = memWrite s.outMem (3 * j) 3 (trunc24 y) := rfl
@[simp] theorem encodeSample_seq (j : Nat) (y : Word64) (s : State) : (encodeSample j y s).seq = s.seq := rfl
@[simp] theorem encodeSample_inputs (j : Nat) (y : Word64) (s : State) : (encodeSample j y s).inputs = s.inputs := rfl
@[simp] theorem encodeSample_rdata (j : Nat) (y : Word64) (s : State) : (encodeSample j y s).rdata = s.rdata := rfl
@[simp] theorem encodeSample_decoded (j : Nat) (y : Word64) (s : State) :
    (encodeSample j y s).decoded = s.decoded := rfl
@[simp] theorem encodeSample_draws (j : Nat) (y : Word64) (s : State) : (encodeSample j y s).draws = s.draws := rfl
@[simp] theorem encodeSample_len (j : Nat) (y : Word64) (s : State) : (encodeSample j y s).len = s.len := rfl
@[simp] theorem encodeSample_groups (j : Nat) (y : Word64) (s : State) : (encodeSample j y s).groups = s.groups := rfl

@[simp] theorem cursorAdvance_hw (s : State) : (cursorAdvance s).hw = s.hw := rfl
@[simp] theorem cursorAdvance_prev (s : State) : (cursorAdvance s).prev = s.prev := rfl
@[simp] theorem cursorAdvance_hif (s : State) : (cursorAdvance s).hif = s.hif := rfl
@[simp] theorem cursorAdvance_hifsum (s : State) : (cursorAdvance s).hifsum = s.hifsum := rfl
@[simp] theorem cursorAdvance_lopass (s : State) : (cursorAdvance s).lopass = s.lopass := rfl
@[simp] theorem cursorAdvance_fir (s : State) : (cursorAdvance s).fir = s.fir := rfl
@[simp] theorem cursorAdvance_noise (s : State) : (cursorAdvance s).noise = s.noise := rfl
@[simp] theorem cursorAdvance_noisei (s : State) :
    (cursorAdvance s).noisei = (s.noisei + s.len) &&& (s.hw.nl - 1) := rfl
@[simp] theorem cursorAdvance_cfgN (s : State) : (cursorAdvance s).cfgN = s.cfgN := rfl
@[simp] theorem cursorAdvance_cfgRate (s : State) : (cursorAdvance s).cfgRate = s.cfgRate := rfl
@[simp] theorem cursorAdvance_inst (s : State) : (cursorAdvance s).inst = s.inst := rfl
@[simp] theorem cursorAdvance_busy (s : State) : (cursorAdvance s).busy = s.busy := rfl
@[simp] theorem cursorAdvance_ovf (s : State) : (cursorAdvance s).ovf = s.ovf := rfl
@[simp] theorem cursorAdvance_lost (s : State) : (cursorAdvance s).lost = s.lost := rfl
@[simp] theorem cursorAdvance_errcode (s : State) : (cursorAdvance s).errcode = s.errcode := rfl
@[simp] theorem cursorAdvance_pend (s : State) : (cursorAdvance s).pend = s.pend := rfl
@[simp] theorem cursorAdvance_argRate (s : State) : (cursorAdvance s).argRate = s.argRate := rfl
@[simp] theorem cursorAdvance_argBlocklen (s : State) : (cursorAdvance s).argBlocklen = s.argBlocklen := rfl
@[simp] theorem cursorAdvance_argSeed (s : State) : (cursorAdvance s).argSeed = s.argSeed := rfl
@[simp] theorem cursorAdvance_inMem (s : State) : (cursorAdvance s).inMem = s.inMem := rfl
@[simp] theorem cursorAdvance_outMem (s : State) : (cursorAdvance s).outMem = s.outMem := rfl
@[simp] theorem cursorAdvance_seq (s : State) : (cursorAdvance s).seq = s.seq := rfl
@[simp] theorem cursorAdvance_inputs (s : State) : (cursorAdvance s).inputs = s.inputs := rfl
@[simp] theorem cursorAdvance_rdata (s : State) : (cursorAdvance s).rdata = s.rdata := rfl
@[simp] theorem cursorAdvance_decoded (s : State) : (cursorAdvance s).decoded = s.decoded := rfl
@[simp] theorem cursorAdvance_draws (s : State) : (cursorAdvance s).draws = s.draws := rfl
@[simp] theorem cursorAdvance_len (s : State) : (cursorAdvance s).len = s.len := rfl
@[simp] theorem cursorAdvance_groups (s : State) : (cursorAdvance s).groups = s.groups := rfl

@[simp] theorem readAny_hw (n : Nat) (s : State) : (readAny n s).hw = s.hw := rfl
@[simp] theorem readAny_prev (n : Nat) (s : State) : (readAny n s).prev = s.prev := rfl
@[simp] theorem readAny_hif (n : Nat) (s : State) : (readAny n s).hif = s.hif := rfl
@[simp] theorem readAny_hifsum (n : Nat) (s : State) : (readAny n s).hifsum = s.hifsum := rfl
@[simp] theorem readAny_lopass (n : Nat) (s : State) : (readAny n s).lopass = s.lopass := rfl
@[simp] theorem readAny_fir (n : Nat) (s : State) : (readAny n s).fir = s.fir := rfl
@[simp] theorem readAny_noise (n : Nat) (s : State) : (readAny n s).noise = s.noise := rfl
@[simp] theorem readAny_noisei (n : Nat) (s : State) : (readAny n s).noisei = s.noisei := rfl
@[simp] theorem readAny_cfgN (n : Nat) (s : State) : (readAny n s).cfgN = s.cfgN := rfl
@[simp] theorem readAny_cfgRate (n : Nat) (s : State) : (readAny n s).cfgRate = s.cfgRate := rfl
@[simp] theorem readAny_inst (n : Nat) (s : State) : (readAny n s).inst = s.inst := rfl
@[simp] theorem readAny_busy (n : Nat) (s : State) : (readAny n s).busy = s.busy := rfl
@[simp] theorem readAny_ovf (n : Nat) (s : State) : (readAny n s).ovf = s.ovf := rfl
@[simp] theorem readAny_lost (n : Nat) (s : State) : (readAny n s).lost = s.lost := rfl
@[simp] theorem readAny_errcode (n : Nat) (s : State) : (readAny n s).errcode = s.errcode := rfl
@[simp] theorem readAny_pend (n : Nat) (s : State) : (readAny n s).pend = s.pend := rfl
@[simp] theorem readAny_argRate (n : Nat) (s : State) : (readAny n s).argRate = s.argRate := rfl
@[simp] theorem readAny_argBlocklen (n : Nat) (s : State) : (readAny n s).argBlocklen = s.argBlocklen := rfl
@[simp] theorem readAny_argSeed (n : Nat) (s : State) : (readAny n s).argSeed = s.argSeed := rfl
@[simp] theorem readAny_inMem (n : Nat) (s : State) : (readAny n s).inMem = s.inMem := rfl
@[simp] theorem readAny_outMem (n : Nat) (s : State) : (readAny n s).outMem = s.outMem := rfl
@[simp] theorem readAny_seq (n : Nat) (s : State) : (readAny n s).seq = s.seq := rfl
@[simp] theorem readAny_inputs (n : Nat) (s : State) : (readAny n s).inputs = s.inputs := rfl
@[simp] theorem readAny_rdata (n : Nat) (s : State) :
    (readAny n s).rdata = BitVec.ofNat 32 ((Config.freeWord s.draws).toNat % 2 ^ (8 * n)) := rfl
@[simp] theorem readAny_decoded (n : Nat) (s : State) : (readAny n s).decoded = s.decoded := rfl
@[simp] theorem readAny_draws (n : Nat) (s : State) : (readAny n s).draws = s.draws + 1 := rfl
@[simp] theorem readAny_len (n : Nat) (s : State) : (readAny n s).len = s.len := rfl
@[simp] theorem readAny_groups (n : Nat) (s : State) : (readAny n s).groups = s.groups := rfl

@[simp] theorem openClear_len (s : State) : (openClear s).len = s.pend.blockLen.toNat := rfl

end Sys2Proof.Machine
end

