-- ==== Sys2Proof/Laws/Ops.lean ====
section
/-! SUPPORT. The shared operations: powers of two and masks, array entries, the loop, free values, the sample codec, the
draws. -/

namespace Sys2Proof.Machine

/-! ### Powers of two -/

/-- The test of R103 holds exactly of the powers of two. -/
theorem isPow2_iff (n : Nat) : isPow2 n = true ↔ ∃ k, n = 2 ^ k := by
  unfold isPow2
  simp only [Bool.and_eq_true, decide_eq_true_eq]
  constructor
  · rintro ⟨h0, h⟩
    have := (Nat.and_sub_one_eq_zero_iff_isPowerOfTwo h0).1 h
    exact this
  · rintro ⟨k, rfl⟩
    refine ⟨by positivity, ?_⟩
    rw [Nat.and_two_pow_sub_one_eq_mod]
    exact Nat.mod_self _

theorem isPow2_two_pow (k : Nat) : isPow2 (2 ^ k) = true := (isPow2_iff _).2 ⟨k, rfl⟩

theorem hifShift_two_pow (k : Nat) : hifShift (2 ^ k) = k + 1 := by
  unfold hifShift
  rw [if_pos (isPow2_two_pow k), Nat.log2_two_pow]

theorem mask_nl (hw : Params) (x : Nat) : x &&& (hw.nl - 1) = x % hw.nl := Nat.and_two_pow_sub_one_eq_mod _ _

theorem nl_pos (hw : Params) : 0 < hw.nl := Nat.two_pow_pos _

theorem f_pos (hw : Params) : 0 < hw.f := Nat.two_pow_pos _

theorem nMax_pos (hw : Params) : 0 < hw.nMax := Nat.two_pow_pos _

theorem freeCursor_lt (hw : Params) (b : Nat) : freeCursor hw b < hw.nl := Nat.mod_lt _ (nl_pos hw)

theorem ringIndex_eq_mod {l m g k : Nat} (h : l = 2 ^ m) : ringIndex l g k = (g + l - k) % l := by
  subst h; exact Nat.and_two_pow_sub_one_eq_mod _ _

theorem legal_le {hw : Params} (h : hw.legal = true) : hw.fBits ≤ hw.nMaxBits ∧ hw.nMaxBits ≤ hw.nlBits ∧ hw.nlBits ≤ 31 := by
  unfold Params.legal at h
  simp only [Bool.and_eq_true, decide_eq_true_eq] at h
  exact ⟨h.1.1, h.1.2, h.2⟩

theorem legal_nMax_le {hw : Params} (h : hw.legal = true) : hw.nMax ≤ 2 ^ 31 :=
  Nat.pow_le_pow_right (by omega) (by have := legal_le h; omega)

/-! ### Arrays -/

theorem readAt_of_lt {arr : List Word64} {i : Nat} (h : i < arr.length) : readAt arr i = arr[i] := by
  unfold readAt; simp [h]

theorem readAt_set_self {arr : List Word64} {i : Nat} (x : Word64) (h : i < arr.length) :
    readAt (arr.set i x) i = x := by
  unfold readAt; simp [h]

theorem readAt_set_ne {arr : List Word64} {i k : Nat} (x : Word64) (h : i ≠ k) :
    readAt (arr.set i x) k = readAt arr k := by
  unfold readAt; simp [List.getElem?_set_ne h]

theorem readAt_mem_take {arr : List Word64} {i n : Nat} (hi : i < n) (h : i < arr.length) :
    readAt arr i ∈ arr.take n := by
  rw [readAt_of_lt h]
  exact List.mem_take_iff_getElem.2 ⟨i, by omega, rfl⟩

@[simp] theorem freeWords_length (b n : Nat) : (freeWords b n).length = n := by simp [freeWords]

/-! ### The loop -/

@[simp] theorem forUp_zero {σ : Type} (body : Nat → σ → Except Overflow σ) (i : Nat) (x : σ) :
    forUp body i 0 x = .ok x := rfl

theorem forUp_succ {σ : Type} (body : Nat → σ → Except Overflow σ) (i n : Nat) (x : σ) :
    forUp body i (n + 1) x = (body i x).bind (forUp body (i + 1) n) := by
  rw [forUp]; cases body i x <;> rfl

/-- A property that every iteration carries on holds at the end of a loop that ends. -/
theorem forUp_ok {σ : Type} {body : Nat → σ → Except Overflow σ} (P : Nat → σ → Prop) {i n : Nat} {x y : σ}
    (step : ∀ k u v, i ≤ k → k < i + n → P k u → body k u = .ok v → P (k + 1) v) (h : P i x)
    (he : forUp body i n x = .ok y) : P (i + n) y := by
  induction n generalizing i x with
  | zero => cases he; exact h
  | succ n ih =>
    rw [forUp_succ] at he
    cases hb : body i x with
    | error e => rw [hb] at he; cases he
    | ok u =>
      rw [hb] at he
      have := ih (i := i + 1) (fun k u v h1 h2 => step k u v (by omega) (by omega))
        (step i x u le_rfl (by omega) h hb) he
      rwa [show i + 1 + n = i + (n + 1) by omega] at this

/-- A loop whose every iteration ends, with a property carried on, ends with it. -/
theorem forUp_total {σ : Type} {body : Nat → σ → Except Overflow σ} (P : Nat → σ → Prop) {i n : Nat} {x : σ}
    (step : ∀ k u, i ≤ k → k < i + n → P k u → ∃ v, body k u = .ok v ∧ P (k + 1) v) (h : P i x) :
    ∃ y, forUp body i n x = .ok y ∧ P (i + n) y := by
  induction n generalizing i x with
  | zero => exact ⟨x, rfl, h⟩
  | succ n ih =>
    obtain ⟨u, hu, hP⟩ := step i x le_rfl (by omega) h
    obtain ⟨y, hy, hQ⟩ := ih (i := i + 1) (fun k u h1 h2 => step k u (by omega) (by omega)) hP
    refine ⟨y, ?_, by rwa [show i + 1 + n = i + (n + 1) by omega] at hQ⟩
    rw [forUp_succ, hu]
    exact hy

/-! ### `Except` -/

theorem bind_ok {α β : Type} {x : Except Overflow α} {f : α → Except Overflow β} {y : β}
    (h : (x >>= f) = .ok y) : ∃ a, x = .ok a ∧ f a = .ok y := by
  cases x with
  | error e => cases h
  | ok a => exact ⟨a, rfl, h⟩

theorem settle_of_ok {s t : State} {r : Except Overflow State} (h : r = .ok t) : settle s r = t := by subst h; rfl

/-- `settle` answers the result or the fault. -/
theorem settle_cases (s : State) (r : Except Overflow State) :
    (∃ t, r = .ok t ∧ settle s r = t) ∨ ((∃ e, r = .error e) ∧ settle s r = overflowFault s) := by
  cases r with
  | ok t => exact .inl ⟨t, rfl, rfl⟩
  | error e => exact .inr ⟨⟨e, rfl⟩, rfl⟩

/-! ### Samples and draws -/

theorem sext24_range {u : Nat} (h : u < 16777216) : -8388608 ≤ sext24 u ∧ sext24 u ≤ 8388607 := by
  unfold sext24
  have : u.testBit 23 = decide (8388608 ≤ u) := by
    have : u / 2 ^ 23 % 2 = u / 2 ^ 23 := by omega
    rw [Nat.testBit_eq_decide_div_mod_eq, this]
    by_cases hu : 8388608 ≤ u <;> simp only [hu, decide_true, decide_false, decide_eq_true_eq, decide_eq_false_iff_not] <;> omega
  rw [this]
  split <;> simp_all <;> omega

/-- A decoded sample is the sign-extended value of its three bytes, in the sample range (30_encoding.md R66). -/
theorem decodeSample_toInt (s : State) (j : Nat) :
    (decodeSample s j).toInt = sext24 (memRead s.inMem (3 * j) 3) ∧
      -8388608 ≤ (decodeSample s j).toInt ∧ (decodeSample s j).toInt ≤ 8388607 := by
  have h := sext24_range (u := memRead s.inMem (3 * j) 3) (by have := memRead_lt s.inMem (3 * j) 3; omega)
  have : (decodeSample s j).toInt = sext24 (memRead s.inMem (3 * j) 3) :=
    toInt_ofInt_of_inInt64 (by unfold InInt64; omega)
  rw [this]
  exact ⟨rfl, h⟩

/-- Every draw lies in `[-2^22, 2^22 - 1]` (41_noise_table_gen.md R77). -/
theorem noiseDraw_range (d : NoiseDraw) (seed : Word32) (i : Nat) :
    -4194304 ≤ (noiseDraw d seed i).toInt ∧ (noiseDraw d seed i).toInt ≤ 4194303 := by
  unfold noiseDraw
  rw [BitVec.toInt_signExtend_of_le (by omega)]
  generalize List.getD _ _ _ = x
  have h1 := BitVec.le_toInt x
  have h2 := BitVec.toInt_lt (x := x)
  norm_num at h1 h2
  omega

end Sys2Proof.Machine
end

