-- ==== Sys2Proof/Laws/Generators.lean ====
section
/-! SUPPORT. The generators: `FIR_GEN` and `NOISE_GEN`, and what an accepted OPEN leaves. -/

namespace Sys2Proof.Machine

/-- The estimate of the noise recurrence stays in the range of the draws (41_noise_table_gen.md R80). -/
theorem exactEstimate_range (b : Nat) (d : Nat → Int) (h : ∀ i, -4194304 ≤ d i ∧ d i ≤ 4194303) (i : Nat) :
    -4194304 ≤ exactEstimate b d i ∧ exactEstimate b d i ≤ 4194303 := by
  induction i with
  | zero => simp [exactEstimate]
  | succ i ih => exact recurrence_range ih (h i)

/-- The loop of `NOISE_GEN` from any index: it ends, and each entry is its draw less the updated estimate. -/
theorem noiseLoop_ok (b : Nat) (d : Nat → Word64) (h : ∀ i, -4194304 ≤ (d i).toInt ∧ (d i).toInt ≤ 4194303)
    (i n : Nat) (lp : Word64) (hl : lp.toInt = exactEstimate b (fun j => (d j).toInt) i) :
    ∃ t, noiseLoop b d i n lp = .ok t ∧ t.length = n ∧
      (∀ q < n, (t[q]?).map BitVec.toInt =
        some ((d (i + q)).toInt - exactEstimate b (fun j => (d j).toInt) (i + q + 1))) ∧
      ∀ x ∈ t, -8388607 ≤ x.toInt ∧ x.toInt ≤ 8388607 := by
  induction n generalizing i lp with
  | zero => exact ⟨[], rfl, rfl, fun q hq => by omega, fun x hx => by cases hx⟩
  | succ n ih =>
    obtain ⟨lp', hlp, hlp'⟩ := leak_ok b lp (d i)
    have he : lp'.toInt = exactEstimate b (fun j => (d j).toInt) (i + 1) := by rw [hlp', hl]; rfl
    have hr := exactEstimate_range b (fun j => (d j).toInt) h (i + 1)
    have hd := h i
    obtain ⟨e, hsub, he'⟩ := chk64_exists (v := (d i).toInt - lp'.toInt) (by unfold InInt64; omega)
    obtain ⟨t, ht, hlen, hent, hrange⟩ := ih (i + 1) lp' he
    refine ⟨e :: t, ?_, by simp [hlen], ?_, ?_⟩
    · rw [noiseLoop, hlp]
      show (do let e ← sub64 (d i) lp'; let rest ← noiseLoop b d (i + 1) n lp'; Except.ok (e :: rest)) = _
      unfold sub64
      rw [hsub]
      show (do let rest ← noiseLoop b d (i + 1) n lp'; Except.ok (e :: rest)) = _
      rw [ht]
      rfl
    · intro q hq
      cases q with
      | zero => simp [he', he]
      | succ q =>
        have := hent q (by omega)
        rw [List.getElem?_cons_succ, this, show i + 1 + q = i + (q + 1) by omega]
    · intro x hx
      rcases List.mem_cons.1 hx with rfl | hx
      · omega
      · exact hrange x hx

/-- `NOISE_GEN` never overflows, writes the residuals of the draws, and changes only the table. -/
theorem noiseGen_ok (s : State) :
    ∃ tbl : List Word64, noiseGen s = .ok { s with noise := tbl } ∧ tbl.length = s.hw.nl ∧
      (∀ i < s.hw.nl, (tbl[i]?).map BitVec.toInt =
        some ((noiseDraw s.hw.noiseDraw s.pend.seed i).toInt
          - exactEstimate s.hw.fBits (fun j => (noiseDraw s.hw.noiseDraw s.pend.seed j).toInt) (i + 1))) ∧
      ∀ x ∈ tbl, -8388607 ≤ x.toInt ∧ x.toInt ≤ 8388607 := by
  obtain ⟨tbl, h, hl, he, hr⟩ := noiseLoop_ok s.hw.fBits (noiseDraw s.hw.noiseDraw s.pend.seed)
    (noiseDraw_range _ _) 0 s.hw.nl 0 rfl
  refine ⟨tbl, ?_, hl, fun i hi => by simpa using he i hi, hr⟩
  unfold noiseGen
  rw [h]
  rfl

@[simp] theorem firKernel_length (hw : Params) (n : Nat) : (firKernel hw n).length = n := by simp [firKernel]

theorem firKernel_getElem? (hw : Params) {n i : Nat} (h : i < n) :
    (firKernel hw n)[i]? = some (firTableValue hw.firTable n hw.f i) := by simp [firKernel, h]

/-- `openCheck` accepts exactly the powers of two from `F` to `N_MAX` (44_block_processor.md R103). -/
theorem openCheck_none_iff (hw : Params) (n : Nat) :
    openCheck hw n = .none ↔ (∃ k, n = 2 ^ k) ∧ hw.f ≤ n ∧ n ≤ hw.nMax := by
  unfold openCheck
  rw [← isPow2_iff]
  cases h : isPow2 n
  · simp
  · simp only [Bool.true_eq_false, if_false]
    split
    · simp; omega
    · split
      · simp; omega
      · simp; omega

/-- OPEN answers, always: it rejects with the code of its check, or it builds the instance without an overflow. -/
theorem execOpen_cases (s : State) :
    (openCheck s.hw s.pend.blockLen.toNat ≠ .none ∧
        execOpen s = .next (complete (openCheck s.hw s.pend.blockLen.toNat) s)) ∨
      (openCheck s.hw s.pend.blockLen.toNat = .none ∧
        ∃ tbl, noiseGen (firGen (openClear s)) = .ok { firGen (openClear s) with noise := tbl } ∧
          execOpen s = .next (openReady { firGen (openClear s) with noise := tbl })) := by
  unfold execOpen
  cases h : openCheck s.hw s.pend.blockLen.toNat <;> simp only [ne_eq, reduceCtorEq, not_true_eq_false, not_false_eq_true,
    true_and, false_and, or_false, false_or]
  obtain ⟨tbl, ht, _⟩ := noiseGen_ok (firGen (openClear s))
  refine ⟨tbl, ht, ?_⟩
  unfold openAccepted
  rw [ht]
  rfl

end Sys2Proof.Machine
end

