-- ==== Sys2Proof/Laws/Splitter.lean ====
section
/-! SUPPORT. The band splitter: what `SPLIT_SAMPLE` and `SPLIT_GROUP` answer, what they leave alone, and the energy sum
(spec/42_band_splitter.md R82 to R88). -/

namespace Sys2Proof.Machine

/-- What the splitter may change: `prev`, `hif`, `hifsum`, `lopass`. -/
def SplitFrame (s t : State) : Prop :=
  t = { s with prev := t.prev, hif := t.hif, hifsum := t.hifsum, lopass := t.lopass }

theorem SplitFrame.refl (s : State) : SplitFrame s s := rfl

theorem SplitFrame.trans {s t u : State} (h : SplitFrame s t) (h' : SplitFrame t u) : SplitFrame s u := by
  unfold SplitFrame at *
  rw [h'] at ⊢
  rw [h]

theorem SplitFrame.hw {s t : State} (h : SplitFrame s t) : t.hw = s.hw := by rw [h]
theorem SplitFrame.len {s t : State} (h : SplitFrame s t) : t.len = s.len := by rw [h]; rfl
theorem SplitFrame.groups {s t : State} (h : SplitFrame s t) : t.groups = s.groups := by rw [h]; rfl
theorem SplitFrame.inMem {s t : State} (h : SplitFrame s t) : t.inMem = s.inMem := by rw [h]

/-- `SPLIT_SAMPLE(j)`, when it answers, changed one ring entry, the estimate and the sum. -/
theorem splitSample_frame {j : Nat} {s t : State} (h : splitSample j s = .ok t) :
    ∃ x, t = { s with prev := t.prev, hifsum := t.hifsum, hif := s.hif.set j x } := by
  unfold splitSample at h
  obtain ⟨prev, _, h⟩ := bind_ok h
  obtain ⟨r, _, h⟩ := bind_ok h
  obtain ⟨mag, _, h⟩ := bind_ok h
  obtain ⟨less, _, h⟩ := bind_ok h
  obtain ⟨sum, _, h⟩ := bind_ok h
  cases h
  exact ⟨_, rfl⟩

/-- The values `SPLIT_SAMPLE(j)` computes (R82, R83), where the estimate is in sample range and the sum far from the
end of `INT64`. -/
theorem splitSample_ok (s : State) (j k : Nat) (hlen : s.len = 2 ^ k)
    (hp : -8388608 ≤ s.prev.toInt ∧ s.prev.toInt ≤ 8388607) (hs : s.hifsum.toInt.natAbs ≤ 2 ^ 61)
    (ho : (readAt s.hif j).toInt.natAbs ≤ 2 ^ 61) :
    ∃ prev h sum : Word64,
      splitSample j s = .ok { s with prev := prev, hifsum := sum, hif := s.hif.set j h } ∧
      prev.toInt = s.prev.toInt - s.prev.toInt / (2 ^ s.hw.fBits : Nat)
        + (decodeSample s j).toInt / (2 ^ s.hw.fBits : Nat) ∧
      (-8388608 ≤ prev.toInt ∧ prev.toInt ≤ 8388607) ∧
      h.toInt = (((decodeSample s j).toInt - prev.toInt).natAbs : Int) / (2 * s.len : Nat) ∧
      sum.toInt = s.hifsum.toInt - (readAt s.hif j).toInt + h.toInt := by
  obtain ⟨_, hv⟩ := decodeSample_toInt s j
  obtain ⟨prev, hleak, hprev⟩ := leak_ok s.hw.fBits s.prev (decodeSample s j)
  have hr := recurrence_range (b := s.hw.fBits) hp hv
  rw [← hprev] at hr
  obtain ⟨r, hr1, hr2⟩ := chk64_exists (v := (decodeSample s j).toInt - prev.toInt) (by unfold InInt64; omega)
  obtain ⟨mag, hm1, hm2⟩ := chk64_exists (v := (r.toInt.natAbs : Int)) (by unfold InInt64; omega)
  have hh : (asr mag (hifShift s.len)).toInt
      = (((decodeSample s j).toInt - prev.toInt).natAbs : Int) / (2 * s.len : Nat) := by
    rw [asr_toInt, hlen, hifShift_two_pow, hm2, hr2, Nat.pow_succ, Nat.mul_comm]
  have hh0 : 0 ≤ (asr mag (hifShift s.len)).toInt := by rw [hh]; positivity
  have hh1 : (asr mag (hifShift s.len)).toInt ≤ 16777215 := by
    rw [hh]
    refine le_trans (Int.ediv_le_self _ (by positivity)) ?_
    omega
  obtain ⟨less, hl1, hl2⟩ := chk64_exists (v := s.hifsum.toInt - (readAt s.hif j).toInt) (by unfold InInt64; omega)
  obtain ⟨sum, hs1, hs2⟩ := chk64_exists (v := less.toInt + (asr mag (hifShift s.len)).toInt)
    (by unfold InInt64; omega)
  refine ⟨prev, asr mag (hifShift s.len), sum, ?_, hprev, hr, hh, by rw [hs2, hl2]⟩
  unfold splitSample sub64 add64 abs64
  simp only [hleak, hr1, hm1, hl1, hs1, bind, Except.bind]

/-! ### The energy sum -/

theorem sum_take_set {l : List Word64} {j n : Nat} (x : Word64) (hj : j < n) (hl : j < l.length) :
    (((l.set j x).take n).map BitVec.toInt).sum = ((l.take n).map BitVec.toInt).sum - (readAt l j).toInt + x.toInt := by
  induction l generalizing j n with
  | nil => simp at hl
  | cons a rest ih =>
    cases n with
    | zero => omega
    | succ n =>
      cases j with
      | zero => simp [readAt]; ring
      | succ j =>
        have := ih (j := j) (n := n) (by omega) (by simpa using hl)
        have hread : readAt (a :: rest) (j + 1) = readAt rest j := by
          have hl' : j < rest.length := by simpa using hl
          rw [readAt_of_lt hl, readAt_of_lt hl', List.getElem_cons_succ]
        simp only [List.set_cons_succ, List.take_succ_cons, List.map_cons, List.sum_cons, this, hread]
        ring

theorem sum_bound {l : List Int} {m : Int} (h : ∀ x ∈ l, 0 ≤ x ∧ x ≤ m) : 0 ≤ l.sum ∧ l.sum ≤ l.length * m := by
  induction l with
  | nil => simp
  | cons a rest ih =>
    have ha := h a (by simp)
    have := ih fun x hx => h x (by simp [hx])
    simp only [List.sum_cons, List.length_cons]
    push_cast
    constructor
    · omega
    · nlinarith

/-- R88: the energy sum of a good stream is below `2^23`, and so is each ring entry. -/
theorem energy_bound {s : State} (h : StreamOk s) (hn : 0 < s.len) :
    (0 ≤ s.hifsum.toInt ∧ s.hifsum.toInt ≤ 8388607) ∧ ∀ x ∈ s.hif.take s.len, 0 ≤ x.toInt ∧ x.toInt ≤ 8388607 := by
  have hq0 : (0 : Int) ≤ 16777215 / (2 * s.len : Nat) := by positivity
  have hq : (16777215 : Int) / (2 * s.len : Nat) * (2 * s.len : Nat) ≤ 16777215 := Int.ediv_mul_le _ (by omega)
  push_cast at hq hq0
  have hb : ∀ y ∈ (s.hif.take s.len).map BitVec.toInt, 0 ≤ y ∧ y ≤ 16777215 / (2 * s.len : Nat) := by
    intro y hy
    obtain ⟨x, hx, rfl⟩ := List.mem_map.1 hy
    exact h.hifRange x hx
  have hs := sum_bound hb
  rw [← h.hifSum] at hs
  have hlen : (((s.hif.take s.len).map BitVec.toInt).length : Int) ≤ s.len := by simp
  push_cast at hs
  refine ⟨⟨hs.1, ?_⟩, fun x hx => ?_⟩
  · have h2 := hs.2
    have : (((s.hif.take s.len).map BitVec.toInt).length : Int) * (16777215 / (2 * (s.len : Int)))
        ≤ s.len * (16777215 / (2 * (s.len : Int))) := by nlinarith
    simp only [List.length_map] at this h2
    nlinarith
  · have := h.hifRange x hx
    push_cast at this
    refine ⟨this.1, ?_⟩
    have hn' : (1 : Int) ≤ s.len := by exact_mod_cast hn
    nlinarith

/-- `SPLIT_SAMPLE(j)` on a good stream ends in a good stream. -/
theorem splitSample_stream {s : State} {j k : Nat} (hlen : s.len = 2 ^ k) (hj : j < s.len)
    (hl : s.len ≤ s.hif.length) (h : StreamOk s) :
    ∃ t, splitSample j s = .ok t ∧ StreamOk t ∧ SplitFrame s t ∧ t.hif.length = s.hif.length ∧
      t.lopass = s.lopass := by
  have hn : 0 < s.len := by omega
  obtain ⟨hsum, hring⟩ := energy_bound h hn
  have hold := hring _ (readAt_mem_take hj (by omega))
  obtain ⟨prev, x, sum, he, hp, hpr, hx, hs⟩ := splitSample_ok s j k hlen h.prevRange (by omega) (by omega)
  refine ⟨_, he, ?_, rfl, by simp, rfl⟩
  obtain ⟨_, hv⟩ := decodeSample_toInt s j
  refine ⟨hpr, ?_, ?_, h.lopassRange, h.cursorMultiple⟩
  · intro y hy
    change y ∈ (s.hif.set j x).take s.len at hy
    rcases List.mem_or_eq_of_mem_set (List.take_set ▸ hy) with hy | rfl
    · exact h.hifRange y hy
    · show 0 ≤ y.toInt ∧ y.toInt ≤ 16777215 / (2 * s.len : Nat)
      rw [hx]
      exact ⟨by positivity, Int.ediv_le_ediv (by positivity) (by omega)⟩
  · show sum.toInt = (((s.hif.set j x).take s.len).map BitVec.toInt).sum
    rw [sum_take_set x hj (by omega), hs, h.hifSum]

/-- `LP_STORE(g)` on a good stream ends in a good stream. -/
theorem lpStore_stream {s : State} (g : Nat) (h : StreamOk s) : StreamOk (lpStore g s) := by
  refine ⟨h.prevRange, h.hifRange, h.hifSum, ?_, h.cursorMultiple⟩
  intro y hy
  change y ∈ (s.lopass.set g s.prev).take s.groups at hy
  rcases List.mem_or_eq_of_mem_set (List.take_set ▸ hy) with hy | rfl
  · exact h.lopassRange y hy
  · exact h.prevRange

theorem groups_mul_le (s : State) : s.groups * s.hw.f ≤ s.len := Nat.div_mul_le_self _ _

/-- A group's samples lie in the block. -/
theorem group_sample_lt {s : State} {g q : Nat} (hg : g < s.groups) (hq : q < s.hw.f) : g * s.hw.f + q < s.len := by
  have := groups_mul_le s
  have : (g + 1) * s.hw.f ≤ s.groups * s.hw.f := Nat.mul_le_mul_right _ hg
  rw [Nat.add_mul] at this
  omega

/-- `SPLIT_GROUP(g)` on a good stream (R88): no overflow, and a good stream after it. -/
theorem splitGroup_stream {s : State} {g k : Nat} (hlen : s.len = 2 ^ k) (hg : g < s.groups)
    (hl : s.len ≤ s.hif.length) (h : StreamOk s) :
    ∃ t, splitGroup g s = .ok t ∧ StreamOk t ∧ SplitFrame s t ∧ t.hif.length = s.hif.length ∧
      t.lopass = s.lopass.set g t.prev := by
  obtain ⟨t, ht, hs, hf, hlt, hlp⟩ := forUp_total (body := splitSample)
    (fun _ t => StreamOk t ∧ SplitFrame s t ∧ t.hif.length = s.hif.length ∧ t.lopass = s.lopass)
    (i := g * s.hw.f) (n := s.hw.f) (x := s)
    (fun j u hj1 hj2 hu => by
      obtain ⟨hu1, hu2, hu3, hu4⟩ := hu
      have hq := group_sample_lt (s := s) hg (q := j - g * s.hw.f) (by omega)
      obtain ⟨v, hv, a, b, c, d⟩ := splitSample_stream (s := u) (j := j) (k := k) (by rw [hu2.len, hlen])
        (by rw [hu2.len]; omega) (by rw [hu2.len, hu3]; exact hl) hu1
      exact ⟨v, hv, a, hu2.trans b, by rw [c, hu3], by rw [d, hu4]⟩)
    ⟨h, SplitFrame.refl s, rfl, rfl⟩
  refine ⟨lpStore g t, ?_, lpStore_stream g hs, hf.trans rfl, hlt, by rw [lpStore_lopass, hlp]; rfl⟩
  unfold splitGroup
  rw [ht]
  rfl

end Sys2Proof.Machine
end

