-- ==== Sys2Proof/Laws/Recon.lean ====
section
/-! SUPPORT. The reconstructor: when `RECON_SUBSAMPLE` answers, what it writes, and what the group leaves alone
(spec/43_reconstructor.md R90 to R97). -/

namespace Sys2Proof.Machine

/-! ### The accumulator -/

theorem dotTap_ok_iff {s : State} {g p k m : Nat} (hL : s.groups = 2 ^ m) (acc y : Word64) :
    dotTap s g p k acc = .ok y ↔
      InInt64 ((readAt s.lopass ((g + s.groups - k) % s.groups)).toInt * (readAt s.fir (k * s.hw.f + p)).toInt) ∧
        InInt64 (acc.toInt
          + (readAt s.lopass ((g + s.groups - k) % s.groups)).toInt * (readAt s.fir (k * s.hw.f + p)).toInt) ∧
        y.toInt = acc.toInt
          + (readAt s.lopass ((g + s.groups - k) % s.groups)).toInt * (readAt s.fir (k * s.hw.f + p)).toInt := by
  rw [← ringIndex_eq_mod hL]
  unfold dotTap mul64 add64 coeffIndex
  constructor
  · intro h
    obtain ⟨q, hq, h⟩ := bind_ok h
    obtain ⟨h1, h2⟩ := chk64_ok hq
    obtain ⟨h3, h4⟩ := chk64_ok h
    rw [h2] at h3 h4
    exact ⟨h1, h3, h4⟩
  · rintro ⟨h1, h2, h3⟩
    obtain ⟨q, hq, hq'⟩ := chk64_exists h1
    obtain ⟨z, hz, hz'⟩ := chk64_exists h2
    rw [hq]
    show chk64 (acc.toInt + q.toInt) = _
    rw [hq', hz]
    congr 1
    exact BitVec.eq_of_toInt_eq (by rw [hz', h3])

/-- The dot product's loop ends exactly when every product and partial sum is in `INT64`, with the exact sum. -/
theorem dot_ok_iff {s : State} {g p m n : Nat} (hL : s.groups = 2 ^ m) (y : Word64) :
    forUp (dotTap s g p) 0 n 0 = .ok y ↔
      (∀ k < n,
        InInt64 ((readAt s.lopass ((g + s.groups - k) % s.groups)).toInt * (readAt s.fir (k * s.hw.f + p)).toInt) ∧
          InInt64 (exactDot s g p (k + 1))) ∧ y.toInt = exactDot s g p n := by
  suffices H : ∀ (i n : Nat) (acc : Word64), acc.toInt = exactDot s g p i →
      (forUp (dotTap s g p) i n acc = .ok y ↔
        (∀ k, i ≤ k → k < i + n →
          InInt64 ((readAt s.lopass ((g + s.groups - k) % s.groups)).toInt * (readAt s.fir (k * s.hw.f + p)).toInt) ∧
            InInt64 (exactDot s g p (k + 1))) ∧ y.toInt = exactDot s g p (i + n)) by
    have := H 0 n 0 rfl
    simp only [Nat.zero_add, Nat.zero_le, true_implies] at this
    exact this
  intro i n
  induction n generalizing i with
  | zero =>
    intro acc hacc
    constructor
    · intro h
      cases h
      exact ⟨fun k h1 h2 => by omega, hacc⟩
    · rintro ⟨_, h⟩
      rw [forUp_zero]
      congr 1
      exact BitVec.eq_of_toInt_eq (by rw [hacc, h]; rfl)
  | succ n ih =>
    intro acc hacc
    rw [forUp_succ]
    constructor
    · intro h
      obtain ⟨u, hu, h⟩ := bind_ok h
      obtain ⟨h1, h2, h3⟩ := (dotTap_ok_iff hL acc u).1 hu
      rw [hacc] at h2 h3
      obtain ⟨h4, h5⟩ := (ih (i + 1) u h3).1 h
      refine ⟨fun k hk1 hk2 => ?_, by rw [h5, show i + 1 + n = i + (n + 1) by omega]⟩
      rcases Nat.eq_or_lt_of_le hk1 with rfl | hlt
      · exact ⟨h1, h2⟩
      · exact h4 k hlt (by omega)
    · rintro ⟨h, hy⟩
      obtain ⟨h1, h2⟩ := h i le_rfl (by omega)
      obtain ⟨u, hu, hu'⟩ := chk64_exists h2
      have : dotTap s g p i acc = .ok u := (dotTap_ok_iff hL acc u).2 ⟨h1, by rw [hacc]; exact h2, by rw [hu', hacc]; rfl⟩
      rw [this]
      show forUp (dotTap s g p) (i + 1) n u = _
      refine (ih (i + 1) u hu').2 ⟨fun k hk1 hk2 => h k (by omega) (by omega), ?_⟩
      rw [hy, show i + 1 + n = i + (n + 1) by omega]

theorem noise_at (s : State) (g p : Nat) : (readAt s.noise (noiseEntry s.hw s.noisei g p)).toInt = exactNoise s g p := by
  unfold noiseEntry exactNoise
  cases s.hw.noiseIndex <;> simp only [mask_nl]

/-- The accumulator is answered exactly when every check passes, with the exact value. -/
theorem reconAcc_ok_iff {s : State} {g p m : Nat} (hL : s.groups = 2 ^ m) (y : Word64) :
    reconAcc s g p = .ok y ↔ ChecksPass s g p ∧ y.toInt = exactAcc s g p := by
  unfold reconAcc ChecksPass mul64 add64
  rw [noise_at]
  constructor
  · intro h
    obtain ⟨a, ha, h⟩ := bind_ok h
    obtain ⟨q, hq, h⟩ := bind_ok h
    obtain ⟨h1, h2⟩ := (dot_ok_iff hL a).1 ha
    obtain ⟨h3, h4⟩ := chk64_ok hq
    obtain ⟨h5, h6⟩ := chk64_ok h
    rw [asr_toInt, h2, h4] at h5 h6
    exact ⟨⟨h1, h3, h5⟩, h6⟩
  · rintro ⟨⟨h1, h2, h3⟩, h4⟩
    have hin : InInt64 (exactDot s g p s.groups) := by
      obtain ⟨n, hn⟩ : ∃ n, s.groups = n + 1 := ⟨s.groups - 1, by have := Nat.two_pow_pos m; omega⟩
      rw [hn]
      exact (h1 n (by omega)).2
    obtain ⟨a, _, ha'⟩ := chk64_exists hin
    have ha := (dot_ok_iff hL a).2 ⟨h1, ha'⟩
    obtain ⟨q, hq, hq'⟩ := chk64_exists h2
    rw [ha]
    show (do let m ← chk64 (exactNoise s g p * s.hifsum.toInt); chk64 (a.toInt + (asr m s.hw.noiseShift.val).toInt)) = _
    rw [hq]
    show chk64 (a.toInt + (asr q s.hw.noiseShift.val).toInt) = _
    rw [asr_toInt, hq', ha']
    change InInt64 (exactDot s g p s.groups + exactNoise s g p * s.hifsum.toInt / (2 ^ s.hw.noiseShift.val : Nat)) at h3
    rw [chk64_of_inInt64 h3]
    congr 1
    exact BitVec.eq_of_toInt_eq (by rw [toInt_ofInt_of_inInt64 h3, h4]; rfl)

/-! ### The output sample -/

/-- What the reconstructor may change: `OUT`, and of it only the bytes of the samples `lo .. hi - 1`. -/
def OutFrame (lo hi : Nat) (s t : State) : Prop :=
  t = { s with outMem := t.outMem } ∧
    ∀ off, off < 3 * lo ∨ 3 * hi ≤ off → t.outMem.read off = s.outMem.read off

theorem encodeSample_frame (s : State) (j : Nat) (y : Word64) : OutFrame j (j + 1) s (encodeSample j y s) :=
  ⟨rfl, fun off ho => memWrite_read_outside (by omega)⟩

/-- The output sample is the low 24 bits of the value (R95, R12). -/
theorem encodeSample_value {s : State} (j : Nat) (y : Word64) (h : s.outMem.wf = true) :
    (memRead (encodeSample j y s).outMem (3 * j) 3 : Int) = y.toInt % 16777216 := by
  rw [encodeSample_outMem, memRead_memWrite _ _ _ h]
  unfold trunc24
  rw [BitVec.toInt_eq_toNat_bmod]
  norm_num
  rw [Int.bmod_def]
  split <;> omega

/-- The output written by an accumulator (R92 step 3). -/
theorem reconSubsample_of_acc {s : State} {g p : Nat} {a : Word64} (h : reconAcc s g p = .ok a) :
    reconSubsample g p s = .ok (encodeSample (outPosition s.hw g p) (asr a s.hw.outShift.val) s) := by
  unfold reconSubsample
  rw [h]
  rfl

theorem reconSubsample_ok {s t : State} {g p : Nat} (h : reconSubsample g p s = .ok t) :
    ∃ y, t = encodeSample (outPosition s.hw g p) y s := by
  unfold reconSubsample at h
  obtain ⟨a, _, h⟩ := bind_ok h
  cases h
  exact ⟨_, rfl⟩

theorem OutFrame.refl (lo hi : Nat) (s : State) : OutFrame lo hi s s := ⟨rfl, fun _ _ => rfl⟩

theorem OutFrame.trans {lo hi : Nat} {s t u : State} (h : OutFrame lo hi s t) (h' : OutFrame lo hi t u) :
    OutFrame lo hi s u := by
  refine ⟨?_, fun off ho => (h'.2 off ho).trans (h.2 off ho)⟩
  have h1 := h.1
  have h2 := h'.1
  rw [h2, h1]

theorem OutFrame.mono {lo hi lo' hi' : Nat} {s t : State} (h : OutFrame lo hi s t) (h1 : lo' ≤ lo) (h2 : hi ≤ hi') :
    OutFrame lo' hi' s t := ⟨h.1, fun off ho => h.2 off (by omega)⟩

theorem OutFrame.hw {lo hi : Nat} {s t : State} (h : OutFrame lo hi s t) : t.hw = s.hw := by rw [h.1]
theorem OutFrame.len {lo hi : Nat} {s t : State} (h : OutFrame lo hi s t) : t.len = s.len := by rw [h.1]; rfl
theorem OutFrame.groups {lo hi : Nat} {s t : State} (h : OutFrame lo hi s t) : t.groups = s.groups := by rw [h.1]; rfl

/-- A sub-phase reads nothing of `OUT`, so its accumulator is the same after other outputs of the block. -/
theorem reconAcc_outMem (s : State) (m : Memory) (g p : Nat) : reconAcc { s with outMem := m } g p = reconAcc s g p := rfl

theorem outPosition_lt {s : State} {g p : Nat} (hp : p < s.hw.f) :
    g * s.hw.f ≤ outPosition s.hw g p ∧ outPosition s.hw g p + 1 ≤ (g + 1) * s.hw.f := by
  unfold outPosition
  rw [Nat.add_mul]
  omega

/-- `RECON_GROUP(g)`, when it answers, changed only the bytes of its outputs. -/
theorem reconGroup_frame {s t : State} {g : Nat} (h : reconGroup g s = .ok t) :
    OutFrame (g * s.hw.f) ((g + 1) * s.hw.f) s t := by
  refine forUp_ok (fun _ t => OutFrame (g * s.hw.f) ((g + 1) * s.hw.f) s t) ?_ (OutFrame.refl _ _ s) h
  intro p u v _ hp hu hv
  obtain ⟨y, rfl⟩ := reconSubsample_ok hv
  have hpos := outPosition_lt (s := s) (g := g) (p := p) (by omega)
  refine hu.trans ?_
  rw [hu.hw]
  exact (encodeSample_frame u _ y).mono hpos.1 hpos.2

/-- `RECON_GROUP(g)` keeps `OUT` canonical and inside its space. -/
theorem reconGroup_outMem {s t : State} {g size : Nat} (hg : 3 * ((g + 1) * s.hw.f) ≤ size) (hw : s.outMem.wf = true)
    (hb : s.outMem.below size = true) (h : reconGroup g s = .ok t) :
    t.outMem.wf = true ∧ t.outMem.below size = true := by
  refine (forUp_ok (fun _ t => t.hw = s.hw ∧ t.outMem.wf = true ∧ t.outMem.below size = true) ?_ ⟨rfl, hw, hb⟩ h).2
  intro p u v _ hp hu hv
  obtain ⟨y, rfl⟩ := reconSubsample_ok hv
  have hpos := outPosition_lt (s := s) (g := g) (p := p) (by omega)
  refine ⟨hu.1, memWrite_wf _ _ _ hu.2.1, memWrite_below ?_ hu.2.2⟩
  rw [hu.1]
  omega

/-- `RECON_GROUP(g)` answers when every check of its sub-phases passes. -/
theorem reconGroup_total {s : State} {g m : Nat} (hL : s.groups = 2 ^ m) (h : ∀ p < s.hw.f, ChecksPass s g p) :
    ∃ t, reconGroup g s = .ok t := by
  obtain ⟨t, ht, _⟩ := forUp_total (body := reconSubsample g) (fun _ u => ∃ mem, u = { s with outMem := mem })
    (i := 0) (n := s.hw.f) (x := s)
    (fun p u _ hp hu => by
      obtain ⟨mem, rfl⟩ := hu
      have hc := h p (by omega)
      obtain ⟨a, _, ha⟩ := chk64_exists hc.2.2
      have hacc := (reconAcc_ok_iff hL a).2 ⟨hc, ha⟩
      rw [← reconAcc_outMem s mem] at hacc
      exact ⟨_, reconSubsample_of_acc hacc, _, rfl⟩)
    ⟨s.outMem, rfl⟩
  exact ⟨t, ht⟩

/-! ### The bound of R96 -/

theorem exactDot_bound {s : State} {g p : Nat}
    (hl : ∀ i < s.groups, -8388608 ≤ (readAt s.lopass i).toInt ∧ (readAt s.lopass i).toInt ≤ 8388607) (n : Nat) :
    n ≤ s.groups → (exactDot s g p n).natAbs
      ≤ 8388608 * ((List.range n).map fun k => (readAt s.fir (k * s.hw.f + p)).toInt.natAbs).sum := by
  induction n with
  | zero => intro _; simp [exactDot]
  | succ n ih =>
    intro hn
    have hi := hl ((g + s.groups - n) % s.groups) (Nat.mod_lt _ (by omega))
    have := ih (by omega)
    rw [List.range_succ, List.map_append, List.sum_append]
    simp only [List.map_cons, List.map_nil, List.sum_cons, List.sum_nil, exactDot]
    have hm : ((readAt s.lopass ((g + s.groups - n) % s.groups)).toInt * (readAt s.fir (n * s.hw.f + p)).toInt).natAbs
        ≤ 8388608 * (readAt s.fir (n * s.hw.f + p)).toInt.natAbs := by
      rw [Int.natAbs_mul]
      exact Nat.mul_le_mul_right _ (by omega)
    omega

theorem sum_range_le {f : Nat → Nat} {k n : Nat} (h : k ≤ n) :
    ((List.range k).map f).sum ≤ ((List.range n).map f).sum := by
  induction n with
  | zero => simp [Nat.le_zero.1 h]
  | succ n ih =>
    rcases Nat.eq_or_lt_of_le h with rfl | hlt
    · exact le_rfl
    · rw [List.range_succ, List.map_append, List.sum_append]
      exact le_trans (ih (by omega)) (by omega)

/-- R96: with sample-range history, noise and energy in their ranges, and a kernel whose sub-phase's magnitudes sum to
at most `2^36`, every check passes. -/
theorem checksPass_of_bound {s : State} {g p : Nat}
    (hl : ∀ i < s.groups, -8388608 ≤ (readAt s.lopass i).toInt ∧ (readAt s.lopass i).toInt ≤ 8388607)
    (hn : -8388607 ≤ exactNoise s g p ∧ exactNoise s g p ≤ 8388607)
    (hs : 0 ≤ s.hifsum.toInt ∧ s.hifsum.toInt ≤ 8388607)
    (hk : ((List.range s.groups).map fun k => (readAt s.fir (k * s.hw.f + p)).toInt.natAbs).sum ≤ 2 ^ 36) :
    ChecksPass s g p := by
  have hdot : ∀ n ≤ s.groups, (exactDot s g p n).natAbs ≤ 8388608 * 2 ^ 36 := fun n h =>
    le_trans (exactDot_bound hl n h) (Nat.mul_le_mul_left _ (le_trans (sum_range_le h) hk))
  have hprod : (exactNoise s g p * s.hifsum.toInt).natAbs ≤ 8388607 * 8388607 := by
    rw [Int.natAbs_mul]
    exact Nat.mul_le_mul (by omega) (by omega)
  refine ⟨fun k hk' => ⟨?_, ?_⟩, by unfold InInt64; omega, ?_⟩
  · have h1 := hdot (k + 1) (by omega)
    have h0 := hdot k (by omega)
    rw [exactDot] at h1
    unfold InInt64
    omega
  · have := hdot (k + 1) (by omega)
    unfold InInt64; omega
  · have := hdot s.groups le_rfl
    unfold InInt64 exactAcc
    rcases lt_or_ge (exactNoise s g p * s.hifsum.toInt) 0 with h | h
    · have := ediv_pow_neg s.hw.noiseShift.val h; omega
    · have := ediv_pow_nonneg s.hw.noiseShift.val h; omega

theorem exactNoise_range {s : State} (g p : Nat) (hl : s.noise.length = s.hw.nl)
    (h : ∀ x ∈ s.noise, -8388607 ≤ x.toInt ∧ x.toInt ≤ 8388607) :
    -8388607 ≤ exactNoise s g p ∧ exactNoise s g p ≤ 8388607 := by
  have : ∀ i, -8388607 ≤ (readAt s.noise (i % s.hw.nl)).toInt ∧ (readAt s.noise (i % s.hw.nl)).toInt ≤ 8388607 := by
    intro i
    have hi : i % s.hw.nl < s.noise.length := by rw [hl]; exact Nat.mod_lt _ (nl_pos _)
    rw [readAt_of_lt hi]
    exact h _ (List.getElem_mem _)
  unfold exactNoise
  cases s.hw.noiseIndex <;> exact this _

end Sys2Proof.Machine
end

