-- ==== Sys2Proof/Laws/Block.lean ====
section
/-! SUPPORT. PROCESS: what its groups change, under both schedules, and that a good stream stays one
(spec/44_block_processor.md R107, R108, R112). -/

namespace Sys2Proof.Machine

/-! ### What the groups of a block may change -/

/-- The groups of a block change the mutable datapath and the `OUT` bytes of the block, and of the rings only the
entries in use. -/
structure BlockFrame (s t : State) : Prop where
  same : t = { s with
    prev := t.prev, hif := t.hif, hifsum := t.hifsum, lopass := t.lopass, outMem := t.outMem }
  hifLength : t.hif.length = s.hif.length
  lopassLength : t.lopass.length = s.lopass.length
  hifRest : t.hif.drop s.len = s.hif.drop s.len
  lopassRest : t.lopass.drop s.groups = s.lopass.drop s.groups
  outRest : SameBytesFrom (3 * s.len) s.outMem t.outMem

theorem BlockFrame.refl (s : State) : BlockFrame s s := ⟨rfl, rfl, rfl, rfl, rfl, fun _ _ => rfl⟩

theorem BlockFrame.hw {s t : State} (h : BlockFrame s t) : t.hw = s.hw := by rw [h.same]
theorem BlockFrame.len {s t : State} (h : BlockFrame s t) : t.len = s.len := by rw [h.same]; rfl
theorem BlockFrame.groups {s t : State} (h : BlockFrame s t) : t.groups = s.groups := by rw [h.same]; rfl

theorem BlockFrame.trans {s t u : State} (h : BlockFrame s t) (h' : BlockFrame t u) : BlockFrame s u := by
  refine ⟨?_, h'.hifLength.trans h.hifLength, h'.lopassLength.trans h.lopassLength, ?_, ?_, ?_⟩
  · have h1 := h.same
    have h2 := h'.same
    rw [h2, h1]
  · have := h'.hifRest
    rw [h.len] at this
    exact this.trans h.hifRest
  · have := h'.lopassRest
    rw [h.groups] at this
    exact this.trans h.lopassRest
  · intro off ho
    exact (h'.outRest off (by rw [h.len]; exact ho)).trans (h.outRest off ho)

theorem drop_set_of_lt {l : List Word64} {j n : Nat} (x : Word64) (h : j < n) : (l.set j x).drop n = l.drop n := by
  rw [List.drop_set]
  simp [h]

theorem splitSample_blockFrame {j : Nat} {s t : State} (hj : j < s.len) (h : splitSample j s = .ok t) :
    BlockFrame s t := by
  obtain ⟨x, hx⟩ := splitSample_frame h
  have hhif : t.hif = s.hif.set j x := by rw [hx]
  have hlp : t.lopass = s.lopass := by rw [hx]
  have hout : t.outMem = s.outMem := by rw [hx]
  refine ⟨?_, by rw [hhif]; simp, by rw [hlp], by rw [hhif, drop_set_of_lt x hj], by rw [hlp],
    fun _ _ => by rw [hout]⟩
  rw [hx]

theorem splitGroup_blockFrame {g : Nat} {s t : State} (hg : g < s.groups) (h : splitGroup g s = .ok t) :
    BlockFrame s t := by
  unfold splitGroup at h
  obtain ⟨u, hu, h⟩ := bind_ok h
  cases h
  have hsu : BlockFrame s u := by
    refine forUp_ok (fun _ u => BlockFrame s u) ?_ (BlockFrame.refl s) hu
    intro j a b hj1 hj2 ha hb
    have hq := group_sample_lt (s := s) hg (q := j - g * s.hw.f) (by omega)
    exact ha.trans (splitSample_blockFrame (by rw [ha.len]; omega) hb)
  refine hsu.trans ⟨rfl, rfl, by simp, rfl, ?_, fun _ _ => rfl⟩
  rw [lpStore_lopass, drop_set_of_lt _ (by rw [hsu.groups]; exact hg)]

theorem group_end_le {s : State} {g : Nat} (hg : g < s.groups) : (g + 1) * s.hw.f ≤ s.len :=
  le_trans (Nat.mul_le_mul_right _ hg) (groups_mul_le s)

theorem reconGroup_blockFrame {g : Nat} {s t : State} (hg : g < s.groups) (h : reconGroup g s = .ok t) :
    BlockFrame s t := by
  have hf := reconGroup_frame h
  have hend := group_end_le hg
  refine ⟨?_, by rw [hf.1], by rw [hf.1], by rw [hf.1], by rw [hf.1], fun off ho => hf.2 off (by omega)⟩
  have := hf.1
  rw [this]

theorem splitThenRecon_blockFrame {g : Nat} {s t : State} (hg : g < s.groups) (h : splitThenRecon g s = .ok t) :
    BlockFrame s t := by
  obtain ⟨u, hu, h⟩ := bind_ok h
  have h1 := splitGroup_blockFrame hg hu
  exact h1.trans (reconGroup_blockFrame (by rw [h1.groups]; exact hg) h)

/-- A loop over the groups of a block whose body keeps the block's frame keeps it. -/
theorem forUp_blockFrame {body : Nat → State → Except Overflow State} {s t : State}
    (hb : ∀ g u v, g < u.groups → body g u = .ok v → BlockFrame u v) (h : forUp body 0 s.groups s = .ok t) :
    BlockFrame s t := by
  refine forUp_ok (fun _ t => BlockFrame s t) ?_ (BlockFrame.refl s) h
  intro g u v _ hg hu hv
  exact hu.trans (hb g u v (by rw [hu.groups]; omega) hv)

/-- The groups of a block, when they end, kept the block's frame, under both schedules. -/
theorem processGroups_blockFrame {s t : State} (h : processGroups s = .ok t) : BlockFrame s t := by
  unfold processGroups at h
  split at h
  · exact forUp_blockFrame (fun g u v hg hv => splitThenRecon_blockFrame hg hv) h
  · obtain ⟨u, hu, h⟩ := bind_ok h
    have h1 := forUp_blockFrame (fun g u v hg hv => splitGroup_blockFrame hg hv) hu
    have h2 : BlockFrame u t := forUp_blockFrame (fun g u v hg hv => reconGroup_blockFrame hg hv)
      (by rw [h1.groups]; exact h)
    exact h1.trans h2

/-- PROCESS answers, always: rejected, completed over its groups, or the overflow fault. -/
theorem execProcess_cases (s : State) :
    (s.inst ≠ .ready ∧ execProcess s = .next (complete .cmdNotReady s)) ∨
      (s.inst = .ready ∧ ∃ t, processGroups s = .ok t ∧ BlockFrame s t ∧
        execProcess s = .next (complete .none (cursorAdvance t))) ∨
      (s.inst = .ready ∧ (∃ e, processGroups s = .error e) ∧ execProcess s = .next (overflowFault s)) := by
  unfold execProcess processBlock
  by_cases h : s.inst = .ready
  · rw [if_pos h]
    cases hp : processGroups s with
    | ok t => exact .inr (.inl ⟨h, t, rfl, processGroups_blockFrame hp, rfl⟩)
    | error e => exact .inr (.inr ⟨h, ⟨e, rfl⟩, rfl⟩)
  · exact .inl ⟨h, by rw [if_neg h]⟩

/-! ### The buffer stays canonical -/

theorem forUp_outMem {body : Nat → State → Except Overflow State} {s t : State} {size : Nat}
    (hb : ∀ g u v, g < u.groups → 3 * u.len ≤ size → u.outMem.wf = true → u.outMem.below size = true →
      body g u = .ok v → BlockFrame u v ∧ v.outMem.wf = true ∧ v.outMem.below size = true)
    (hs : 3 * s.len ≤ size) (hw : s.outMem.wf = true) (hl : s.outMem.below size = true)
    (h : forUp body 0 s.groups s = .ok t) : t.outMem.wf = true ∧ t.outMem.below size = true := by
  refine (forUp_ok (fun _ t => BlockFrame s t ∧ t.outMem.wf = true ∧ t.outMem.below size = true) ?_
    ⟨BlockFrame.refl s, hw, hl⟩ h).2
  intro g u v _ hg hu hv
  obtain ⟨h1, h2⟩ := hb g u v (by rw [hu.1.groups]; omega) (by rw [hu.1.len]; exact hs) hu.2.1 hu.2.2 hv
  exact ⟨hu.1.trans h1, h2⟩

theorem splitGroup_outMem {g : Nat} {s t : State} (h : splitGroup g s = .ok t) : t.outMem = s.outMem := by
  unfold splitGroup at h
  obtain ⟨u, hu, h⟩ := bind_ok h
  cases h
  refine forUp_ok (fun _ u => u.outMem = s.outMem) ?_ rfl hu
  intro j a b _ _ ha hb
  obtain ⟨x, hx⟩ := splitSample_frame hb
  rw [hx]
  exact ha

/-- The groups of a block keep `OUT` canonical and inside its space. -/
theorem processGroups_outMem {s t : State} {size : Nat} (hs : 3 * s.len ≤ size) (hw : s.outMem.wf = true)
    (hl : s.outMem.below size = true) (h : processGroups s = .ok t) :
    t.outMem.wf = true ∧ t.outMem.below size = true := by
  have hrec : ∀ g u v, g < u.groups → 3 * u.len ≤ size → u.outMem.wf = true → u.outMem.below size = true →
      reconGroup g u = .ok v → BlockFrame u v ∧ v.outMem.wf = true ∧ v.outMem.below size = true := by
    intro g u v hg hsz hw hl hv
    have := group_end_le hg
    exact ⟨reconGroup_blockFrame hg hv, reconGroup_outMem (by omega) hw hl hv⟩
  unfold processGroups at h
  split at h
  · refine forUp_outMem ?_ hs hw hl h
    intro g u v hg hsz hw hl hv
    obtain ⟨a, ha, hv⟩ := bind_ok hv
    have h1 := splitGroup_blockFrame hg ha
    have h2 := splitGroup_outMem ha
    obtain ⟨h3, h4⟩ := hrec g a v (by rw [h1.groups]; exact hg) (by rw [h1.len]; exact hsz)
      (by rw [h2]; exact hw) (by rw [h2]; exact hl) hv
    exact ⟨h1.trans h3, h4⟩
  · obtain ⟨u, hu, h⟩ := bind_ok h
    have h1 := forUp_blockFrame (fun g u v hg hv => splitGroup_blockFrame hg hv) hu
    have h2 := forUp_outMem (fun g u v hg hsz hw hl hv =>
      ⟨splitGroup_blockFrame hg hv, by rw [splitGroup_outMem hv]; exact ⟨hw, hl⟩⟩) hs hw hl hu
    exact forUp_outMem hrec (by rw [h1.len]; exact hs) h2.1 h2.2 (by rw [h1.groups]; exact h)

/-! ### The stream stays good -/

theorem StreamOk.of_outMem {s : State} {m : Memory} (h : StreamOk s) : StreamOk { s with outMem := m } :=
  ⟨h.prevRange, h.hifRange, h.hifSum, h.lopassRange, h.cursorMultiple⟩

/-- Where the groups of a good stream's block end, the stream is good. -/
theorem processGroups_stream {s t : State} {k : Nat} (hlen : s.len = 2 ^ k) (hl : s.len ≤ s.hif.length)
    (hs : StreamOk s) (h : processGroups s = .ok t) : StreamOk t := by
  have hsplit : ∀ g u v, BlockFrame s u → StreamOk u → g < s.groups → splitGroup g u = .ok v →
      BlockFrame s v ∧ StreamOk v := by
    intro g u v hu1 hu2 hg hv
    obtain ⟨w, hw, h1, _⟩ := splitGroup_stream (s := u) (g := g) (k := k) (by rw [hu1.len, hlen])
      (by rw [hu1.groups]; exact hg) (by rw [hu1.len, hu1.hifLength]; exact hl) hu2
    rw [hw] at hv
    cases hv
    exact ⟨hu1.trans (splitGroup_blockFrame (by rw [hu1.groups]; exact hg) hw), h1⟩
  have hrec : ∀ g u v, BlockFrame s u → StreamOk u → g < s.groups → reconGroup g u = .ok v →
      BlockFrame s v ∧ StreamOk v := by
    intro g u v hu1 hu2 hg hv
    refine ⟨hu1.trans (reconGroup_blockFrame (by rw [hu1.groups]; exact hg) hv), ?_⟩
    rw [(reconGroup_frame hv).1]
    exact hu2.of_outMem
  unfold processGroups at h
  split at h
  · refine (forUp_ok (fun _ u => BlockFrame s u ∧ StreamOk u) ?_ ⟨BlockFrame.refl s, hs⟩ h).2
    intro g u v _ hg hu hv
    obtain ⟨a, ha, hv⟩ := bind_ok hv
    have h1 := hsplit g u a hu.1 hu.2 (by omega) ha
    exact hrec g a v h1.1 h1.2 (by omega) hv
  · obtain ⟨u, hu, h⟩ := bind_ok h
    have h1 := forUp_ok (fun _ u => BlockFrame s u ∧ StreamOk u)
      (fun g a b _ hg ha hb => hsplit g a b ha.1 ha.2 (by omega) hb) ⟨BlockFrame.refl s, hs⟩ hu
    exact (forUp_ok (fun _ u => BlockFrame s u ∧ StreamOk u)
      (fun g a b _ hg ha hb => hrec g a b ha.1 ha.2 (by omega) hb) h1 h).2

end Sys2Proof.Machine
end

