-- ==== Sys2Proof/Laws/Step.lean ====
section
/-! SUPPORT. Said once: everything a command, a host access and a step can do, and that each keeps the storage whole. -/

namespace Sys2Proof.Machine

/-! ### Commands -/

/-- Everything the pending command can do to the state (44_block_processor.md R100 to R112). -/
inductive CommandEffect (s : State) : State → Prop where
  /-- Only the completion: a rejection, a reserved word, or NOP. -/
  | only (code : ErrCode) (h : code ≠ .overflow) : CommandEffect s (complete code s)
  /-- An accepted OPEN. -/
  | opened (tbl : List Word64) (p : Pends s .openStream) (c : openCheck s.hw s.pend.blockLen.toNat = .none)
      (n : noiseGen (firGen (openClear s)) = .ok { firGen (openClear s) with noise := tbl }) :
      CommandEffect s (openReady { firGen (openClear s) with noise := tbl })
  /-- A PROCESS that ran its block. -/
  | processed (t : State) (p : Pends s .process) (r : s.inst = .ready) (g : processGroups s = .ok t)
      (f : BlockFrame s t) : CommandEffect s (complete .none (cursorAdvance t))
  /-- A PROCESS that overflowed. -/
  | faulted (p : Pends s .process) (r : s.inst = .ready) (g : ∃ e, processGroups s = .error e) :
      CommandEffect s (overflowFault s)
  /-- A CLOSE. -/
  | closed (p : Pends s .closeStream) :
      CommandEffect s (complete .none
        { discardInstance s with inst := .unconfigured, cfgN := 0, cfgRate := 0, ovf := false, lost := false })

theorem openCheck_ne_overflow (hw : Params) (n : Nat) : openCheck hw n ≠ .overflow := by
  unfold openCheck; repeat' split
  all_goals simp

/-- A micro-operation is no command (30_encoding.md R61). -/
theorem decodeCommand_isCommand {w : Word32} {i : Instr} (h : decodeCommand w = .ok i) : i.isCommand = true := by
  unfold decodeCommand at h
  repeat' split at h
  all_goals cases h
  all_goals rfl

/-- The block's command step always answers (R102), with one of the effects. -/
theorem commandStep_effect {s : State} (hb : s.busy = true) :
    ∃ t, commandStep s = .next t ∧ CommandEffect s t := by
  unfold commandStep
  cases hd : decodeCommand s.pend.word with
  | error e => exact ⟨_, rfl, .only _ (by simp)⟩
  | ok i =>
    have hc := decodeCommand_isCommand hd
    cases i <;> try cases hc
    case ok.nop.refl => exact ⟨_, rfl, .only _ (by simp)⟩
    case ok.openStream.refl =>
      rcases execOpen_cases s with ⟨_, h⟩ | ⟨h0, tbl, hn, h⟩
      · exact ⟨_, h, .only _ (openCheck_ne_overflow _ _)⟩
      · exact ⟨_, h, .opened tbl ⟨hb, hd⟩ h0 hn⟩
    case ok.process.refl =>
      rcases execProcess_cases s with ⟨_, h⟩ | ⟨hr, t, hg, hf, h⟩ | ⟨hr, hg, h⟩
      · exact ⟨_, h, .only _ (by simp)⟩
      · exact ⟨_, h, .processed t ⟨hb, hd⟩ hr hg hf⟩
      · exact ⟨_, h, .faulted ⟨hb, hd⟩ hr hg⟩
    case ok.closeStream.refl => exact ⟨_, rfl, .closed ⟨hb, hd⟩⟩
    case ok.reservedOp47.refl => exact ⟨_, rfl, .only _ (by simp)⟩
    case ok.reservedOp8F.refl => exact ⟨_, rfl, .only _ (by simp)⟩

/-! ### Host accesses -/

/-- Everything a host access can do to the state (20_memory.md R46 to R51). -/
inductive HostEffect (s : State) : State → Prop where
  /-- A read, or an ignored write: only what the host has read and the draw counter change. -/
  | read (v : Word32) (d : Nat) : HostEffect s { s with rdata := v, draws := d }
  | argRate (v : Word32) : HostEffect s { s with argRate := v }
  | argBlocklen (v : Word32) : HostEffect s { s with argBlocklen := v }
  | argSeed (v : Word32) : HostEffect s { s with argSeed := v }
  /-- A command issued. -/
  | issued (c : Word32) (b : s.busy = false) :
      HostEffect s { s with
        pend := { word := c, rate := s.argRate, blockLen := s.argBlocklen, seed := s.argSeed }, busy := true }
  /-- A command lost. -/
  | lost (b : s.busy = true) : HostEffect s { s with lost := true }
  /-- A write to `IN`. -/
  | inWrite (off n v : Nat) (b : s.busy = false) (h : off + n ≤ 3 * s.hw.nMax) :
      HostEffect s { s with inMem := memWrite s.inMem off n v }

theorem regRead_effect (r : Reg) (s : State) : HostEffect s (regRead r s) := by
  unfold regRead
  split
  · exact .read _ _
  · exact .read _ s.draws

theorem regWrite_effect (r : Reg) (v : Word32) (s : State) : HostEffect s (regWrite r v s) := by
  cases r
  case cmd =>
    show HostEffect s (issueCommand v s)
    unfold issueCommand
    by_cases hb : s.busy = true
    · rw [if_pos hb]; exact .lost hb
    · rw [if_neg hb]; exact .issued v (by simpa using hb)
  case argRate => exact .argRate v
  case argBlocklen => exact .argBlocklen v
  case argSeed => exact .argSeed v
  all_goals exact .read s.rdata s.draws

theorem legalBuffer_iff (hw : Params) (off width : Nat) :
    legalBuffer hw off width = true ↔ (width = 1 ∨ width = 2 ∨ width = 4) ∧ off + width ≤ 3 * hw.nMax := by
  unfold legalBuffer; simp [or_assoc]

theorem legalReg_iff (off width : Nat) :
    legalReg off width = true ↔ width = 4 ∧ off % 4 = 0 ∧ off < 0x100 := by
  unfold legalReg; simp [and_assoc]

/-- A host access that is answered has one of the effects. -/
theorem hostAccess_effect {a : Access} {s t : State} (h : hostAccess a s = .next t) : HostEffect s t := by
  unfold hostAccess at h
  split at h
  · unfold accessReg at h
    split at h
    · split at h <;> cases h
      · exact regRead_effect _ _
      · exact regWrite_effect _ _ _
    · cases h
  · unfold accessIn at h
    split at h
    · rename_i hl
      split at h
      · cases h; exact .read _ s.draws
      · split at h
        · cases h
        · rename_i hb
          cases h
          exact .inWrite _ _ _ (by simpa using hb) ((legalBuffer_iff _ _ _).1 hl).2
    · cases h
  · unfold accessOut at h
    split at h
    · split at h
      · split at h <;> cases h
        · exact .read _ _
        · exact .read _ s.draws
      · cases h; exact .read s.rdata s.draws
    · cases h

theorem busAccess_effect {addr width : Nat} {op : HostOp} {s t : State} (h : busAccess addr width op s = .next t) :
    HostEffect s t := by
  unfold busAccess at h
  split at h
  · exact hostAccess_effect h
  · cases h

/-! ### One step -/

theorem step_of_legal {s : State} (h : s.hw.legal = true) : step s = advance s := if_pos h

theorem legal_of_step {s t : State} (h : step s = .next t) : s.hw.legal = true := by
  unfold step at h; split at h
  · assumption
  · cases h

theorem step_seq {s : State} {w : MicroWord} {ws : List MicroWord} (hl : s.hw.legal = true) (h : s.seq = w :: ws) :
    step s = microStep w { s with seq := ws } := by
  rw [step_of_legal hl]; unfold advance; rw [h]

theorem step_move {s : State} {m : Move} {ms : List Move} (hl : s.hw.legal = true) (hs : s.seq = [])
    (h : s.inputs = m :: ms) : step s = takeMove m { s with inputs := ms } := by
  rw [step_of_legal hl]; unfold advance; rw [hs, h]

theorem step_block {s : State} (hl : s.hw.legal = true) (hs : s.seq = []) (h : s.inputs = []) :
    step s = blockTurn s := by
  rw [step_of_legal hl]; unfold advance; rw [hs, h]

theorem with_inputs_self {s : State} {ms : List Move} (h : s.inputs = ms) : { s with inputs := ms } = s := by
  subst h; rfl

/-- Everything a step with an empty sequencer can do: with the moves that are left, an effect of a host access, of the
pending command, or the platform's reset. -/
inductive StepEffect (s t : State) : Prop where
  | host (ms : List Move) (h : HostEffect { s with inputs := ms } t)
      (o : t.inMem = s.inMem ∨ (∃ a, s.inputs = .access a :: ms) ∨ ∃ addr width op, s.inputs = .bus addr width op :: ms)
  | command (ms : List Move) (b : s.busy = true) (h : CommandEffect { s with inputs := ms } t)
  | reset (ms : List Move) (o : s.inputs = .reset :: ms) (h : t = platformReset { s with inputs := ms })

theorem step_effect {s t : State} (hs : s.seq = []) (h : step s = .next t) : StepEffect s t := by
  have hl := legal_of_step h
  have hcmd : ∀ ms, s.busy = true → commandStep { s with inputs := ms } = .next t → StepEffect s t := by
    intro ms hb hc
    obtain ⟨u, hu, he⟩ := commandStep_effect (s := { s with inputs := ms }) hb
    rw [hu] at hc; cases hc
    exact .command ms hb he
  have hturn : ∀ ms, blockTurn { s with inputs := ms } = .next t → StepEffect s t := by
    intro ms hc
    unfold blockTurn at hc
    cases hb : s.busy
    · rw [if_neg (by simp [hb])] at hc; cases hc
      exact .host ms (.read s.rdata s.draws) (.inl rfl)
    · rw [if_pos (by simp [hb])] at hc
      exact hcmd ms hb hc
  cases hi : s.inputs with
  | nil =>
    rw [step_block hl hs hi, ← with_inputs_self hi] at h
    exact hturn [] h
  | cons m ms =>
    rw [step_move hl hs hi] at h
    cases m with
    | access a => exact .host ms (hostAccess_effect h) (.inr (.inl ⟨a, hi⟩))
    | bus addr width op => exact .host ms (busAccess_effect h) (.inr (.inr ⟨addr, width, op, hi⟩))
    | block => exact hturn ms h
    | reset => cases h; exact .reset ms hi rfl
    | wait =>
      change hostWait _ = _ at h
      unfold hostWait at h
      cases hb : s.busy
      · rw [if_neg (by simp [hb])] at h; cases h
        exact .host ms (regRead_effect _ _) (.inl (by unfold regRead readAny; split <;> rfl))
      · rw [if_pos (by simp [hb])] at h
        exact hcmd (.wait :: ms) hb h

/-! ### The storage stays whole -/

theorem StorageOk.complete {s : State} (code : ErrCode) (h : StorageOk s) : StorageOk (complete code s) :=
  ⟨h.1, h.2, h.3, h.4, h.5, h.6, h.7, h.8, h.9, h.10, h.11⟩

theorem len_le_of_openCheck {hw : Params} {n : Nat} (h : openCheck hw n = .none) : n ≤ hw.nMax :=
  ((openCheck_none_iff hw n).1 h).2.2

theorem groups_le_len (s : State) : s.groups ≤ s.len := Nat.div_le_self _ _

theorem StorageOk.overflowFault {s : State} (h : StorageOk s) : StorageOk (overflowFault s) := by
  have hb := h.lenBound
  have hg := groups_le_len s
  refine ⟨h.legal, ?_, ?_, h.firLength, h.noiseLength, freeCursor_lt _ _, h.lenBound, h.inCanonical, ?_, h.inInside, ?_⟩
  · simp only [overflowFault_hif, List.length_append, freeWords_length, List.length_drop, h.hifLength, overflowFault_hw]
    omega
  · simp only [overflowFault_lopass, List.length_append, freeWords_length, List.length_drop, h.lopassLength,
      overflowFault_hw]
    omega
  · exact fillFree_wf _ _ _ h.outCanonical
  · exact fillFree_below (by simpa using hb) h.outInside

theorem StorageOk.discardInstance {s : State} (h : StorageOk s) : StorageOk (discardInstance s) :=
  ⟨h.legal, freeWords_length _ _, freeWords_length _ _, h.firLength, h.noiseLength, freeCursor_lt _ _,
    h.lenBound, h.inCanonical, h.outCanonical, h.inInside, h.outInside⟩

theorem StorageOk.platformReset {s : State} (hl : s.hw.legal = true) : StorageOk (platformReset s) :=
  ⟨hl, freeWords_length _ _, freeWords_length _ _, freeWords_length _ _, freeWords_length _ _, freeCursor_lt _ _,
    Nat.zero_le _, fillFree_wf _ _ _ rfl, fillFree_wf _ _ _ rfl, fillFree_below (Nat.zero_add _).le rfl,
    fillFree_below (Nat.zero_add _).le rfl⟩

theorem StorageOk.opened {s : State} {tbl : List Word64} (h : StorageOk s) (hn : s.pend.blockLen.toNat ≤ s.hw.nMax)
    (ht : tbl.length = s.hw.nl) : StorageOk (openReady { firGen (openClear s) with noise := tbl }) := by
  have hd : s.pend.blockLen.toNat / s.hw.f ≤ s.pend.blockLen.toNat := Nat.div_le_self _ _
  refine ⟨h.legal, ?_, ?_, ?_, ht, nl_pos _, hn, h.inCanonical, h.outCanonical, h.inInside, h.outInside⟩
  · simp; omega
  · simp; omega
  · simp; omega

/-- What the groups of a block change keeps the storage whole. -/
theorem StorageOk.of_blockFrame {s t : State} (h : StorageOk s) (f : BlockFrame s t)
    (ho : t.outMem.wf = true ∧ t.outMem.below (3 * s.hw.nMax) = true) : StorageOk t := by
  have e := f.same
  refine ⟨by rw [e]; exact h.legal, by rw [f.hifLength, f.hw]; exact h.hifLength,
    by rw [f.lopassLength, f.hw]; exact h.lopassLength, by rw [e]; exact h.firLength, by rw [e]; exact h.noiseLength,
    by rw [e]; exact h.cursorBound, by rw [f.len, f.hw]; exact h.lenBound, by rw [e]; exact h.inCanonical, ho.1,
    by rw [e]; exact h.inInside, by rw [f.hw]; exact ho.2⟩

theorem StorageOk.cursorAdvance {s : State} (h : StorageOk s) : StorageOk (cursorAdvance s) :=
  ⟨h.1, h.2, h.3, h.4, h.5, by rw [cursorAdvance_noisei, mask_nl]; exact Nat.mod_lt _ (nl_pos _), h.7, h.8, h.9, h.10,
    h.11⟩

/-- A command keeps the storage whole. -/
theorem CommandEffect.storage {s t : State} (e : CommandEffect s t) (h : StorageOk s) : StorageOk t := by
  cases e with
  | only code _ => exact h.complete code
  | opened tbl _ c n =>
    obtain ⟨tbl', h', hl, _⟩ := noiseGen_ok (firGen (openClear s))
    rw [n] at h'
    injection h' with h'
    have : tbl = tbl' := congrArg State.noise h'
    exact h.opened (len_le_of_openCheck c) (by rw [this, hl]; rfl)
  | processed u _ _ g f =>
    have ho := processGroups_outMem (size := 3 * s.hw.nMax) (by have := h.lenBound; omega) h.outCanonical h.outInside g
    exact ((h.of_blockFrame f ho).cursorAdvance).complete _
  | faulted _ _ _ => exact h.overflowFault
  | closed _ =>
    have := h.discardInstance
    exact ⟨this.1, this.2, this.3, this.4, this.5, this.6, Nat.zero_le _, this.8, this.9, this.10, this.11⟩

/-- A host access keeps the storage whole. -/
theorem HostEffect.storage {s t : State} (e : HostEffect s t) (h : StorageOk s) : StorageOk t := by
  cases e with
  | inWrite off n v b hb =>
    exact ⟨h.1, h.2, h.3, h.4, h.5, h.6, h.7, memWrite_wf _ _ _ h.8, h.9, memWrite_below hb h.10, h.11⟩
  | _ => exact ⟨h.1, h.2, h.3, h.4, h.5, h.6, h.7, h.8, h.9, h.10, h.11⟩

theorem StorageOk.with_inputs {s : State} (ms : List Move) (h : StorageOk s) : StorageOk { s with inputs := ms } :=
  ⟨h.1, h.2, h.3, h.4, h.5, h.6, h.7, h.8, h.9, h.10, h.11⟩

end Sys2Proof.Machine
end

