-- ==== Sys2Proof/Laws/HostPort.lean ====
section
/-! SUPPORT. The host port: what each move and each register access answers, once; and runs of a few steps. -/

namespace Sys2Proof.Machine

theorem takeMove_access (a : Access) (s : State) : takeMove (.access a) s = hostAccess a s := rfl
theorem takeMove_bus (addr width : Nat) (op : HostOp) (s : State) :
    takeMove (.bus addr width op) s = busAccess addr width op s := rfl
theorem takeMove_wait (s : State) : takeMove .wait s = hostWait s := rfl
theorem takeMove_block (s : State) : takeMove .block s = blockTurn s := rfl
theorem takeMove_reset (s : State) : takeMove .reset s = .next (platformReset s) := rfl

theorem hostAccess_reg (off width : Nat) (op : HostOp) (s : State) :
    hostAccess { space := .reg, off := off, width := width, op := op } s = accessReg off width op s := rfl
theorem hostAccess_inp (off width : Nat) (op : HostOp) (s : State) :
    hostAccess { space := .inp, off := off, width := width, op := op } s = accessIn off width op s := rfl
theorem hostAccess_out (off width : Nat) (op : HostOp) (s : State) :
    hostAccess { space := .out, off := off, width := width, op := op } s = accessOut off width op s := rfl

theorem step_access {s : State} {a : Access} {ms : List Move} (hl : s.hw.legal = true) (hs : s.seq = [])
    (hi : s.inputs = .access a :: ms) : step s = hostAccess a { s with inputs := ms } := by
  rw [step_move hl hs hi, takeMove_access]

/-- A legal read of a register. -/
theorem step_regRead {s : State} {off : Nat} {ms : List Move} (hl : s.hw.legal = true) (hs : s.seq = [])
    (h4 : off % 4 = 0) (ho : off < 0x100)
    (hi : s.inputs = .access { space := .reg, off := off, width := 4, op := .read } :: ms) :
    step s = .next (regRead (regAt off) { s with inputs := ms }) := by
  rw [step_access hl hs hi, hostAccess_reg]
  unfold accessReg
  rw [if_pos ((legalReg_iff _ _).2 ⟨rfl, h4, ho⟩)]

/-- A legal write of a register. -/
theorem step_regWrite {s : State} {off : Nat} {v : Word32} {ms : List Move} (hl : s.hw.legal = true) (hs : s.seq = [])
    (h4 : off % 4 = 0) (ho : off < 0x100)
    (hi : s.inputs = .access { space := .reg, off := off, width := 4, op := .write v } :: ms) :
    step s = .next (regWrite (regAt off) v { s with inputs := ms }) := by
  rw [step_access hl hs hi, hostAccess_reg]
  unfold accessReg
  rw [if_pos ((legalReg_iff _ _).2 ⟨rfl, h4, ho⟩)]

theorem regAt_regOffset (r : Reg) : regAt (regOffset r) = r := by cases r <;> rfl

theorem regAt_reserved {off : Nat} (h : 0x34 ≤ off) : regAt off = .reserved := by
  unfold regAt
  repeat rw [if_neg (by omega)]

/-- What a read of a register leaves, where it has a value. -/
theorem regRead_of_value {r : Reg} {s : State} (h : s.busy = false ∨ anyWhileBusy r = false) :
    regRead r s = { s with rdata := regValue s r } := by
  unfold regRead
  rw [if_neg (by rcases h with h | h <;> simp [h])]

theorem regValue_inputs (s : State) (ms : List Move) (r : Reg) : regValue { s with inputs := ms } r = regValue s r := by
  cases r <;> rfl

theorem run_zero (s : State) : run 0 s = .next s := rfl

theorem core_run_succ (M : Host.Core) (n : Nat) {s t : M.State} (h : M.step s = .next t) :
    M.run (n + 1) s = M.run n t := by
  rw [Host.Core.run, h]

/-- A run goes on after a step that is answered. -/
theorem run_succ {s t : State} (n : Nat) (h : step s = .next t) : run (n + 1) s = run n t :=
  core_run_succ core n h

end Sys2Proof.Machine
end

