-- ==== Sys2Proof/Laws/PerInstr.lean ====
section
/-! SUPPORT. Statements about every instruction as syntax, one lemma for each constructor (LAWS.json). -/

namespace Sys2Proof.Laws.Format

/-- The kind of an instruction is the kind of its code (30_encoding.md R61, R62, R69): a command is a 32-bit word with
`RSVD = 0`, and a micro-operation's word carries its identifier in bits `[7:0]`. -/
def Statement (i : Instr) : Prop :=
  (i.isCommand = true ∧ ∃ w, encode i = .command w ∧ rsvdField w = 0) ∨
    (i.isCommand = false ∧ ∃ w, encode i = .micro w ∧ microIdField w = i.microId)

theorem rsvd_commandWord (op : BitVec 4) : rsvdField ((0 : BitVec 28) ++ op) = 0 := by
  unfold rsvdField; exact BitVec.extractLsb'_append_eq_left

theorem microId_append {n : Nat} (x : BitVec n) (id : BitVec 8) (h : n + 8 = 104) :
    microIdField ((x ++ id).cast h) = id := by
  obtain rfl : n = 96 := by omega
  unfold microIdField; exact BitVec.extractLsb'_append_eq_right

theorem nop : Statement .nop := .inl ⟨rfl, _, rfl, rsvd_commandWord _⟩
theorem openStream : Statement .openStream := .inl ⟨rfl, _, rfl, rsvd_commandWord _⟩
theorem process : Statement .process := .inl ⟨rfl, _, rfl, rsvd_commandWord _⟩
theorem closeStream : Statement .closeStream := .inl ⟨rfl, _, rfl, rsvd_commandWord _⟩
theorem reservedOp47 (low : BitVec 2) : Statement (.reservedOp47 low) := .inl ⟨rfl, _, rfl, rsvd_commandWord _⟩
theorem reservedOp8F (low : BitVec 3) : Statement (.reservedOp8F low) := .inl ⟨rfl, _, rfl, rsvd_commandWord _⟩
theorem firGen : Statement .firGen := .inr ⟨rfl, _, rfl, microId_append _ _ rfl⟩
theorem noiseGen : Statement .noiseGen := .inr ⟨rfl, _, rfl, microId_append _ _ rfl⟩
theorem splitSample (j : Nat) : Statement (.splitSample j) := .inr ⟨rfl, _, rfl, microId_append _ _ rfl⟩
theorem lpStore (g : Nat) : Statement (.lpStore g) := .inr ⟨rfl, _, rfl, microId_append _ _ rfl⟩
theorem splitGroup (g : Nat) : Statement (.splitGroup g) := .inr ⟨rfl, _, rfl, microId_append _ _ rfl⟩
theorem reconSubsample (g p : Nat) : Statement (.reconSubsample g p) := .inr ⟨rfl, _, rfl, microId_append _ _ rfl⟩
theorem reconGroup (g : Nat) : Statement (.reconGroup g) := .inr ⟨rfl, _, rfl, microId_append _ _ rfl⟩
theorem decode24 (j : Nat) : Statement (.decode24 j) := .inr ⟨rfl, _, rfl, microId_append _ _ rfl⟩
theorem encode24 (j : Nat) (y : Word64) : Statement (.encode24 j y) := .inr ⟨rfl, _, rfl, microId_append _ _ rfl⟩
theorem cursorAdvance : Statement .cursorAdvance := .inr ⟨rfl, _, rfl, microId_append _ _ rfl⟩

end Sys2Proof.Laws.Format
end

