-- ==== Sys2Proof/Laws/Sequencer.lean ====
section
/-! SUPPORT. The sequencer: the micro-operations do not read it, a list of them runs one by one, and the overflow fault
inside a block is the same from every state of the block. -/

namespace Sys2Proof.Machine

/-- The state with these words in the sequencer. -/
abbrev State.withSeq (s : State) (w : List MicroWord) : State := { s with seq := w }

/-! ### The micro-operations do not read the sequencer -/

/-- The values `SPLIT_SAMPLE` computes from its operands: the new estimate, the new ring entry, the new sum. -/
def splitValues (b n : Nat) (v prev hifsum old : Word64) : Except Overflow (Word64 × Word64 × Word64) := do
  let prev' ← leak b prev v
  let r ← sub64 v prev'
  let mag ← abs64 r
  let less ← sub64 hifsum old
  let sum ← add64 less (asr mag (hifShift n))
  .ok (prev', asr mag (hifShift n), sum)

/-- `SPLIT_SAMPLE(j)` reads the sample, the estimate, the sum and the ring entry, and writes the last three. -/
theorem splitSample_values (j : Nat) (s : State) :
    splitSample j s =
      (splitValues s.hw.fBits s.len (decodeSample s j) s.prev s.hifsum (readAt s.hif j)).map
        fun x => { s with prev := x.1, hifsum := x.2.2, hif := s.hif.set j x.2.1 } := by
  unfold splitSample splitValues
  simp only [bind, Except.bind]
  cases leak s.hw.fBits s.prev (decodeSample s j) with
  | error e => rfl
  | ok prev =>
    simp only
    cases sub64 (decodeSample s j) prev with
    | error e => rfl
    | ok r =>
      simp only
      cases abs64 r with
      | error e => rfl
      | ok mag =>
        simp only
        cases sub64 s.hifsum (readAt s.hif j) with
        | error e => rfl
        | ok less =>
          simp only
          cases add64 less (asr mag (hifShift s.len)) <;> rfl

theorem splitSample_withSeq (j : Nat) (s : State) (w : List MicroWord) :
    splitSample j (s.withSeq w) = (splitSample j s).map (·.withSeq w) := by
  rw [splitSample_values, splitSample_values]
  change (splitValues s.hw.fBits s.len (decodeSample s j) s.prev s.hifsum (readAt s.hif j)).map _ = _
  cases splitValues s.hw.fBits s.len (decodeSample s j) s.prev s.hifsum (readAt s.hif j) <;> rfl

theorem reconSubsample_withSeq (g p : Nat) (s : State) (w : List MicroWord) :
    reconSubsample g p (s.withSeq w) = (reconSubsample g p s).map (·.withSeq w) := by
  unfold reconSubsample
  change (reconAcc s g p >>= _) = _
  cases reconAcc s g p <;> rfl

theorem forUp_withSeq {body : Nat → State → Except Overflow State}
    (h : ∀ k s w, body k (State.withSeq s w) = (body k s).map (·.withSeq w)) (i n : Nat) (s : State)
    (w : List MicroWord) : forUp body i n (s.withSeq w) = (forUp body i n s).map (·.withSeq w) := by
  induction n generalizing i s with
  | zero => rfl
  | succ n ih =>
    rw [forUp_succ, forUp_succ, h]
    cases body i s with
    | error e => rfl
    | ok t => exact ih _ _

theorem splitGroup_withSeq (g : Nat) (s : State) (w : List MicroWord) :
    splitGroup g (s.withSeq w) = (splitGroup g s).map (·.withSeq w) := by
  unfold splitGroup
  change (forUp splitSample (g * s.hw.f) s.hw.f (s.withSeq w) >>= _) = _
  rw [forUp_withSeq splitSample_withSeq]
  cases forUp splitSample (g * s.hw.f) s.hw.f s <;> rfl

theorem reconGroup_withSeq (g : Nat) (s : State) (w : List MicroWord) :
    reconGroup g (s.withSeq w) = (reconGroup g s).map (·.withSeq w) :=
  forUp_withSeq (reconSubsample_withSeq g) 0 s.hw.f s w

/-! ### The overflow fault inside a block -/

/-- A state inside the block that began at `s`. -/
structure InBlock (s t : State) : Prop where
  frame : BlockFrame s t
  canonical : t.outMem.wf = true

theorem InBlock.hw {s t : State} (h : InBlock s t) : t.hw = s.hw := h.frame.hw

/-- What a step of the block changed is what the fault makes any value, so the fault is the same from every state of the
block (60_exceptions.md R123). -/
theorem overflowFault_inBlock {s t : State} (h : InBlock s t) (hw : s.outMem.wf = true) :
    overflowFault t = overflowFault s := by
  have e := h.frame.same
  have hd : t.draws = s.draws := by rw [e]
  have hm : t.outMem.fillFree (s.draws + 3 + s.len + s.groups) 0 (3 * s.len)
      = s.outMem.fillFree (s.draws + 3 + s.len + s.groups) 0 (3 * s.len) :=
    fillFree_eq_of_outside hw h.canonical fun x hx => h.frame.outRest x (by omega)
  unfold overflowFault
  rw [h.frame.len, h.frame.groups, h.frame.hifRest, h.frame.lopassRest, hd, h.hw, hm, e]

/-! ### Running a list of micro-operations -/

/-- One instruction, taken from the sequencer, does to the state what `body` does, or faults. -/
def RunsAs (i : Instr) (body : State → Except Overflow State) (s : State) : Prop :=
  ∀ rest : List MicroWord,
    step (s.withSeq (microWordOf i :: rest)) =
      .next (match body s with
        | .ok t => t.withSeq rest
        | .error _ => overflowFault s)

/-- A micro-operation whose word decodes to it and whose meaning is `body`, which does not read the sequencer. -/
theorem runsAs_of_exec {i : Instr} {body : State → Except Overflow State} {s : State} (hl : s.hw.legal = true)
    (hd : decodeMicro (microWordOf i) = .ok i)
    (he : ∀ w, exec i (s.withSeq w) = .next (settle (s.withSeq w) (body (s.withSeq w))))
    (hb : ∀ w, body (s.withSeq w) = (body s).map (·.withSeq w)) : RunsAs i body s := by
  intro rest
  rw [step_seq (s := s.withSeq (microWordOf i :: rest)) (w := microWordOf i) (ws := rest) hl rfl]
  unfold microStep
  rw [hd]
  show exec i (s.withSeq rest) = _
  rw [he, hb]
  cases body s <;> rfl

/-- `SPLIT_SAMPLE(j)` from the sequencer. -/
theorem runsAs_splitSample {s : State} {j : Nat} (hl : s.hw.legal = true)
    (hd : decodeMicro (microWordOf (.splitSample j)) = .ok (.splitSample j)) (hj : j < s.hw.nMax) :
    RunsAs (.splitSample j) (splitSample j) s :=
  runsAs_of_exec hl hd (fun _ => if_pos hj) fun w => splitSample_withSeq j s w

/-- Bodies one after another, ending at the first overflow. -/
def seqBody : List (Instr × (State → Except Overflow State)) → State → Except Overflow State
  | [], s => .ok s
  | x :: xs, s => (x.2 s).bind (seqBody xs)

theorem seqBody_append (l l' : List (Instr × (State → Except Overflow State))) (s : State) :
    seqBody (l ++ l') s = (seqBody l s).bind (seqBody l') := by
  induction l generalizing s with
  | nil => rfl
  | cons x xs ih =>
    rw [List.cons_append, seqBody, seqBody]
    cases x.2 s with
    | error e => rfl
    | ok t => exact ih t

/-- A list of micro-operations in the sequencer runs to its end, or to the fault of the block's first state. -/
theorem run_seqBody (s : State) (hw : s.outMem.wf = true) (l : List (Instr × (State → Except Overflow State)))
    (t : State) (hm : InBlock s t)
    (hr : ∀ x ∈ l, ∀ u, InBlock s u → RunsAs x.1 x.2 u ∧ ∀ v, x.2 u = .ok v → InBlock s v) (rest : List MicroWord) :
    (∃ u, seqBody l t = .ok u ∧ InBlock s u ∧
        ∀ k, run (l.length + k) (t.withSeq (l.map (fun x => microWordOf x.1) ++ rest)) = run k (u.withSeq rest)) ∨
      ((∃ e, seqBody l t = .error e) ∧
        ∃ n ≤ l.length, run n (t.withSeq (l.map (fun x => microWordOf x.1) ++ rest)) = .next (overflowFault s)) := by
  induction l generalizing t with
  | nil => exact .inl ⟨t, rfl, hm, fun k => by rw [List.length_nil, Nat.zero_add]; rfl⟩
  | cons x xs ih =>
    obtain ⟨h1, h2⟩ := hr x (by simp) t hm
    have hst := h1 (xs.map (fun x => microWordOf x.1) ++ rest)
    rw [seqBody]
    cases hb : x.2 t with
    | error e =>
      rw [hb] at hst
      refine .inr ⟨⟨e, rfl⟩, 1, by simp, ?_⟩
      rw [← overflowFault_inBlock hm hw]
      exact run_succ 0 hst
    | ok v =>
      rw [hb] at hst
      rcases ih v (h2 v hb) (fun y hy => hr y (by simp [hy])) with ⟨u, a, b, c⟩ | ⟨⟨e, a⟩, n, hn, c⟩
      · refine .inl ⟨u, a, b, fun k => ?_⟩
        have := run_succ (xs.length + k) hst
        rw [c k] at this
        rw [List.length_cons, show xs.length + 1 + k = xs.length + k + 1 by omega]
        exact this
      · exact .inr ⟨⟨e, a⟩, n + 1, by simpa using hn, (run_succ n hst).trans c⟩

end Sys2Proof.Machine
end

