-- ==== Sys2Proof/Tests/Slice0.lean ====
section
/-! SUPPORT. Tests of the model against spec/95_test_vectors.md and the encodings of spec/30_encoding.md, and witnesses:
concrete states and operands that meet the hypotheses of the statements. Expected values are the spec's. -/

namespace Sys2Proof.Tests

open Machine

/-! ### Well-formedness: an ill-formed term for each check -/

theorem test_splitSample_index_too_wide : (Instr.splitSample (2 ^ 32)).wellFormed = false := by decide
theorem test_lpStore_index_too_wide : (Instr.lpStore (2 ^ 32)).wellFormed = false := by decide
theorem test_splitGroup_index_too_wide : (Instr.splitGroup (2 ^ 32)).wellFormed = false := by decide
theorem test_reconSubsample_group_too_wide : (Instr.reconSubsample (2 ^ 32) 0).wellFormed = false := by decide
theorem test_reconSubsample_phase_too_wide : (Instr.reconSubsample 0 (2 ^ 32)).wellFormed = false := by decide
theorem test_reconGroup_index_too_wide : (Instr.reconGroup (2 ^ 32)).wellFormed = false := by decide
theorem test_decode24_index_too_wide : (Instr.decode24 (2 ^ 32)).wellFormed = false := by decide
theorem test_encode24_index_too_wide : (Instr.encode24 (2 ^ 32) 0).wellFormed = false := by decide
theorem test_largest_index_fits : (Instr.encode24 (2 ^ 32 - 1) 0).wellFormed = true := by decide

/-! ### Decoding: words written out from R62, R63, R69 -/

theorem test_decode_nop : decode (.command 0b00000000000000000000000000000000) = .ok .nop := by decide
theorem test_decode_open : decode (.command 0b00000000000000000000000000000001) = .ok .openStream := by decide
theorem test_decode_process : decode (.command 0b00000000000000000000000000000010) = .ok .process := by decide
theorem test_decode_close : decode (.command 0b00000000000000000000000000000011) = .ok .closeStream := by decide
theorem test_decode_reserved_low : decode (.command 0b00000000000000000000000000000110) = .ok (.reservedOp47 2) := by
  decide
theorem test_decode_reserved_high : decode (.command 0b00000000000000000000000000001101) = .ok (.reservedOp8F 5) := by
  decide
theorem test_decode_reserved_bits : decode (.command 0b00000000000000000000000000010010) = .error .reservedBits := by
  decide
theorem test_decode_firGen : decode (.micro 0x10) = .ok .firGen := by decide
theorem test_decode_noiseGen : decode (.micro 0x11) = .ok .noiseGen := by decide
theorem test_decode_splitSample : decode (.micro 0x0000012C20) = .ok (.splitSample 300) := by decide
theorem test_decode_lpStore : decode (.micro 0x0000000721) = .ok (.lpStore 7) := by decide
theorem test_decode_splitGroup : decode (.micro 0x0000000222) = .ok (.splitGroup 2) := by decide
theorem test_decode_reconSubsample : decode (.micro 0x000000030000000530) = .ok (.reconSubsample 5 3) := by decide
theorem test_decode_reconGroup : decode (.micro 0xFFFFFFFF31) = .ok (.reconGroup 4294967295) := by decide
theorem test_decode_decode24 : decode (.micro 0x0000000940) = .ok (.decode24 9) := by decide
theorem test_decode_encode24 : decode (.micro 0xFFFFFFFFFFFFFFFE0000000441) = .ok (.encode24 4 (-2)) := by decide
theorem test_decode_cursorAdvance : decode (.micro 0x42) = .ok .cursorAdvance := by decide
theorem test_decode_unknown_identifier : decode (.micro 0x43) = .error .unknownMicro := by decide
theorem test_decode_operand_where_none : decode (.micro 0x0142) = .error .operandBits := by decide
theorem test_decode_bytes_lowest_first : decodeBytes [0x02, 0x00, 0x00, 0x00] = .ok .process := by decide
theorem test_decode_three_bytes : decodeBytes [0x02, 0x00, 0x00] = .error .length := by decide

/-! ### The test configuration V of 95_test_vectors.md section 3 -/

/-- `LIN`. -/
def lin : List Word64 := [0, 2 ^ 30, 2 ^ 31, 3 * 2 ^ 30, 2 ^ 32, 3 * 2 ^ 30, 2 ^ 31, 2 ^ 30]

/-- `TD`. -/
def td : List Draw := [2 ^ 22 - 1, -2 ^ 22, 2 ^ 21, -2 ^ 21, 2 ^ 20, -2 ^ 20, 1, -1, 0, 0, 0, 0, 0, 0, 0, 0]

/-- The noise table G2 of section 2.2. -/
def g2 : List Word64 :=
  [3145728, -3932160, 1769472, -1818624, 995328, -826368, 166657, 124992, 93744, 70308, 52731, 39548, 29661, 22245,
    16683, 12512]

def hwV : Params where
  fBits := 2
  nMaxBits := 3
  nlBits := 4
  noiseShift := 0
  outShift := 32
  schedule := .interleaved
  noiseIndex := .phase
  firTable := .table [(8, lin)]
  noiseDraw := { rows := [], others := td }
  regBase := 0
  inBase := 0x1000
  outBase := 0x2000

/-- Configuration V after reset. -/
def resetV : State :=
  { State.reset with
    hw := hwV
    hif := List.replicate 8 0
    lopass := List.replicate 8 0
    fir := List.replicate 8 0
    noise := List.replicate 16 0 }

/-- Configuration V after the OPEN of section 3, with an all-zero `IN`. -/
def readyV : State := { resetV with inst := .ready, cfgN := 8, cfgRate := 44100, fir := lin, noise := g2 }

/-- The step block of section 3.2 in `IN`. -/
def stepV : State := { readyV with inMem := [(14, 0x10), (17, 0x10), (20, 0x10), (23, 0x10)] }

/-- After the splits of V2 and V3: the state in which section 3.2 reconstructs group 1. -/
def splitV : State :=
  { stepV with
    prev := 716800
    hifsum := 134400
    hif := [0, 0, 0, 0, 49152, 36864, 27648, 20736]
    lopass := [0, 716800, 0, 0, 0, 0, 0, 0] }

/-- Section 4.4: every coefficient is `2^62`. -/
def hotV : State :=
  { stepV with
    hw := { hwV with firTable := .table [(8, List.replicate 8 (2 ^ 62))] }
    fir := List.replicate 8 (2 ^ 62) }

/-- A pending command in a state. -/
def pending (s : State) (word blockLen : Word32) : State :=
  { s with busy := true, pend := { word := word, rate := 44100, blockLen := blockLen, seed := 7 } }

/-- The state in which an overflow fault has left configuration V. -/
def faultV : State := { readyV with inst := .fault, ovf := true, errcode := .overflow }

/-- The next state of an outcome, `State.reset` if there is none. -/
def nextOf : Host.Outcome State Fault Refusal → State
  | .next t => t
  | .fault _ => State.reset
  | .refused _ => State.reset

/-- The output block as signed samples. -/
def outs (s : State) : List Int := (List.range 8).map fun j => sext24 (memRead s.outMem (3 * j) 3)

/-! ### One step of each instruction -/

/-- Section 4.5: NOP clears `ERRCODE`. -/
theorem test_nop : statusWord (nextOf (step (pending { readyV with errcode := .cmdReservedOp } 0 0))) = 0x001 := by
  decide +kernel

/-- Section 3: OPEN with `N = 8` and seed 7. -/
theorem test_open_accepted :
    (let t := nextOf (step (pending resetV 1 8))
     decide (t.noise = g2) && decide (t.fir = lin) && decide (statusWord t = 0x001) && decide (t.cfgN = 8) &&
      decide (t.cfgRate = 44100)) = true := by decide +kernel

/-- Section 4.5: the rejected lengths 6, 0, 2, 16, 3. -/
theorem test_open_rejected :
    ([6, 0, 2, 16, 3].map fun n => statusWord (nextOf (step (pending resetV 1 n)))) =
      [0x100, 0x100, 0x200, 0x300, 0x100] := by decide +kernel

/-- Sections 3.2 and 3.4: the first output block under the three parameter choices. -/
theorem test_process_step_block :
    ([hwV, { hwV with schedule := .splitAllFirst }, { hwV with noiseIndex := .output }].map fun hw =>
        outs (nextOf (step (pending { stepV with hw := hw } 2 0)))) =
      [[0, 0, 0, 0, 98, 179076, 358455, 537543],
        [716898, 537476, 358455, 179143, 98, 179076, 358455, 537543],
        [0, 0, 0, 0, 31, 179174, 358405, 537603]] := by decide +kernel

/-- Section 4.4: the overflow, and PROCESS rejected after it. -/
theorem test_process_overflow :
    (let t := nextOf (step (pending hotV 2 0))
     [statusWord t, statusWord (nextOf (step (pending t 2 0)))]) = [0x70A, 0x60A] := by decide +kernel

/-- Section 4.5: CLOSE in the fault. -/
theorem test_close : statusWord (nextOf (step (pending faultV 3 0))) = 0x000 := by decide +kernel

/-- 10_state.md R24: CLOSE writes neither table. -/
theorem test_close_keeps_tables :
    (nextOf (step (pending readyV 3 0))).fir = lin ∧ (nextOf (step (pending readyV 3 0))).noise = g2 := by decide +kernel

/-- Section 4.5: the reserved words `0x4` and `0xF`, and `0x12` whose reserved bits come first. -/
theorem test_reserved_words :
    ([0x4, 0xF, 0x12].map fun w => statusWord (nextOf (step (pending readyV w 0)))) = [0x401, 0x401, 0x501] := by
  decide +kernel

/-- Section 2.1, the row `(8, 4)`, by `FIR_GEN` with the reference generator. -/
theorem test_firGen_reference :
    (nextOf (exec .firGen { readyV with hw := { hwV with firTable := .reference } })).fir.map BitVec.toInt =
      [0, 276775875, 1476500995, 3345847839, 4294967296, 3345847839, 1476500995, 276775875] := by decide +kernel

/-- Section 2.1, the rows `(8, 2)`, `(8, 8)`, `(2, 2)` and `(1, 1)` in part. -/
theorem test_firGen_corners :
    [refCoeff 8 2 1, refCoeff 8 2 3, refCoeff 8 8 0, refCoeff 2 2 0, refCoeff 1 1 0, refCoeff 256 4 125] =
      [-391420196, 4731743392, 109370444, 437481776, 1374389534, 1287336519] := by decide +kernel

/-- Section 2.2, G1. -/
theorem test_noiseGen :
    (nextOf (exec .noiseGen { readyV with hw := { hwV with
      fBits := 1, nlBits := 3, noiseDraw := { rows := [], others := [1000, 1000, -1000, 0, 500, -500, 7, -7] } } })).noise
      = [500, 250, -875, 62, 281, -360, 74, 30] := by decide +kernel

/-- Section 3.1, V2. -/
theorem test_splitSample_step :
    (let t := nextOf (exec (.splitSample 4) stepV)
     [t.prev, t.hifsum, readAt t.hif 4]) = [262144, 49152, 49152] := by decide +kernel

/-- Section 3.1, V6: the largest residual. -/
theorem test_splitSample_extreme :
    (let t := nextOf (exec (.splitSample 0) { readyV with prev := 8388607, inMem := [(2, 0x80)] })
     [t.prev, t.hifsum]) = [4194304, 786432] := by decide +kernel

/-- Section 3.1, V3: `LP_STORE(1)`. -/
theorem test_lpStore : (nextOf (exec (.lpStore 1) { readyV with prev := 716800 })).lopass.take 2 = [0, 716800] := by
  decide +kernel

/-- Section 3.1, V2 and V3: group 1. -/
theorem test_splitGroup :
    (let t := nextOf (exec (.splitGroup 1) stepV)
     decide (t.hif = splitV.hif) && decide (t.lopass = splitV.lopass) && decide (t.hifsum = 134400)) = true := by
  decide +kernel

/-- Section 3.2: output 5. -/
theorem test_reconSubsample :
    (nextOf (exec (.reconSubsample 1 1) splitV)).outMem = [(15, 0x84), (16, 0xBB), (17, 0x02)] := by decide +kernel

/-- Section 4.3: the output wraps. -/
theorem test_reconSubsample_wraps :
    (nextOf (exec (.reconSubsample 0 0) { readyV with
      fir := List.replicate 8 (2 ^ 32), lopass := [2 ^ 22, 2 ^ 22, 0, 0, 0, 0, 0, 0] })).outMem = [(2, 0x80)] := by
  decide +kernel

/-- Section 3.2: group 1. -/
theorem test_reconGroup : outs (nextOf (exec (.reconGroup 1) splitV)) = [0, 0, 0, 0, 98, 179076, 358455, 537543] := by
  decide +kernel

/-- Section 4.1. -/
theorem test_decode24 :
    ([[(2, 0x10)], [(0, 0xFF), (1, 0xFF), (2, 0x7F)], [(2, 0x80)], [(0, 0xFF), (1, 0xFF), (2, 0xFF)], []].map
        fun (m : Memory) => (nextOf (exec (.decode24 0) { readyV with inMem := m })).decoded.toInt) =
      [1048576, 8388607, -8388608, -1, 0] := by decide +kernel

/-- Section 4.2. -/
theorem test_encode24 :
    ([179076, -1, 2 ^ 23, 2 ^ 24 + 5, 0].map fun y => (nextOf (exec (.encode24 1 y) readyV)).outMem) =
      [[(3, 0x84), (4, 0xBB), (5, 0x02)], [(3, 0xFF), (4, 0xFF), (5, 0xFF)], [(5, 0x80)], [(3, 0x05)], []] := by
  decide +kernel

/-- Section 1, S4: the cursor goes 0, 8, 0. -/
theorem test_cursorAdvance :
    (let t := nextOf (exec .cursorAdvance readyV)
     [t.noisei, (nextOf (exec .cursorAdvance t)).noisei]) = [8, 0] := by decide +kernel

/-! ### The host port -/

/-- P5 (b): a command write while busy is dropped. -/
theorem test_lost_command :
    statusWord (nextOf (step { pending readyV 2 0 with inputs := [HostSyntax.process] })) = 0x015 := by decide +kernel

/-- 20_memory.md R47: a 4-byte read of `OUT` at `3j` has sample `j` in `[23:0]` and the low byte of `j + 1` above. -/
theorem test_out_read :
    (nextOf (step { readyV with
      outMem := [(3, 0x84), (4, 0xBB), (5, 0x02), (6, 0x7F)]
      inputs := [.access { space := .out, off := 3, width := 4, op := .read }] })).rdata = 0x7F02BB84 := by
  decide +kernel

/-- P1: `WR ARG_RATE, 44100` is `REG:0x08/4 = 44 AC 00 00`. -/
theorem test_listing :
    (match HostSyntax.wr .argRate 44100 with
      | .access a => some (HostSyntax.listing a)
      | _ => none) = some (.reg, 0x08, 4, [0x44, 0xAC, 0x00, 0x00]) := by decide

/-- P2: `BLOCK` writes sample 4 = `2^20` as `00 00 10` at offset 12, then starts PROCESS and waits. -/
theorem test_block_moves :
    (HostSyntax.block [0, 0, 0, 0, 1048576, 1048576, 1048576, 1048576]).drop 12 =
      [HostSyntax.wrb 12 0x00, HostSyntax.wrb 13 0x00, HostSyntax.wrb 14 0x10, HostSyntax.wrb 15 0x00,
        HostSyntax.wrb 16 0x00, HostSyntax.wrb 17 0x10, HostSyntax.wrb 18 0x00, HostSyntax.wrb 19 0x00,
        HostSyntax.wrb 20 0x10, HostSyntax.wrb 21 0x00, HostSyntax.wrb 22 0x00, HostSyntax.wrb 23 0x10,
        HostSyntax.process, .wait] := by decide +kernel

/-- The placed words run first after reset, whatever hardware values the spec leaves open. -/
theorem test_placed_words_run :
    ([0x10, 0x11, 0x20, 0x21, 0x22, 0x30, 0x31, 0x40, 0x41, 0x42].all fun w =>
      match step (State.reset.withFetchWord 8 w) with
      | .next _ => true
      | _ => false) = true := by decide

/-! ### Witnesses: the hypotheses of the statements are met -/

/-- A test of a whole list. -/
theorem of_all {p : Word64 → Prop} [DecidablePred p] {l : List Word64} (h : l.all (fun x => decide (p x)) = true) :
    ∀ x ∈ l, p x := by simpa using h

theorem storage_readyV : StorageOk readyV where
  legal := by decide
  hifLength := by decide
  lopassLength := by decide
  firLength := by decide
  noiseLength := by decide
  cursorBound := by decide
  lenBound := by decide
  inCanonical := by decide
  outCanonical := by decide
  inInside := by decide
  outInside := by decide

theorem configured_readyV : ConfiguredOk readyV where
  length := ⟨3, by decide, by decide, by decide⟩
  kernel := by decide +kernel
  noiseRange := of_all (by decide +kernel)

theorem stream_readyV : StreamOk readyV where
  prevRange := by decide
  hifRange := of_all (by decide +kernel)
  hifSum := by decide +kernel
  lopassRange := of_all (by decide +kernel)
  cursorMultiple := by decide

theorem good_readyV : GoodState readyV where
  storage := storage_readyV
  noMicroOps := rfl
  ovfIffFault := by decide
  lenZeroIff := by decide
  configured _ := configured_readyV
  stream _ := stream_readyV

/-- A good stream in the middle of its history. -/
theorem good_splitV : GoodState splitV where
  storage := ⟨by decide, by decide, by decide, by decide, by decide, by decide, by decide, by decide, by decide,
    by decide, by decide⟩
  noMicroOps := rfl
  ovfIffFault := by decide
  lenZeroIff := by decide
  configured _ := ⟨⟨3, by decide, by decide, by decide⟩, by decide +kernel, of_all (by decide +kernel)⟩
  stream _ := ⟨by decide, of_all (by decide +kernel), by decide +kernel, of_all (by decide +kernel), by decide⟩

theorem kernelBound_splitV : KernelBound splitV := by unfold KernelBound; decide +kernel

theorem kernelBound_readyV : KernelBound readyV := by unfold KernelBound; decide +kernel

theorem checks_splitV : ChecksPass splitV 1 3 := by unfold ChecksPass InInt64; decide +kernel

theorem storage_pending (w n : Word32) : StorageOk (pending readyV w n) := ⟨storage_readyV.1, storage_readyV.2,
  storage_readyV.3, storage_readyV.4, storage_readyV.5, storage_readyV.6, storage_readyV.7, storage_readyV.8,
  storage_readyV.9, storage_readyV.10, storage_readyV.11⟩

theorem good_pending (w n : Word32) : GoodState (pending readyV w n) where
  storage := storage_pending w n
  noMicroOps := rfl
  ovfIffFault := good_readyV.3
  lenZeroIff := good_readyV.4
  configured _ := ⟨configured_readyV.1, configured_readyV.2, configured_readyV.3⟩
  stream _ := ⟨stream_readyV.1, stream_readyV.2, stream_readyV.3, stream_readyV.4, stream_readyV.5⟩

theorem witness_DecodeOfEncodeIsIdentity : (Instr.encode24 (2 ^ 32 - 1) (-1)).wellFormed = true := by decide

theorem witness_EncodeOfDecodeIsIdentity : decode (.micro (-1 <<< 8 ||| 0x41)) = .ok (.encode24 (2 ^ 32 - 1) (-1)) := by
  decide

theorem witness_CommandWordDecodesIffReservedBitsZero :
    (0xF : Word32).toNat / 16 = 0 ∧ (0x10 : Word32).toNat / 16 ≠ 0 ∧ (0xFFFFFFFF : Word32).toNat / 16 ≠ 0 := by decide

/-- A pending command with each kind of move, and a word in the sequencer. -/
theorem witness_StepRunsTheDecodedInstruction :
    hwV.legal = true ∧ Pends (pending readyV 2 0) .process ∧ (pending readyV 2 0).inputs = [] ∧
      Pends { pending readyV 2 0 with inputs := [.block] } .process ∧
      Pends { pending readyV 2 0 with inputs := [.wait, .reset] } .process ∧
      (readyV.withMicroOps [.splitSample 7]).seq = [microWordOf (.splitSample 7)] ∧
      decodeMicro (microWordOf (.splitSample 7)) = .ok (.splitSample 7) :=
  ⟨by decide, ⟨rfl, by decide⟩, rfl, ⟨rfl, by decide⟩, ⟨rfl, by decide⟩, rfl, by decide⟩

theorem witness_PlacedTableWordRunsNext :
    State.reset.hw.legal = true ∧ 0x42 < 2 ^ 8 ∧ decodeTableWord 8 0x42 = some .cursorAdvance ∧ 0xF < 2 ^ 32 ∧
      decodeTableWord 32 0xF = some (.reservedOp8F 7) := by decide

theorem witness_ReservedWordsCompleteWithTheirCode :
    (pending readyV 0x10 0).hw.legal = true ∧ (pending readyV 0x10 0).seq = [] ∧ (pending readyV 0x10 0).inputs = [] ∧
      (pending readyV 0x10 0).busy = true ∧ (0x10 : Word32).toNat / 16 ≠ 0 ∧ (0x4 : Word32).toNat / 16 = 0 ∧
      4 ≤ (0x4 : Word32).toNat ∧ (0xF : Word32).toNat / 16 = 0 := by decide

theorem witness_IdleBlockHoldsItsState :
    readyV.hw.legal = true ∧ readyV.seq = [] ∧ readyV.busy = false ∧ readyV.inputs = [] ∧
      ({ readyV with inputs := [.block] } : State).inputs = [.block] := by decide

theorem witness_EveryCommandCompletes : (Instr.reservedOp8F 7).isCommand = true ∧ Instr.process.isCommand = true := by
  decide

theorem witness_RejectedCommandChangesNothingElse :
    (∃ t, exec .process resetV = .next t ∧ Instr.process.isCommand = true ∧ t.errcode ≠ .none ∧ t.errcode ≠ .overflow) ∧
      ∃ t, commandStep (pending resetV 0x10 0) = .next t ∧ t.errcode ≠ .none ∧ t.errcode ≠ .overflow :=
  ⟨⟨_, rfl, rfl, by decide, by decide⟩, _, rfl, by decide, by decide⟩

/-- Whether the groups of a block end, by evaluation. -/
def ends : Except Overflow State → Bool
  | .ok _ => true
  | .error _ => false

theorem ok_of_ends {x : Except Overflow State} (h : ends x = true) : ∃ t, x = .ok t := by
  cases x with
  | ok t => exact ⟨t, rfl⟩
  | error e => cases h

theorem error_of_not_ends {x : Except Overflow State} (h : ends x = false) : ∃ e, x = .error e := by
  cases x with
  | ok t => cases h
  | error e => exact ⟨e, rfl⟩

/-- Sections 4.4 and 3.1: PROCESS with and without an overflow. -/
theorem witness_ErrorCodePriority_process :
    (∃ e, processGroups (pending hotV 2 0) = .error e) ∧ (pending hotV 2 0).inst = .ready ∧
      (∃ t, processGroups (pending readyV 2 0) = .ok t) ∧ (pending readyV 2 0).inst = .ready :=
  ⟨error_of_not_ends (by decide +kernel), rfl, ok_of_ends (by decide +kernel), rfl⟩

/-- A reserved word, the two code 1 lengths, a length above `N_MAX`, below `F`, and the two ends of the legal range. -/
theorem witness_ErrorCodePriority :
    (∀ w n, ∃ t, step (pending resetV w n) = .next t) ∧ (∃ t, step (pending readyV 2 0) = .next t) ∧
      resetV.hw.legal = true ∧ (0x10 : Word32).toNat / 16 ≠ 0 ∧ (0x4 : Word32).toNat / 16 = 0 ∧
      (¬ ∃ k, (6 : Word32).toNat = 2 ^ k) ∧ (¬ ∃ k, (0 : Word32).toNat = 2 ^ k) ∧
      ((∃ k, (16 : Word32).toNat = 2 ^ k) ∧ resetV.hw.nMax < (16 : Word32).toNat) ∧
      ((∃ k, (2 : Word32).toNat = 2 ^ k) ∧ (2 : Word32).toNat < resetV.hw.f) ∧
      ((∃ k, (4 : Word32).toNat = 2 ^ k) ∧ resetV.hw.f ≤ (4 : Word32).toNat) ∧
      ((∃ k, (8 : Word32).toNat = 2 ^ k) ∧ (8 : Word32).toNat ≤ resetV.hw.nMax) ∧ resetV.inst ≠ .ready ∧
      readyV.inst = .ready := by
  have step_next : ∀ s : State, s.hw.legal = true → s.seq = [] → s.inputs = [] → s.busy = true →
      (∃ t, commandStep s = .next t) → ∃ t, step s = .next t := by
    rintro s hl hs hi hb ⟨t, ht⟩
    refine ⟨t, ?_⟩
    unfold step advance
    rw [if_pos hl, hs, hi]
    unfold blockTurn
    rw [if_pos hb, ht]
  have command_next : ∀ s : State, ∃ t, commandStep s = .next t := by
    intro s
    unfold commandStep
    cases hd : decodeCommand s.pend.word with
    | error e => exact ⟨_, rfl⟩
    | ok i =>
      unfold decodeCommand at hd
      repeat' split at hd
      all_goals cases hd
      · exact ⟨_, rfl⟩
      · show ∃ t, execOpen s = .next t
        unfold execOpen
        split <;> exact ⟨_, rfl⟩
      · show ∃ t, execProcess s = .next t
        unfold execProcess
        split <;> exact ⟨_, rfl⟩
      · exact ⟨_, rfl⟩
      · exact ⟨_, rfl⟩
      · exact ⟨_, rfl⟩
  have not_pow : ∀ n : Nat, isPow2 n = false → ¬ ∃ k, n = 2 ^ k := by
    rintro n h ⟨k, rfl⟩
    have : isPow2 (2 ^ k) = true := by
      unfold isPow2
      rw [Nat.and_two_pow_sub_one_eq_mod, Nat.mod_self]
      have := Nat.two_pow_pos k
      simp
    rw [this] at h
    cases h
  refine ⟨fun w n => step_next _ (by rfl) rfl rfl rfl (command_next _),
    step_next _ (by rfl) rfl rfl rfl (command_next _), by decide, by decide, by decide, not_pow _ (by decide),
    not_pow _ (by decide), ⟨⟨4, by decide⟩, by decide⟩, ⟨⟨1, by decide⟩, by decide⟩, ⟨⟨2, by decide⟩, by decide⟩,
    ⟨⟨3, by decide⟩, by decide⟩, by decide, by decide⟩

theorem witness_OpenRejectsIllegalLengths :
    (pending resetV 1 6).pend.blockLen = 6 ∧ isPow2 6 = false ∧ isPow2 0 = false ∧ (16 : Word32).toNat = 2 ^ 4 ∧
      hwV.nMax < 16 ∧ (2 : Word32).toNat = 2 ^ 1 ∧ 2 ≤ hwV.nMax ∧ 2 < hwV.f := by decide

/-- The two ends of the legal range. -/
theorem witness_OpenBuildsAReadyInstance :
    hwV.legal = true ∧ (pending resetV 1 4).pend.blockLen.toNat = 2 ^ 2 ∧ hwV.fBits ≤ 2 ∧
      (pending resetV 1 8).pend.blockLen.toNat = 2 ^ 3 ∧ 3 ≤ hwV.nMaxBits := by decide

/-- Two lengths, the two ends of the legal range, with one seed. -/
theorem witness_TablesDependOnLengthAndSeedOnly :
    (∃ t, exec .openStream (pending resetV 1 8) = .next t) ∧ (∃ t, exec .openStream (pending readyV 1 8) = .next t) ∧
      (∃ t, exec .openStream (pending readyV 1 4) = .next t) ∧ hwV.legal = true ∧
      (pending readyV 1 4).hw = (pending resetV 1 8).hw ∧
      (pending readyV 1 4).pend.seed = (pending resetV 1 8).pend.seed ∧
      (pending readyV 1 4).pend.blockLen.toNat = 2 ^ 2 ∧ hwV.fBits ≤ 2 ∧
      (pending readyV 1 8).pend.blockLen.toNat = 2 ^ 3 ∧ 3 ≤ hwV.nMaxBits ∧
      (pending resetV 1 8).pend.blockLen.toNat = 2 ^ 3 := by
  have open_next : ∀ s : State, ∃ t, exec .openStream s = .next t := by
    intro s
    show ∃ t, execOpen s = .next t
    unfold execOpen
    split <;> exact ⟨_, rfl⟩
  exact ⟨open_next _, open_next _, open_next _, by decide, rfl, rfl, by decide, by decide, by decide, by decide,
    by decide⟩

/-- The block length `N_MAX` and none. -/
theorem witness_FirGenWritesTheKernel : readyV.len = readyV.hw.nMax ∧ resetV.len ≤ resetV.hw.nMax := by decide

theorem witness_ReferenceCentreTap : (1 ≤ 1 ∧ 1 ≤ 31 ∧ 0 ≤ 1) ∧ (1 ≤ 31 ∧ 31 ≤ 31 ∧ 31 ≤ 31) := by decide

/-- The whole of `INT64`, and a fixed point. -/
theorem witness_RecurrenceKeepsItsInterval :
    (-9223372036854775808 ≤ (BitVec.intMin 64).toInt ∧ (BitVec.intMin 64).toInt ≤ 9223372036854775807 ∧
        -9223372036854775808 ≤ (BitVec.intMax 64).toInt ∧ (BitVec.intMax 64).toInt ≤ 9223372036854775807) ∧
      (5 ≤ (5 : Word64).toInt ∧ (5 : Word64).toInt ≤ 5) := by decide

/-- A whole block of the constant 5 in `IN`. -/
def constV : State :=
  { readyV with inMem := [(0, 5), (3, 5), (6, 5), (9, 5), (12, 5), (15, 5), (18, 5), (21, 5)] }

/-- The constant 5 from 0: at the first `n` of the band, and at the first with an energy sum of 0. -/
theorem witness_ConstantInputSettlesInItsBand :
    GoodState constV ∧ constV.inst = .ready ∧ (∀ j < constV.len, (decodeSample constV j).toInt = 5) ∧
      ((5 : Int) - constV.prev.toInt).natAbs ≤ 5 ∧ ((5 : Int) - constV.prev.toInt).natAbs + constV.len ≤ 13 :=
  ⟨⟨⟨by decide, by decide, by decide, by decide, by decide, by decide, by decide, by decide, by decide, by decide,
      by decide⟩, rfl, good_readyV.3, good_readyV.4,
      fun _ => ⟨configured_readyV.1, configured_readyV.2, configured_readyV.3⟩,
      fun _ => ⟨stream_readyV.1, stream_readyV.2, stream_readyV.3, stream_readyV.4, stream_readyV.5⟩⟩,
    rfl, by decide +kernel, by decide, by decide⟩

/-- The first and the last sample of a block, with the estimate at the ends of its range. -/
theorem witness_SplitSampleUpdatesEstimateAndEnergy :
    (7 < stepV.hw.nMax ∧ 7 < stepV.hif.length ∧ stepV.len = 2 ^ 3 ∧ -8388608 ≤ stepV.prev.toInt ∧
        stepV.prev.toInt ≤ 8388607 ∧ stepV.hifsum.toInt.natAbs ≤ 2 ^ 61 ∧ (readAt stepV.hif 7).toInt.natAbs ≤ 2 ^ 61) ∧
      (-8388608 ≤ (8388607 : Word64).toInt ∧ (8388607 : Word64).toInt ≤ 8388607) ∧
      (-8388608 ≤ (-8388608 : Word64).toInt ∧ (-8388608 : Word64).toInt ≤ 8388607) := by decide +kernel

theorem witness_LpStoreWritesPrev : 7 < readyV.hw.nMax ∧ readyV.lopass.length = readyV.hw.nMax := by decide

theorem witness_SplitGroupIsItsMicroOperations : StorageOk readyV ∧ readyV.seq = [] ∧ 1 < readyV.groups :=
  ⟨storage_readyV, rfl, by decide⟩

theorem witness_SplitGroupKeepsTheEnergySum : GoodState splitV ∧ splitV.inst = .ready ∧ 1 < splitV.groups :=
  ⟨good_splitV, rfl, by decide⟩

theorem witness_ReconSubsampleWritesThePolyphaseSum :
    splitV.groups = 2 ^ 1 ∧ 1 < splitV.groups ∧ 3 < splitV.hw.f ∧ 1 * splitV.hw.f + 3 < splitV.hw.nMax ∧
      splitV.outMem.wf = true ∧ ChecksPass splitV 1 3 :=
  ⟨by decide, by decide, by decide, by decide, rfl, checks_splitV⟩

/-- Section 4.4: the product `716800 * 2^62`. -/
theorem witness_ReconSubsampleFaultsOnOverflow :
    (let s : State := { splitV with fir := List.replicate 8 (2 ^ 62) }
     s.groups = 2 ^ 1 ∧ 1 < s.groups ∧ 0 < s.hw.f ∧ 1 * s.hw.f + 0 < s.hw.nMax ∧ ¬ ChecksPass s 1 0) := by
  refine ⟨by decide, by decide, by decide, by decide, ?_⟩
  rintro ⟨h, _⟩
  exact absurd (h 0 (by decide)).1 (by unfold InInt64; decide +kernel)

theorem witness_ReconGroupIsItsMicroOperations : StorageOk readyV ∧ readyV.seq = [] ∧ 0 < readyV.groups :=
  ⟨storage_readyV, rfl, by decide⟩

theorem witness_ReconGroupWritesOnlyItsOutputs :
    GoodState splitV ∧ splitV.inst = .ready ∧ KernelBound splitV ∧ 1 < splitV.groups :=
  ⟨good_splitV, rfl, kernelBound_splitV, by decide⟩

/-- Section 4.3: every `lopass` entry `2^22`; and the all-zero history. -/
theorem witness_ConstantHistoryGivesTheScaledSum :
    (let s : State := { readyV with lopass := List.replicate 8 (2 ^ 22), fir := List.replicate 8 (2 ^ 32) }
     s.groups = 2 ^ 1 ∧ 1 < s.groups ∧ 3 < s.hw.f ∧ 1 * s.hw.f + 3 < s.hw.nMax ∧ s.outMem.wf = true ∧
      (∀ i < s.groups, (readAt s.lopass i).toInt = 4194304) ∧ s.hifsum = 0 ∧ ChecksPass s 1 3) := by
  refine ⟨by decide, by decide, by decide, by decide, rfl, by decide +kernel, rfl, ?_⟩
  unfold ChecksPass InInt64
  decide +kernel

theorem witness_Decode24ReturnsTheSample : 7 < readyV.hw.nMax ∧ 0 < readyV.hw.nMax := by decide

theorem witness_Encode24WritesThreeBytes : 7 < readyV.hw.nMax ∧ readyV.outMem.wf = true := by decide

theorem witness_CursorAdvanceWrapsAround : readyV.len = 2 ^ 3 ∧ 3 ≤ readyV.hw.nlBits ∧ readyV.noisei < readyV.hw.nl := by
  decide

/-- The least operand of each form that names no storage: sample and entry 8, group 2, output 8. -/
theorem witness_MicroOperationsOnMissingStorageFault :
    readyV.hw.nMax ≤ 8 ∧ readyV.hw.nMax < (2 + 1) * readyV.hw.f ∧ readyV.hw.nMax ≤ 1 * readyV.hw.f + 4 := by decide

theorem witness_ProcessRejectedUnlessReady : resetV.inst ≠ .ready ∧ faultV.inst ≠ .ready := by decide

theorem witness_ProcessRunsItsBlock : GoodState splitV ∧ splitV.inst = .ready ∧ KernelBound splitV :=
  ⟨good_splitV, rfl, kernelBound_splitV⟩

theorem witness_ProcessIsItsMicroProgram : GoodState splitV ∧ splitV.inst = .ready := ⟨good_splitV, rfl⟩

/-- Two states that differ in what PROCESS does not read. -/
theorem witness_ProcessDependsOnlyOnItsInputs :
    (let s := readyV
     let s' := { pending readyV 2 0 with draws := 9 }
     GoodState s ∧ GoodState s' ∧ s.inst = .ready ∧ s'.inst = .ready ∧ s'.hw = s.hw ∧ s'.cfgN = s.cfgN ∧
      s'.prev = s.prev ∧ s'.hifsum = s.hifsum ∧ s'.noisei = s.noisei ∧ s'.noise = s.noise ∧
      s'.hif.take s.len = s.hif.take s.len ∧ s'.lopass.take s.groups = s.lopass.take s.groups ∧
      (∀ off < 3 * s.len, s'.inMem.read off = s.inMem.read off) ∧ (∃ t, exec .process s = .next t) ∧
      ∃ t', exec .process s' = .next t') := by
  refine ⟨good_readyV, ?_, rfl, rfl, rfl, rfl, rfl, rfl, rfl, rfl, rfl, rfl, fun _ _ => rfl, ⟨_, rfl⟩, ⟨_, rfl⟩⟩
  have h := good_pending 2 0
  exact ⟨⟨h.1.1, h.1.2, h.1.3, h.1.4, h.1.5, h.1.6, h.1.7, h.1.8, h.1.9, h.1.10, h.1.11⟩, h.2, h.3, h.4,
    fun _ => ⟨configured_readyV.1, configured_readyV.2, configured_readyV.3⟩,
    fun _ => ⟨stream_readyV.1, stream_readyV.2, stream_readyV.3, stream_readyV.4, stream_readyV.5⟩⟩

theorem witness_ZeroBlockGivesZeroOutput :
    GoodState readyV ∧ readyV.inst = .ready ∧ readyV.prev = 0 ∧ (∀ h ∈ readyV.hif.take readyV.len, h = 0) ∧
      (∀ x ∈ readyV.lopass.take readyV.groups, x = 0) ∧ ∀ off < 3 * readyV.len, readyV.inMem.read off = 0 :=
  ⟨good_readyV, rfl, rfl, of_all (by decide +kernel), of_all (by decide +kernel), by decide +kernel⟩

theorem witness_OverflowFaultEntry :
    hotV.inst = .ready ∧ (∃ e, processGroups hotV = .error e) ∧
      ∃ t, exec .process hotV = .next t ∧ t.errcode = .overflow :=
  ⟨rfl, error_of_not_ends (by decide +kernel), _, rfl, by decide +kernel⟩

/-- The fault with a legal OPEN pending at each end of the range, and a CLOSE whose step leaves the fault. -/
theorem witness_OnlyOpenCloseAndResetLeaveFault :
    faultV.hw.legal = true ∧ faultV.seq = [] ∧ faultV.inst = .fault ∧ (pending faultV 1 4).pend.blockLen.toNat = 2 ^ 2 ∧
      (pending faultV 1 8).pend.blockLen.toNat = 2 ^ 3 ∧ faultV.hw.fBits ≤ 2 ∧ 3 ≤ faultV.hw.nMaxBits ∧
      ∃ t, step (pending faultV 3 0) = .next t ∧ t.inst ≠ .fault :=
  ⟨by decide, rfl, rfl, by decide, by decide, by decide, by decide, _, rfl, by decide⟩

theorem witness_StepKeepsInvariant : GoodState (pending readyV 3 0) ∧ ∃ t, step (pending readyV 3 0) = .next t :=
  ⟨good_pending 3 0, _, rfl⟩

/-- A micro-operation placed in the sequencer. -/
theorem witness_StepKeepsStorage :
    StorageOk (readyV.withMicroOps [.lpStore 1]) ∧ ∃ t, step (readyV.withMicroOps [.lpStore 1]) = .next t :=
  ⟨⟨storage_readyV.1, storage_readyV.2, storage_readyV.3, storage_readyV.4, storage_readyV.5, storage_readyV.6,
    storage_readyV.7, storage_readyV.8, storage_readyV.9, storage_readyV.10, storage_readyV.11⟩, _, rfl⟩

/-- A step that changes `STATE`. -/
theorem witness_StateTransitions :
    (pending readyV 3 0).hw.legal = true ∧ (pending readyV 3 0).seq = [] ∧
      ∃ t, step (pending readyV 3 0) = .next t ∧ t.inst = .unconfigured := ⟨by decide, rfl, _, rfl, by decide⟩

theorem witness_TablesChangeOnlyByOpenAndReset :
    (let s := pending resetV 1 8
     s.hw.legal = true ∧ s.seq = [] ∧ ∃ t, step s = .next t ∧ ¬ (t.fir = s.fir ∧ t.noise = s.noise)) := by
  refine ⟨by decide, rfl, nextOf (step (pending resetV 1 8)), ?_, by decide +kernel⟩
  obtain ⟨t, ht⟩ := witness_ErrorCodePriority.1 1 8
  rw [ht]
  rfl

theorem witness_BuffersChangeOnlyAsStated :
    (pending readyV 2 0).hw.legal = true ∧ (pending readyV 2 0).seq = [] ∧
      (pending readyV 2 0).inputs.head? ≠ some .reset ∧ ∃ t, step (pending readyV 2 0) = .next t :=
  ⟨by decide, rfl, by decide, _, rfl⟩

theorem witness_ParametersNeverChange : ∃ t, step { readyV with inputs := [.reset] } = .next t := ⟨_, rfl⟩

/-- The last byte of `IN`, the last register, and an idle machine. -/
theorem witness_LegalHostIsAlwaysServed :
    StorageOk readyV ∧ readyV.seq = [] ∧ nextMoveLegal readyV = true ∧
      nextMoveLegal { readyV with inputs := [HostSyntax.wrb 23 0xFF] } = true ∧
      nextMoveLegal { readyV with
        inputs := [.access { space := .reg, off := 0xFC, width := 4, op := .read }] } = true ∧
      nextMoveLegal { readyV with inputs := [.bus 0x2017 1 .read] } = true :=
  ⟨storage_readyV, rfl, by decide, by decide, by decide, by decide⟩

theorem witness_CmdWriteIssuesOrIsLost :
    (let s : State := { readyV with inputs := [HostSyntax.wr .cmd 2] }
     s.hw.legal = true ∧ s.seq = [] ∧ s.inputs = [HostSyntax.wr .cmd 2] ∧ s.busy = false) ∧
      (let s : State := { pending readyV 2 0 with inputs := [HostSyntax.wr .cmd 2] }
       s.hw.legal = true ∧ s.seq = [] ∧ s.inputs = [HostSyntax.wr .cmd 2] ∧ s.busy = true) := by decide

theorem witness_HostReadsAndWrites (m : Move) :
    readyV.hw.legal = true ∧ readyV.seq = [] ∧ readyV.busy = false ∧ readyV.inMem.wf = true ∧
      ({ readyV with inputs := [m] } : State).inputs = [m] := ⟨by decide, rfl, rfl, rfl, rfl⟩

theorem witness_ArgumentRegistersHoldWhatIsWritten (v : Word32) :
    ({ readyV with inputs := [HostSyntax.wr .argSeed v, HostSyntax.rd .argSeed] } : State).inputs
      = [HostSyntax.wr .argSeed v, HostSyntax.rd .argSeed] ∧ readyV.hw.legal = true ∧ readyV.seq = [] :=
  ⟨rfl, by decide, rfl⟩

theorem witness_StatusReadGivesItsFields :
    (let s : State := { pending faultV 2 0 with inputs := [HostSyntax.rd .status] }
     s.hw.legal = true ∧ s.seq = [] ∧ s.inputs = [HostSyntax.rd .status]) := by decide

theorem witness_StateRegistersReadTheirElements :
    (let s : State := { splitV with inputs := [HostSyntax.rd .hifsumLo, HostSyntax.rd .hifsumHi] }
     s.hw.legal = true ∧ s.seq = [] ∧ s.busy = false ∧
      s.inputs = [HostSyntax.rd .hifsumLo, HostSyntax.rd .hifsumHi]) := by decide

/-- The offsets at the ends of each clause's range; no offset falls under two clauses. -/
theorem witness_ConstantRegistersAndIgnoredWrites :
    ([0x00, 0x34, 0xFC, 0x28, 0x2C, 0x30, 0x04, 0x14].all fun off => decide (off % 4 = 0 ∧ off < 0x100)) = true ∧
      readyV.hw.legal = true ∧ readyV.seq = [] ∧
      (let a : Access := { space := .reg, off := 0xFC, width := 4, op := .write 5 }
       ({ readyV with inputs := [.access a] } : State).inputs = [.access a]) := by decide

theorem witness_OnlyCmdWritesHaveSideEffects :
    (let a : Access := { space := .out, off := 20, width := 4, op := .read }
     let s : State := { readyV with inputs := [.access a] }
     s.hw.legal = true ∧ s.seq = [] ∧ s.busy = false ∧ s.inputs = [.access a] ∧ a.op = .read ∧
      ∃ t, step s = .next t) := ⟨by decide, rfl, rfl, rfl, rfl, _, rfl⟩

/-- The last bytes of `IN` at each width. -/
theorem witness_HostAccessesAreLittleEndian_buffer :
    (let s : State := { readyV with inputs :=
      [.access { space := .inp, off := 20, width := 4, op := .write 0x80FF01FE },
        .access { space := .inp, off := 20, width := 4, op := .read }] }
     s.hw.legal = true ∧ s.seq = [] ∧ s.busy = false ∧ s.inMem.wf = true ∧ 20 + 4 ≤ 3 * s.hw.nMax ∧
      22 + 2 ≤ 3 * s.hw.nMax ∧ 23 + 1 ≤ 3 * s.hw.nMax) := by decide

/-- The last bytes of `OUT` at each width while idle, and of `IN` while busy. -/
theorem witness_HostAccessesAreLittleEndian_read :
    (let s : State := { readyV with
      outMem := [(23, 0x80)], inputs := [.access { space := .out, off := 20, width := 4, op := .read }] }
     s.hw.legal = true ∧ s.seq = [] ∧ s.busy = false ∧ 20 + 4 ≤ 3 * s.hw.nMax ∧ 22 + 2 ≤ 3 * s.hw.nMax ∧
      23 + 1 ≤ 3 * s.hw.nMax) ∧ (pending stepV 2 0).busy = true ∧ (pending stepV 2 0).seq = [] := by decide

theorem witness_HostAccessesAreLittleEndian_register :
    (let s : State := { splitV with inputs := [.access { space := .reg, off := 0x24, width := 4, op := .read }] }
     s.hw.legal = true ∧ s.seq = [] ∧ s.busy = false ∧ 0x24 % 4 = 0 ∧ 0x24 < 0x100 ∧ 0xFC % 4 = 0 ∧ 0xFC < 0x100 ∧
      s.inputs = [.access { space := .reg, off := 0x24, width := 4, op := .read }]) := by decide

/-- A misaligned register access, one past the last, a byte past the buffer, and a write while busy. -/
theorem witness_IllegalAccessesAreRefused :
    ¬ (4 = 4 ∧ 0x02 % 4 = 0 ∧ 0x02 < 0x100) ∧ ¬ (4 = 4 ∧ 0x100 % 4 = 0 ∧ 0x100 < 0x100) ∧
      ¬ ((1 = 1 ∨ 1 = 2 ∨ 1 = 4) ∧ 24 + 1 ≤ 3 * readyV.hw.nMax) ∧ 23 + 1 ≤ 3 * readyV.hw.nMax ∧
      (pending readyV 2 0).busy = true ∧ readyV.hw.legal = true ∧ readyV.seq = [] := by decide

/-- The last byte of the `OUT` window, and the first address past it. -/
theorem witness_BusAccessesReachTheirSpace :
    (spaceBase hwV .out ≤ 0x2017 ∧ 0x2017 < spaceBase hwV .out + spaceSize hwV .out) ∧
      (∀ sp', sp' ≠ .out → ¬ (spaceBase hwV sp' ≤ 0x2017 ∧ 0x2017 < spaceBase hwV sp' + spaceSize hwV sp')) ∧
      (∀ sp, ¬ (spaceBase hwV sp ≤ 0x2018 ∧ 0x2018 < spaceBase hwV sp + spaceSize hwV sp)) ∧ readyV.hw.legal = true ∧
      readyV.seq = [] := by
  refine ⟨by decide, fun sp h => ?_, fun sp => ?_, by decide, rfl⟩
  · cases sp
    · decide
    · decide
    · exact absurd rfl h
  · cases sp <;> decide

theorem witness_PlatformResetAtAnyTime :
    (let s : State := { pending readyV 2 0 with inputs := [.reset, .wait] }
     s.hw.legal = true ∧ s.seq = [] ∧ s.inputs = [.reset, .wait]) := by decide

end Sys2Proof.Tests
end

section
/-! The storage stays whole (10_state.md R16, 20_memory.md R43): each micro-operation keeps it, and so does every step,
also with micro-operations placed from outside. -/

namespace Sys2Proof.Machine

/-! ### Each micro-operation -/

theorem StorageOk.settle {s : State} {r : Except Overflow State} (h : StorageOk s)
    (hr : ∀ t, r = .ok t → StorageOk t) : StorageOk (settle s r) := by
  rcases settle_cases s r with ⟨t, ht, e⟩ | ⟨_, e⟩
  · rw [e]; exact hr t ht
  · rw [e]; exact h.overflowFault

theorem StorageOk.firGen {s : State} (h : StorageOk s) : StorageOk (firGen s) := by
  have hlen : (Machine.firGen s).fir.length = s.hw.nMax := by
    have := h.lenBound
    simp; omega
  exact ⟨h.legal, h.hifLength, h.lopassLength, hlen, h.noiseLength, h.cursorBound, h.lenBound, h.inCanonical,
    h.outCanonical, h.inInside, h.outInside⟩

theorem StorageOk.with_noise {s : State} {tbl : List Word64} (h : StorageOk s) (hl : tbl.length = s.hw.nl) :
    StorageOk { s with noise := tbl } :=
  ⟨h.legal, h.hifLength, h.lopassLength, h.firLength, hl, h.cursorBound, h.lenBound, h.inCanonical, h.outCanonical,
    h.inInside, h.outInside⟩

theorem StorageOk.noiseGen {s t : State} (h : StorageOk s) (ht : noiseGen s = .ok t) : StorageOk t := by
  obtain ⟨tbl, h', hl, _⟩ := noiseGen_ok s
  rw [h'] at ht
  cases ht
  exact h.with_noise hl

theorem StorageOk.splitSample {s t : State} {j : Nat} (h : StorageOk s) (ht : splitSample j s = .ok t) :
    StorageOk t := by
  obtain ⟨x, hx⟩ := splitSample_frame ht
  rw [hx]
  exact ⟨h.legal, List.length_set.trans h.hifLength, h.lopassLength, h.firLength, h.noiseLength, h.cursorBound,
    h.lenBound, h.inCanonical, h.outCanonical, h.inInside, h.outInside⟩

theorem StorageOk.lpStore {s : State} (g : Nat) (h : StorageOk s) : StorageOk (lpStore g s) :=
  ⟨h.legal, h.hifLength, List.length_set.trans h.lopassLength, h.firLength, h.noiseLength, h.cursorBound, h.lenBound,
    h.inCanonical, h.outCanonical, h.inInside, h.outInside⟩

theorem StorageOk.splitGroup {s t : State} {g : Nat} (h : StorageOk s) (ht : splitGroup g s = .ok t) :
    StorageOk t := by
  obtain ⟨u, hu, ht⟩ := bind_ok ht
  cases ht
  have hsamples : StorageOk u :=
    forUp_ok (fun _ u => StorageOk u) (fun _ _ _ _ _ ha hb => ha.splitSample hb) h hu
  exact hsamples.lpStore g

theorem StorageOk.with_outMem {s : State} {m : Memory} (h : StorageOk s) (hw : m.wf = true)
    (hb : m.below (3 * s.hw.nMax) = true) : StorageOk { s with outMem := m } :=
  ⟨h.legal, h.hifLength, h.lopassLength, h.firLength, h.noiseLength, h.cursorBound, h.lenBound, h.inCanonical, hw,
    h.inInside, hb⟩

/-- A sample inside the block's storage is written inside `OUT`. -/
theorem StorageOk.encodeSample {s : State} {j : Nat} (y : Word64) (h : StorageOk s) (hj : j < s.hw.nMax) :
    StorageOk (encodeSample j y s) :=
  h.with_outMem (memWrite_wf _ _ _ h.outCanonical) (memWrite_below (by omega) h.outInside)

theorem StorageOk.reconSubsample {s t : State} {g p : Nat} (h : StorageOk s) (hj : g * s.hw.f + p < s.hw.nMax)
    (ht : reconSubsample g p s = .ok t) : StorageOk t := by
  obtain ⟨y, rfl⟩ := reconSubsample_ok ht
  exact h.encodeSample y hj

theorem StorageOk.reconGroup {s t : State} {g : Nat} (h : StorageOk s) (hg : (g + 1) * s.hw.f ≤ s.hw.nMax)
    (ht : reconGroup g s = .ok t) : StorageOk t := by
  obtain ⟨hw, hb⟩ := reconGroup_outMem (Nat.mul_le_mul_left 3 hg) h.outCanonical h.outInside ht
  rw [(reconGroup_frame ht).1]
  exact h.with_outMem hw hb

/-! ### Every step -/

/-- What an operation that checks its operand's storage answers (log 16). -/
theorem of_ite_fault {p : Prop} [Decidable p] {u t : State} {r : Fault}
    (h : (if p then .next u else .fault r : Host.Outcome State Fault Refusal) = .next t) : p ∧ t = u := by
  split at h
  · cases h; exact ⟨‹p›, rfl⟩
  · cases h

/-- A micro-operation keeps the storage whole, whatever its operands. -/
theorem StorageOk.exec_micro {s t : State} {i : Instr} (h : StorageOk s) (hi : i.isCommand = false)
    (ht : exec i s = .next t) : StorageOk t := by
  cases i with
  | nop | openStream | process | closeStream | reservedOp47 | reservedOp8F => cases hi
  | firGen => cases ht; exact h.firGen
  | noiseGen => cases ht; exact h.settle fun _ => h.noiseGen
  | splitSample j => obtain ⟨_, rfl⟩ := of_ite_fault ht; exact h.settle fun _ => h.splitSample
  | lpStore g => obtain ⟨_, rfl⟩ := of_ite_fault ht; exact h.lpStore g
  | splitGroup g => obtain ⟨_, rfl⟩ := of_ite_fault ht; exact h.settle fun _ => h.splitGroup
  | reconSubsample g p => obtain ⟨hj, rfl⟩ := of_ite_fault ht; exact h.settle fun _ => h.reconSubsample hj
  | reconGroup g => obtain ⟨hg, rfl⟩ := of_ite_fault ht; exact h.settle fun _ => h.reconGroup hg
  | decode24 j =>
    obtain ⟨_, rfl⟩ := of_ite_fault ht
    exact ⟨h.legal, h.hifLength, h.lopassLength, h.firLength, h.noiseLength, h.cursorBound, h.lenBound, h.inCanonical,
      h.outCanonical, h.inInside, h.outInside⟩
  | encode24 j y => obtain ⟨hj, rfl⟩ := of_ite_fault ht; exact h.encodeSample y hj
  | cursorAdvance => cases ht; exact h.cursorAdvance

/-- A sequencer word is no command (30_encoding.md R61, R69). -/
theorem decodeMicro_not_isCommand {w : MicroWord} {i : Instr} (h : decodeMicro w = .ok i) : i.isCommand = false := by
  unfold decodeMicro noBitsFrom at h
  repeat' split at h
  all_goals cases h
  all_goals rfl

theorem StorageOk.with_seq {s : State} (ws : List MicroWord) (h : StorageOk s) : StorageOk { s with seq := ws } :=
  ⟨h.legal, h.hifLength, h.lopassLength, h.firLength, h.noiseLength, h.cursorBound, h.lenBound, h.inCanonical,
    h.outCanonical, h.inInside, h.outInside⟩

theorem StorageOk.microStep {s t : State} {w : MicroWord} (h : StorageOk s) (ht : microStep w s = .next t) :
    StorageOk t := by
  unfold Machine.microStep at ht
  cases hd : decodeMicro w with
  | error e => rw [hd] at ht; cases ht
  | ok i =>
    rw [hd] at ht
    exact h.exec_micro (decodeMicro_not_isCommand hd) ht

/-- A step with an empty sequencer keeps the storage whole. -/
theorem StepEffect.storage {s t : State} (e : StepEffect s t) (h : StorageOk s) : StorageOk t := by
  cases e with
  | host ms e _ => exact e.storage (h.with_inputs ms)
  | command ms _ e => exact e.storage (h.with_inputs ms)
  | reset ms _ e => rw [e]; exact StorageOk.platformReset h.legal

/-- Settles O44: a step runs the sequencer's first word or has one of the effects of `StepEffect`. -/
theorem stepKeepsStorage : Obligations.StepKeepsStorage := by
  intro s t h ht
  cases hs : s.seq with
  | nil => exact (step_effect hs ht).storage h
  | cons w ws =>
    rw [step_seq h.legal hs] at ht
    exact (h.with_seq ws).microStep ht

end Sys2Proof.Machine
end

section
/-! The invariant of the machine between commands (10_state.md R17 to R28, 42_band_splitter.md R88): what a host access
leaves alone, what OPEN and PROCESS establish, and that every step keeps it. -/

namespace Sys2Proof.Machine

/-! ### What carries the invariant over -/

/-- A host access leaves the datapath, the configuration and status, the parameters, `OUT` and the sequencer alone
(20_memory.md R48). -/
theorem HostEffect.keeps {s t : State} (e : HostEffect s t) :
    SameDatapath s t ∧ SameStatus s t ∧ t.hw = s.hw ∧ t.outMem = s.outMem ∧ t.seq = s.seq := by
  cases e <;> exact ⟨⟨rfl, rfl, rfl, rfl, rfl, rfl, rfl⟩, ⟨rfl, rfl, rfl, rfl, rfl⟩, rfl, rfl, rfl⟩

theorem ConfiguredOk.of_same {s t : State} (h : ConfiguredOk s) (hhw : t.hw = s.hw) (hn : t.cfgN = s.cfgN)
    (hfir : t.fir = s.fir) (hnoise : t.noise = s.noise) : ConfiguredOk t := by
  have hlen : t.len = s.len := congrArg BitVec.toNat hn
  exact ⟨by rw [hlen, hhw]; exact h.length, by rw [hlen, hhw, hfir]; exact h.kernel, by rw [hnoise]; exact h.noiseRange⟩

theorem StreamOk.of_same {s t : State} (h : StreamOk s) (hhw : t.hw = s.hw) (hn : t.cfgN = s.cfgN)
    (hd : SameDatapath s t) : StreamOk t := by
  obtain ⟨hprev, hhif, hsum, hlp, _, _, hcur⟩ := hd
  have hlen : t.len = s.len := congrArg BitVec.toNat hn
  have hgr : t.groups = s.groups := by unfold State.groups; rw [hlen, hhw]
  exact ⟨by rw [hprev]; exact h.prevRange, by rw [hhif, hlen]; exact h.hifRange,
    by rw [hsum, hhif, hlen]; exact h.hifSum, by rw [hlp, hgr]; exact h.lopassRange,
    by rw [hlen, hcur]; exact h.cursorMultiple⟩

/-- The invariant speaks of the storage, the datapath, `CFG_N`, `STATE` and `OVF` only. -/
theorem GoodState.of_same {s t : State} (h : GoodState s) (hst : StorageOk t) (hd : SameDatapath s t)
    (hhw : t.hw = s.hw) (hseq : t.seq = s.seq) (hn : t.cfgN = s.cfgN) (hi : t.inst = s.inst) (ho : t.ovf = s.ovf) :
    GoodState t := by
  have hfir : t.fir = s.fir := by obtain ⟨_, _, _, _, h, _⟩ := hd; exact h
  have hnoise : t.noise = s.noise := by obtain ⟨_, _, _, _, _, h, _⟩ := hd; exact h
  exact ⟨hst, hseq.trans h.noMicroOps, by rw [ho, hi]; exact h.ovfIffFault, by rw [hn, hi]; exact h.lenZeroIff,
    fun hu => (h.configured (hi ▸ hu)).of_same hhw hn hfir hnoise, fun hr => (h.stream (hi ▸ hr)).of_same hhw hn hd⟩

theorem GoodState.with_inputs {s : State} (ms : List Move) (h : GoodState s) : GoodState { s with inputs := ms } :=
  h.of_same (h.storage.with_inputs ms) ⟨rfl, rfl, rfl, rfl, rfl, rfl, rfl⟩ rfl rfl rfl rfl rfl

theorem HostEffect.good {s t : State} (e : HostEffect s t) (h : GoodState s) : GoodState t := by
  obtain ⟨hd, ⟨hn, _, hi, ho, _⟩, hhw, _, hseq⟩ := e.keeps
  exact h.of_same (e.storage h.storage) hd hhw hseq hn hi ho

/-- While `UNCONFIGURED` only the storage and the status matter. -/
theorem GoodState.of_unconfigured {s : State} (hst : StorageOk s) (hseq : s.seq = []) (hn : s.cfgN = 0)
    (hi : s.inst = .unconfigured) (ho : s.ovf = false) : GoodState s :=
  ⟨hst, hseq, by simp [hi, ho], by simp [hi, hn], fun h => absurd hi h, fun h => by rw [hi] at h; cases h⟩

/-! ### An accepted OPEN -/

/-- An accepted OPEN leaves the kernel of its block length and a noise table in its range (R103, R104). -/
theorem configuredOk_of_open {s : State} {tbl : List Word64} (c : openCheck s.hw s.pend.blockLen.toNat = .none)
    (ht : ∀ x ∈ tbl, -8388607 ≤ x.toInt ∧ x.toInt ≤ 8388607) :
    ConfiguredOk (openReady { firGen (openClear s) with noise := tbl }) := by
  obtain ⟨⟨k, hk⟩, hf, hmax⟩ := (openCheck_none_iff _ _).1 c
  rw [hk] at hf hmax
  refine ⟨⟨k, hk, ?_, ?_⟩, ?_, ht⟩
  · exact (Nat.pow_le_pow_iff_right (by omega)).1 hf
  · exact (Nat.pow_le_pow_iff_right (by omega)).1 hmax
  · show (firKernel s.hw s.pend.blockLen.toNat ++ freeWords _ _).take s.pend.blockLen.toNat = _
    rw [List.take_left' (firKernel_length _ _)]
    rfl

/-- An accepted OPEN leaves the mutable state zero in the entries in use (R104). -/
theorem streamOk_of_open (s : State) (tbl : List Word64) :
    StreamOk (openReady { firGen (openClear s) with noise := tbl }) := by
  have hhif : (openReady { firGen (openClear s) with noise := tbl }).hif.take s.pend.blockLen.toNat
      = List.replicate s.pend.blockLen.toNat 0 := List.take_left' List.length_replicate
  have hlp : (openReady { firGen (openClear s) with noise := tbl }).lopass.take (s.pend.blockLen.toNat / s.hw.f)
      = List.replicate (s.pend.blockLen.toNat / s.hw.f) 0 := List.take_left' List.length_replicate
  refine ⟨by simp, fun x hx => ?_, ?_, fun x hx => ?_, dvd_zero _⟩
  · have hx0 : x ∈ List.replicate s.pend.blockLen.toNat 0 := by rw [← hhif]; exact hx
    rw [List.eq_of_mem_replicate hx0]
    exact ⟨le_rfl, by simp; positivity⟩
  · have hsum : (((openReady { firGen (openClear s) with noise := tbl }).hif.take s.pend.blockLen.toNat).map
        BitVec.toInt).sum = 0 := by rw [hhif]; simp
    exact hsum.symm
  · have hx0 : x ∈ List.replicate (s.pend.blockLen.toNat / s.hw.f) 0 := by rw [← hlp]; exact hx
    rw [List.eq_of_mem_replicate hx0]
    simp

/-- An accepted OPEN establishes the invariant on any whole storage. -/
theorem goodState_of_open {s : State} {tbl : List Word64} (hst : StorageOk s) (hseq : s.seq = [])
    (c : openCheck s.hw s.pend.blockLen.toNat = .none) (hl : tbl.length = s.hw.nl)
    (ht : ∀ x ∈ tbl, -8388607 ≤ x.toInt ∧ x.toInt ≤ 8388607) :
    GoodState (openReady { firGen (openClear s) with noise := tbl }) := by
  have hn : s.pend.blockLen ≠ 0 := by
    obtain ⟨⟨k, hk⟩, _⟩ := (openCheck_none_iff _ _).1 c
    intro h0
    rw [h0] at hk
    exact (Nat.two_pow_pos k).ne hk
  exact ⟨hst.opened (len_le_of_openCheck c) hl, hseq, by simp, by simpa using hn,
    fun _ => configuredOk_of_open c ht, fun _ => streamOk_of_open s tbl⟩

/-! ### A PROCESS -/

theorem BlockFrame.fir {s t : State} (h : BlockFrame s t) : t.fir = s.fir := by rw [h.same]
theorem BlockFrame.noise {s t : State} (h : BlockFrame s t) : t.noise = s.noise := by rw [h.same]
theorem BlockFrame.cfgN {s t : State} (h : BlockFrame s t) : t.cfgN = s.cfgN := by rw [h.same]
theorem BlockFrame.inst {s t : State} (h : BlockFrame s t) : t.inst = s.inst := by rw [h.same]
theorem BlockFrame.ovf {s t : State} (h : BlockFrame s t) : t.ovf = s.ovf := by rw [h.same]
theorem BlockFrame.seq {s t : State} (h : BlockFrame s t) : t.seq = s.seq := by rw [h.same]

/-- The block length divides `NL`, both being powers of two. -/
theorem ConfiguredOk.len_dvd_nl {s : State} (h : ConfiguredOk s) (hl : s.hw.legal = true) : s.len ∣ s.hw.nl := by
  obtain ⟨k, hk, _, hmax⟩ := h.length
  rw [hk]
  exact pow_dvd_pow 2 (hmax.trans (legal_le hl).2.1)

/-- The cursor stays a multiple of the block length (R109). -/
theorem cursorAdvance_stream {s : State} (hd : s.len ∣ s.hw.nl) (h : StreamOk s) : StreamOk (cursorAdvance s) := by
  refine ⟨h.prevRange, h.hifRange, h.hifSum, h.lopassRange, ?_⟩
  rw [cursorAdvance_noisei, mask_nl]
  exact (Nat.dvd_mod_iff hd).2 ((Nat.dvd_add_left dvd_rfl).2 h.cursorMultiple)

/-- What the groups of a good state's block leave is good, the groups having ended (R88). -/
theorem GoodState.of_blockFrame {s t : State} (h : GoodState s) (hr : s.inst = .ready) (f : BlockFrame s t)
    (g : processGroups s = .ok t) : GoodState t := by
  have hc := h.configured (by rw [hr]; simp)
  obtain ⟨k, hk, _⟩ := hc.length
  have hout := processGroups_outMem (size := 3 * s.hw.nMax) (by have := h.storage.lenBound; omega)
    h.storage.outCanonical h.storage.outInside g
  exact ⟨h.storage.of_blockFrame f hout, f.seq.trans h.noMicroOps, by rw [f.ovf, f.inst]; exact h.ovfIffFault,
    by rw [f.cfgN, f.inst]; exact h.lenZeroIff, fun _ => hc.of_same f.hw f.cfgN f.fir f.noise,
    fun _ => processGroups_stream hk (by rw [h.storage.hifLength]; exact h.storage.lenBound) (h.stream hr) g⟩

theorem GoodState.cursorAdvance {s : State} (h : GoodState s) : GoodState (cursorAdvance s) :=
  ⟨h.storage.cursorAdvance, h.noMicroOps, h.ovfIffFault, h.lenZeroIff,
    fun hu => (h.configured hu).of_same rfl rfl rfl rfl,
    fun hr => cursorAdvance_stream
      ((h.configured (by rw [cursorAdvance_inst] at hr; rw [hr]; simp)).len_dvd_nl h.storage.legal) (h.stream hr)⟩

theorem GoodState.complete {s : State} (code : ErrCode) (h : GoodState s) : GoodState (complete code s) :=
  h.of_same (h.storage.complete code) ⟨rfl, rfl, rfl, rfl, rfl, rfl, rfl⟩ rfl rfl rfl rfl rfl

/-- The fault keeps the tables and `CFG_N` (60_exceptions.md R123). -/
theorem GoodState.overflowFault {s : State} (h : GoodState s) (hr : s.inst = .ready) : GoodState (overflowFault s) := by
  have hconf : s.inst ≠ .unconfigured := by rw [hr]; simp
  exact ⟨h.storage.overflowFault, rfl, by simp, by simpa using mt h.lenZeroIff.1 hconf,
    fun _ => (h.configured hconf).of_same rfl rfl rfl rfl, fun h => by cases h⟩

/-! ### Every step -/

theorem CommandEffect.good {s t : State} (e : CommandEffect s t) (h : GoodState s) : GoodState t := by
  have hst := e.storage h.storage
  cases e with
  | only code _ => exact h.complete code
  | opened tbl _ c n =>
    obtain ⟨tbl', h', hl, _, hrange⟩ := noiseGen_ok (firGen (openClear s))
    have htbl : tbl' = tbl := congrArg State.noise (Except.ok.inj (h'.symm.trans n))
    subst htbl
    exact goodState_of_open h.storage h.noMicroOps c hl hrange
  | processed u _ hr g f => exact (h.of_blockFrame hr f g).cursorAdvance.complete _
  | faulted _ hr _ => exact h.overflowFault hr
  | closed _ => exact GoodState.of_unconfigured hst h.noMicroOps rfl rfl rfl

/-- Settles O43: each effect of a step keeps the invariant. -/
theorem stepKeepsInvariant : Obligations.StepKeepsInvariant := by
  intro s t h ht
  cases step_effect h.noMicroOps ht with
  | host ms e _ => exact e.good (h.with_inputs ms)
  | command ms _ e => exact e.good (h.with_inputs ms)
  | reset ms _ e =>
    rw [e]
    exact GoodState.of_unconfigured (StorageOk.platformReset h.storage.legal) rfl rfl rfl rfl

end Sys2Proof.Machine
end

section
/-! What a step may change of `STATE` (10_state.md R26) and of the tables (R24, 70_reset_and_hazards.md R134). -/

namespace Sys2Proof.Machine

/-- The transitions of `STATE` that a command makes (R26). -/
theorem CommandEffect.inst_cases {s t : State} (e : CommandEffect s t) :
    t.inst = s.inst ∨ (t.inst = .ready ∧ Pends s .openStream) ∨ (t.inst = .unconfigured ∧ Pends s .closeStream) ∨
      (t.inst = .fault ∧ s.inst = .ready ∧ Pends s .process) := by
  cases e with
  | only code _ => exact .inl rfl
  | opened tbl p _ _ => exact .inr (.inl ⟨rfl, p⟩)
  | processed u _ _ _ f => exact .inl f.inst
  | faulted p hr _ => exact .inr (.inr (.inr ⟨rfl, hr, p⟩))
  | closed p => exact .inr (.inr (.inl ⟨rfl, p⟩))

/-- A command that is no OPEN leaves the tables (R24; log 25). -/
theorem CommandEffect.tables {s t : State} (e : CommandEffect s t) :
    (t.fir = s.fir ∧ t.noise = s.noise) ∨ Pends s .openStream := by
  cases e with
  | opened tbl p _ _ => exact .inr p
  | processed u _ _ _ f => exact .inl ⟨f.fir, f.noise⟩
  | only | faulted | closed => exact .inl ⟨rfl, rfl⟩

/-- Settles O45: the host moves nothing of `STATE`, a command moves it as R26 says, reset leaves `UNCONFIGURED`. -/
theorem stateTransitions : Obligations.StateTransitions := by
  intro s t _ hs ht
  cases step_effect hs ht with
  | host ms e _ =>
    obtain ⟨_, ⟨_, _, hi, _⟩, _⟩ := e.keeps
    exact .inl hi
  | command ms _ e =>
    rcases e.inst_cases with h | h | ⟨h, p⟩ | h
    · exact .inl h
    · exact .inr (.inl h)
    · exact .inr (.inr (.inl ⟨h, .inl p⟩))
    · exact .inr (.inr (.inr h))
  | reset ms o e => exact .inr (.inr (.inl ⟨by rw [e]; rfl, .inr (by rw [o]; rfl)⟩))

/-- Settles O46: of the effects of a step only an accepted OPEN and reset write a table. -/
theorem tablesChangeOnlyByOpenAndReset : Obligations.TablesChangeOnlyByOpenAndReset := by
  intro s t _ hs ht hne
  cases step_effect hs ht with
  | host ms e _ =>
    obtain ⟨⟨_, _, _, _, hfir, hnoise, _⟩, _⟩ := e.keeps
    exact absurd ⟨hfir, hnoise⟩ hne
  | command ms _ e => exact .inl (e.tables.resolve_left hne)
  | reset ms o _ => exact .inr (by rw [o]; rfl)

end Sys2Proof.Machine
end

section
/-! The registers as the host reads and writes them (10_state.md R32 to R39). -/

namespace Sys2Proof.Machine

/-! ### One named register -/

theorem regOffset_mod_four (r : Reg) : regOffset r % 4 = 0 := by cases r <;> rfl

theorem regOffset_lt (r : Reg) : regOffset r < 0x100 := by cases r <;> decide

/-- `WR` of a register is its write. -/
theorem step_wr {s : State} {r : Reg} {v : Word32} {ms : List Move} (hl : s.hw.legal = true) (hs : s.seq = [])
    (hi : s.inputs = HostSyntax.wr r v :: ms) : step s = .next (regWrite r v { s with inputs := ms }) := by
  rw [step_regWrite hl hs (regOffset_mod_four r) (regOffset_lt r) hi, regAt_regOffset]

/-- A read of a register that has a value leaves it in `rdata` and changes nothing else. -/
theorem step_regRead_value {s : State} {off : Nat} {ms : List Move} (hl : s.hw.legal = true) (hs : s.seq = [])
    (h4 : off % 4 = 0) (ho : off < 0x100) (hv : s.busy = false ∨ anyWhileBusy (regAt off) = false)
    (hi : s.inputs = .access { space := .reg, off := off, width := 4, op := .read } :: ms) :
    step s = .next { s with inputs := ms, rdata := regValue s (regAt off) } := by
  rw [step_regRead hl hs h4 ho hi, regRead_of_value (s := { s with inputs := ms }) hv, regValue_inputs]

/-- `RD` of a register that has a value. -/
theorem step_rd {s : State} {r : Reg} {ms : List Move} (hl : s.hw.legal = true) (hs : s.seq = [])
    (hv : s.busy = false ∨ anyWhileBusy r = false) (hi : s.inputs = HostSyntax.rd r :: ms) :
    step s = .next { s with inputs := ms, rdata := regValue s r } := by
  have h := step_regRead_value hl hs (regOffset_mod_four r) (regOffset_lt r) (by rwa [regAt_regOffset]) hi
  rwa [regAt_regOffset] at h

/-- A write of a register that leaves the machine ready to read it, then the read. -/
theorem run_wr_rd {s t : State} {r : Reg} {v : Word32} {ms : List Move} (hl : s.hw.legal = true) (hs : s.seq = [])
    (hi : s.inputs = HostSyntax.wr r v :: HostSyntax.rd r :: ms)
    (hw : regWrite r v { s with inputs := HostSyntax.rd r :: ms } = t) (hv : anyWhileBusy r = false)
    (htl : t.hw.legal = true) (hts : t.seq = []) (hti : t.inputs = HostSyntax.rd r :: ms) :
    run 2 s = .next { t with inputs := ms, rdata := regValue t r } := by
  rw [run_succ 1 ((step_wr hl hs hi).trans (congrArg _ hw)), run_succ 0 (step_rd htl hts (.inr hv) hti), run_zero]

/-- Settles O51: each argument register is written and read back by `run_wr_rd`. -/
theorem argumentRegistersHoldWhatIsWritten : Obligations.ArgumentRegistersHoldWhatIsWritten := by
  intro s v ms hl hs
  exact ⟨fun hi => run_wr_rd hl hs hi rfl rfl hl hs rfl, fun hi => run_wr_rd hl hs hi rfl rfl hl hs rfl,
    fun hi => run_wr_rd hl hs hi rfl rfl hl hs rfl⟩

/-! ### `STATUS` -/

theorem toNat_append_eq_add {m n : Nat} (x : BitVec m) (y : BitVec n) :
    (x ++ y).toNat = x.toNat * 2 ^ n + y.toNat := by
  rw [BitVec.toNat_append, ← Nat.shiftLeft_add_eq_or_of_lt y.isLt, Nat.shiftLeft_eq]

/-- The fields of `STATUS` at their places (R34). -/
theorem statusWord_toNat (s : State) :
    (statusWord s).toNat = s.errcode.code.toNat * 2 ^ 8 + s.lost.toNat * 2 ^ 4 + s.ovf.toNat * 2 ^ 3
      + s.busy.toNat * 2 ^ 2 + s.inst.code.toNat := by
  simp only [statusWord, toNat_append_eq_add, BitVec.toNat_ofBool, BitVec.ofNat_eq_ofNat, BitVec.toNat_zero]
  omega

theorem statusWord_getLsbD (s : State) :
    (statusWord s).getLsbD 2 = s.busy ∧ (statusWord s).getLsbD 3 = s.ovf ∧ (statusWord s).getLsbD 4 = s.lost := by
  simp only [statusWord, BitVec.getLsbD_append, BitVec.getLsbD_ofBool]
  simp

/-- Settles O52: the value read is `statusWord`, whose fields are read off its sum of places. -/
theorem statusReadGivesItsFields : Obligations.StatusReadGivesItsFields := by
  intro s ms hl hs hi
  have hsum := statusWord_toNat s
  obtain ⟨hbusy, hovf, hlost⟩ := statusWord_getLsbD s
  have he := s.errcode.code.isLt
  have hc := s.inst.code.isLt
  have h1 := s.lost.toNat_lt
  have h2 := s.ovf.toNat_lt
  have h3 := s.busy.toNat_lt
  have hinst : (statusWord s).toNat % 4 = s.inst.code.toNat := by omega
  have herr : (statusWord s).toNat / 256 % 16 = s.errcode.code.toNat := by omega
  refine ⟨_, step_rd hl hs (.inr rfl) hi, rfl, ?_, hbusy, hovf, hlost, ?_, ?_, ?_⟩
  · refine hinst.trans ?_
    cases s.inst <;> rfl
  · show (statusWord s).toNat / 32 % 8 = 0
    omega
  · refine herr.trans ?_
    cases s.errcode <;> rfl
  · show (statusWord s).toNat / 4096 = 0
    omega

/-! ### Configuration, cursor and energy -/

/-- The two halves of the energy registers make `hifsum` (R37). -/
theorem regValue_hifsum (s : State) :
    regValue s .hifsumHi ++ regValue s .hifsumLo = if s.inst = .unconfigured then (0 : Word64) else s.hifsum := by
  by_cases hu : s.inst = .unconfigured
  · simp only [regValue, if_pos hu]
    decide
  · simp only [regValue, if_neg hu]
    exact BitVec.extractLsb'_append_extractLsb' (w := 32) (len := 32)

/-- Settles O53: while `BUSY = 0` every register has its value, and the two energy reads are joined. -/
theorem stateRegistersReadTheirElements : Obligations.StateRegistersReadTheirElements := by
  intro s ms hl hs hb
  refine ⟨step_rd hl hs (.inl hb), step_rd hl hs (.inl hb), step_rd hl hs (.inl hb), fun hi => ?_⟩
  exact ⟨_, _, step_rd hl hs (.inl hb) hi, step_rd hl hs (.inl hb) rfl, rfl, regValue_hifsum s⟩

/-! ### Constant registers and ignored writes -/

/-- A write of a register that is neither `CMD` nor an argument is ignored (R32, R39). -/
theorem regWrite_ignored {off : Nat} (ho : off = 0x04 ∨ 0x14 ≤ off) (v : Word32) (s : State) :
    regWrite (regAt off) v s = s := by
  rcases ho with rfl | ho
  · rfl
  · unfold regAt
    iterate 5 rw [if_neg (by omega)]
    repeat' split
    all_goals rfl

/-- Settles O54: each offset names its register, whose reads are constant and whose writes are ignored. -/
theorem constantRegistersAndIgnoredWrites : Obligations.ConstantRegistersAndIgnoredWrites := by
  intro s off ms hl hs h4 hlt
  refine ⟨fun hi => ?_, fun v hi ho => ?_⟩
  · have hread (hv : anyWhileBusy (regAt off) = false) := step_regRead_value hl hs h4 hlt (.inr hv) hi
    refine ⟨?_, ?_, ?_, ?_⟩
    · rintro (rfl | ho)
      · exact hread rfl
      · have hres := regAt_reserved ho
        rw [hres] at hread
        exact hread rfl
    · rintro rfl; exact hread rfl
    · rintro rfl; exact hread rfl
    · rintro rfl; exact hread rfl
  · rw [step_regWrite hl hs h4 hlt hi, regWrite_ignored ho]

end Sys2Proof.Machine
end

section
/-! What one host access can do and what it answers (20_memory.md R46 to R51): the rules the statements about the host's
memory rest on. -/

namespace Sys2Proof.Machine

/-! ### Each access by its form -/

section
variable {off width : Nat} {s : State}

theorem accessReg_legal (op : HostOp) (h : legalReg off width = true) :
    accessReg off width op s =
      .next (match op with | .read => regRead (regAt off) s | .write v => regWrite (regAt off) v s) := by
  unfold accessReg
  rw [if_pos h]
  cases op <;> rfl

/-- A `REG` access that is not a word at an aligned offset below `0x100` (R46; log 12). -/
theorem accessReg_illegal (op : HostOp) (h : ¬ legalReg off width = true) :
    accessReg off width op s = .refused .illegalRegAccess := if_neg h

theorem accessIn_read (h : legalBuffer s.hw off width = true) :
    accessIn off width .read s = .next { s with rdata := BitVec.ofNat 32 (memRead s.inMem off width) } := if_pos h

/-- The host has no write of `IN` while `BUSY = 1` (R54; log 13). -/
theorem accessIn_write (v : Word32) (h : legalBuffer s.hw off width = true) :
    accessIn off width (.write v) s =
      if s.busy then .refused .inWriteWhileBusy
      else .next { s with inMem := memWrite s.inMem off width v.toNat } := if_pos h

/-- A buffer access of another width or past the space (R47; log 12). -/
theorem accessIn_illegal (op : HostOp) (h : ¬ legalBuffer s.hw off width = true) :
    accessIn off width op s = .refused .illegalBufferAccess := if_neg h

theorem accessOut_read (h : legalBuffer s.hw off width = true) :
    accessOut off width .read s =
      if s.busy then .next (readAny width s)
      else .next { s with rdata := BitVec.ofNat 32 (memRead s.outMem off width) } := if_pos h

theorem accessOut_write (v : Word32) (h : legalBuffer s.hw off width = true) :
    accessOut off width (.write v) s = .next s := if_pos h

theorem accessOut_illegal (op : HostOp) (h : ¬ legalBuffer s.hw off width = true) :
    accessOut off width op s = .refused .illegalBufferAccess := if_neg h

end

/-! ### Every answered access -/

/-- What a read of a space returns where it is not left open (20_memory.md R47; 10_state.md R33 to R39). -/
def readValue (s : State) (a : Access) : Word32 :=
  match a.space with
  | .reg => regValue s (regAt a.off)
  | .inp => BitVec.ofNat 32 (memRead s.inMem a.off a.width)
  | .out => BitVec.ofNat 32 (memRead s.outMem a.off a.width)

/-- Everything an answered access can do, by what it asks for. -/
inductive AccessEffect (a : Access) (s : State) : State → Prop where
  | read (v : Word32) (d : Nat) (op : a.op = .read) (idle : s.busy = false → v = readValue s a ∧ d = s.draws) :
      AccessEffect a s { s with rdata := v, draws := d }
  | regWrite (v : Word32) (sp : a.space = .reg) (op : a.op = .write v) :
      AccessEffect a s (regWrite (regAt a.off) v s)
  | inWrite (v : Word32) (op : a.op = .write v) :
      AccessEffect a s { s with inMem := memWrite s.inMem a.off a.width v.toNat }
  | ignored (v : Word32) (op : a.op = .write v) : AccessEffect a s s

theorem regRead_accessEffect (off width : Nat) (s : State) :
    AccessEffect { space := .reg, off := off, width := width, op := .read } s (regRead (regAt off) s) := by
  by_cases hv : s.busy = false ∨ anyWhileBusy (regAt off) = false
  · rw [regRead_of_value hv]
    exact .read _ s.draws rfl fun _ => ⟨rfl, rfl⟩
  · obtain ⟨hbusy, hany⟩ := not_or.1 hv
    have hfree : regRead (regAt off) s = readAny 4 s := if_pos (by simpa using And.intro hbusy hany)
    rw [hfree]
    exact .read _ _ rfl fun hidle => absurd hidle hbusy

theorem accessReg_accessEffect {off width : Nat} {op : HostOp} {s t : State} (h : accessReg off width op s = .next t) :
    AccessEffect { space := .reg, off := off, width := width, op := op } s t := by
  by_cases hleg : legalReg off width = true
  · rw [accessReg_legal op hleg] at h
    cases h
    cases op with
    | read => exact regRead_accessEffect off width s
    | write v => exact .regWrite v rfl rfl
  · rw [accessReg_illegal op hleg] at h
    cases h

theorem accessIn_accessEffect {off width : Nat} {op : HostOp} {s t : State} (h : accessIn off width op s = .next t) :
    AccessEffect { space := .inp, off := off, width := width, op := op } s t := by
  by_cases hleg : legalBuffer s.hw off width = true
  · cases op with
    | read =>
      rw [accessIn_read hleg] at h
      cases h
      exact .read _ s.draws rfl fun _ => ⟨rfl, rfl⟩
    | write v =>
      rw [accessIn_write v hleg] at h
      split at h
      · cases h
      · cases h; exact .inWrite v rfl
  · rw [accessIn_illegal op hleg] at h
    cases h

theorem accessOut_accessEffect {off width : Nat} {op : HostOp} {s t : State} (h : accessOut off width op s = .next t) :
    AccessEffect { space := .out, off := off, width := width, op := op } s t := by
  by_cases hleg : legalBuffer s.hw off width = true
  · cases op with
    | read =>
      rw [accessOut_read hleg] at h
      split at h
      next hb => cases h; exact .read _ _ rfl fun hidle => by rw [hb] at hidle; cases hidle
      next => cases h; exact .read _ s.draws rfl fun _ => ⟨rfl, rfl⟩
    | write v =>
      rw [accessOut_write v hleg] at h
      cases h
      exact .ignored v rfl
  · rw [accessOut_illegal op hleg] at h
    cases h

theorem hostAccess_accessEffect {a : Access} {s t : State} (h : hostAccess a s = .next t) : AccessEffect a s t := by
  obtain ⟨sp, off, width, op⟩ := a
  cases sp with
  | reg => exact accessReg_accessEffect h
  | inp => exact accessIn_accessEffect h
  | out => exact accessOut_accessEffect h

/-- What a read returns depends neither on the moves to come nor on what was read before. -/
theorem readValue_after_read {s t : State} {a : Access} (h : t = { s with rdata := t.rdata, draws := t.draws })
    (ms : List Move) : readValue { t with inputs := ms } a = readValue s a := by
  rw [h]
  obtain ⟨sp, off, width, op⟩ := a
  cases sp with
  | reg => show regValue _ (regAt off) = regValue s (regAt off); cases regAt off <;> rfl
  | inp | out => rfl

/-! ### The answer of each legal access to a buffer -/

/-- A legal read of a buffer, `OUT` while `BUSY = 0` (R47, R54). -/
theorem step_bufferRead {s : State} {sp : Space} {off width : Nat} {ms : List Move} (hl : s.hw.legal = true)
    (hs : s.seq = []) (hsp : sp = .inp ∨ (sp = .out ∧ s.busy = false)) (hleg : legalBuffer s.hw off width = true)
    (hi : s.inputs = .access { space := sp, off := off, width := width, op := .read } :: ms) :
    step s = .next { s with
      inputs := ms, rdata := readValue s { space := sp, off := off, width := width, op := .read } } := by
  rw [step_access hl hs hi]
  rcases hsp with rfl | ⟨rfl, hb⟩
  · rw [hostAccess_inp, accessIn_read (s := { s with inputs := ms }) hleg]
    rfl
  · rw [hostAccess_out, accessOut_read (s := { s with inputs := ms }) hleg, hb]
    rfl

/-- A legal write of `IN` while `BUSY = 0` (R47). -/
theorem step_inWrite {s : State} {off width : Nat} {v : Word32} {ms : List Move} (hl : s.hw.legal = true)
    (hs : s.seq = []) (hb : s.busy = false) (hleg : legalBuffer s.hw off width = true)
    (hi : s.inputs = .access { space := .inp, off := off, width := width, op := .write v } :: ms) :
    step s = .next { s with inputs := ms, inMem := memWrite s.inMem off width v.toNat } := by
  rw [step_access hl hs hi, hostAccess_inp, accessIn_write (s := { s with inputs := ms }) v hleg, hb]
  rfl

/-- A legal write of `OUT` is ignored (R47). -/
theorem step_outWrite {s : State} {off width : Nat} {v : Word32} {ms : List Move} (hl : s.hw.legal = true)
    (hs : s.seq = []) (hleg : legalBuffer s.hw off width = true)
    (hi : s.inputs = .access { space := .out, off := off, width := width, op := .write v } :: ms) :
    step s = .next { s with inputs := ms } := by
  rw [step_access hl hs hi, hostAccess_out]
  exact accessOut_write (s := { s with inputs := ms }) v hleg

/-! ### The bytes of a word -/

/-- Byte `b` of a word, as the little-endian primitives write it (00_scope.md R13). -/
theorem extractLsb'_byte (x : Word32) (b : Nat) : x.extractLsb' (8 * b) 8 = BitVec.ofNat 8 (x.toNat / 256 ^ b) := by
  apply BitVec.eq_of_toNat_eq
  rw [BitVec.extractLsb'_toNat, BitVec.toNat_ofNat, Nat.shiftRight_eq_div_pow, Nat.pow_mul]

/-- A word is the sum of its four bytes at their places. -/
theorem toNat_eq_sum_bytes (x : Word32) :
    x.toNat = (x.extractLsb' 0 8).toNat + 256 * (x.extractLsb' 8 8).toNat + 65536 * (x.extractLsb' 16 8).toNat
      + 16777216 * (x.extractLsb' 24 8).toNat := by
  have hx := x.isLt
  simp only [BitVec.extractLsb'_toNat, Nat.shiftRight_eq_div_pow]
  omega

/-- A read of at most four bytes fits the 32 bits of `rdata`. -/
theorem toNat_ofNat_memRead {m : Memory} {off width : Nat} (hw : width ≤ 4) :
    (BitVec.ofNat 32 (memRead m off width)).toNat = memRead m off width := by
  have hpow : 256 ^ width ≤ 2 ^ 32 := Nat.pow_le_pow_right (n := 256) (by decide) hw
  rw [BitVec.toNat_ofNat, Nat.mod_eq_of_lt ((memRead_lt m off width).trans_le hpow)]

/-- A read returns the bytes of its range, the lowest address in the low bits (R45). -/
theorem ofNat_memRead_byte {m : Memory} {off width b : Nat} (hw : width ≤ 4) (hb : b < width) :
    (BitVec.ofNat 32 (memRead m off width)).extractLsb' (8 * b) 8 = m.read (off + b) := by
  rw [extractLsb'_byte, toNat_ofNat_memRead hw]
  exact BitVec.eq_of_toNat_eq (by rw [BitVec.toNat_ofNat]; exact memRead_byte m off hb)

/-- Above its bytes a read returns zero (log 21). -/
theorem toNat_ofNat_memRead_lt {m : Memory} {off width : Nat} (hw : width ≤ 4) :
    (BitVec.ofNat 32 (memRead m off width)).toNat < 2 ^ (8 * width) := by
  rw [toNat_ofNat_memRead hw, Nat.pow_mul]
  exact memRead_lt m off width

/-- Byte `b` of a register is the byte its space shows at `off + b` (R45). -/
theorem spaceByte_reg (s : State) {off b : Nat} (h4 : off % 4 = 0) (hb : b < 4) :
    spaceByte s .reg (off + b) = (regValue s (regAt off)).extractLsb' (8 * b) 8 := by
  have hmod : (off + b) % 4 = b := by omega
  show (regValue s (regAt (off + b - (off + b) % 4))).extractLsb' (8 * ((off + b) % 4)) 8 = _
  rw [hmod, Nat.add_sub_cancel]

end Sys2Proof.Machine
end

section
/-! The host's accesses and the buffers (20_memory.md R43 to R60): which state they touch, the bytes they move, the
command they issue, which accesses are refused, and where a bus address leads. -/

namespace Sys2Proof.Machine

/-! ### What changes a buffer -/

/-- A command leaves `IN`, and only an accepted PROCESS writes `OUT`, in the bytes of its block (R60). -/
theorem CommandEffect.buffers {s t : State} (e : CommandEffect s t) :
    t.inMem = s.inMem ∧
      (t.outMem = s.outMem ∨ (Pends s .process ∧ s.inst = .ready ∧ SameBytesFrom (3 * s.len) s.outMem t.outMem)) := by
  cases e with
  | only | opened | closed => exact ⟨rfl, .inl rfl⟩
  | processed u p hr _ f => exact ⟨(congrArg State.inMem f.same :), .inr ⟨p, hr, f.outRest⟩⟩
  | faulted p hr _ =>
    exact ⟨rfl, .inr ⟨p, hr, fun off ho => fillFree_read_outside (.inr (by rwa [Nat.zero_add]))⟩⟩

/-- Settles O47: of the effects of a step a host access may write `IN`, and a PROCESS or its fault the block's bytes of
`OUT`. -/
theorem buffersChangeOnlyAsStated : Obligations.BuffersChangeOnlyAsStated := by
  intro s t _ hs ht hr
  cases step_effect hs ht with
  | host ms e o =>
    obtain ⟨_, _, _, hout, _⟩ := e.keeps
    refine ⟨.inl hout, ?_⟩
    rcases o with h | ⟨a, h⟩ | ⟨addr, width, op, h⟩
    · exact .inl h
    · exact .inr (.inl ⟨a, ms, h⟩)
    · exact .inr (.inr ⟨addr, width, op, ms, h⟩)
  | command ms _ e =>
    obtain ⟨hin, hout⟩ := e.buffers
    exact ⟨hout, .inl hin⟩
  | reset ms o _ => exact absurd (by rw [o]; rfl) hr

/-! ### Side effects -/

theorem regAt_eq_cmd {off : Nat} (h : regAt off = .cmd) : off = 0 := by
  have hnamed : ∀ off < 0x34, regAt off = .cmd → off = 0 := by decide
  rcases lt_or_ge off 0x34 with ho | ho
  · exact hnamed off ho h
  · rw [regAt_reserved ho] at h
    cases h

/-- Only a write of `CMD` touches `BUSY`, `LOST` and the latch (R48). -/
theorem regWrite_latch {r : Reg} (hr : r ≠ .cmd) (v : Word32) (s : State) :
    (regWrite r v s).busy = s.busy ∧ (regWrite r v s).lost = s.lost ∧ (regWrite r v s).pend = s.pend := by
  cases r with
  | cmd => exact absurd rfl hr
  | _ => exact ⟨rfl, rfl, rfl⟩

theorem AccessEffect.latch {a : Access} {s t : State} (e : AccessEffect a s t)
    (hcmd : ¬ (a.space = .reg ∧ a.off = 0 ∧ a.op ≠ .read)) :
    t.busy = s.busy ∧ t.lost = s.lost ∧ t.pend = s.pend := by
  cases e with
  | regWrite v sp op => exact regWrite_latch (fun h => hcmd ⟨sp, regAt_eq_cmd h, by rw [op]; simp⟩) v s
  | read | inWrite | ignored => exact ⟨rfl, rfl, rfl⟩

/-- A read changes only what the host has read, and while `BUSY = 0` returns the value that is there (R44, R48). -/
theorem AccessEffect.of_read {a : Access} {s t : State} (e : AccessEffect a s t) (hop : a.op = .read) :
    t = { s with rdata := t.rdata, draws := t.draws } ∧
      (s.busy = false → t.rdata = readValue s a ∧ t.draws = s.draws) := by
  cases e with
  | read v d _ idle => exact ⟨rfl, idle⟩
  | regWrite v _ op | inWrite v op | ignored v op => rw [hop] at op; cases op

/-- Settles O55: a host access has the frame of `HostEffect`, and by its kind that of `AccessEffect`; a second read
finds the same value to return. -/
theorem onlyCmdWritesHaveSideEffects : Obligations.OnlyCmdWritesHaveSideEffects := by
  intro s t a ms hl hs hi ht
  rw [step_access hl hs hi] at ht
  obtain ⟨hdata, hstatus, hhw, hout, hseq⟩ := (hostAccess_effect ht).keeps
  have e := hostAccess_accessEffect ht
  refine ⟨hdata, hstatus, hout, hhw, hseq, e.latch, fun hop => (e.of_read hop).1, fun hop hb => ?_⟩
  obtain ⟨hframe, hidle⟩ := e.of_read hop
  obtain ⟨hv, hd⟩ := hidle hb
  refine ⟨hd, fun u hu => ?_⟩
  rw [step_access (s := { t with inputs := .access a :: ms }) (hhw ▸ hl) (hseq.trans hs) rfl] at hu
  have hbusy : t.busy = false := (congrArg State.busy hframe).trans hb
  obtain ⟨_, hagain⟩ := (hostAccess_accessEffect hu).of_read hop
  rw [(hagain hbusy).1, hv]
  exact readValue_after_read hframe ms

/-! ### Byte order -/

/-- A write of `IN` and the read of the same bytes (R47, R13). -/
theorem inWrite_then_read {s : State} {off width : Nat} {v : Word32} {ms : List Move} (hl : s.hw.legal = true)
    (hs : s.seq = []) (hwf : s.inMem.wf = true) (hw : width ≤ 4) (hleg : legalBuffer s.hw off width = true)
    (hb : s.busy = false)
    (hi : s.inputs = .access { space := .inp, off := off, width := width, op := .write v }
      :: .access { space := .inp, off := off, width := width, op := .read } :: ms) :
    ∃ t u, step s = .next t ∧ step t = .next u ∧
      (∀ b < width, t.inMem.read (off + b) = v.extractLsb' (8 * b) 8) ∧
      (∀ x, x < off ∨ off + width ≤ x → t.inMem.read x = s.inMem.read x) ∧
      u = { s with inputs := ms, inMem := t.inMem, rdata := u.rdata } ∧
      u.rdata.toNat = v.toNat % 2 ^ (8 * width) := by
  refine ⟨_, _, step_inWrite hl hs hb hleg hi, step_bufferRead hl hs (.inl rfl) hleg rfl, fun b hbw => ?_,
    fun x hx => memWrite_read_outside hx, rfl, ?_⟩
  · rw [extractLsb'_byte]
    exact memWrite_read_inside hwf hbw
  · show (BitVec.ofNat 32 (memRead (memWrite s.inMem off width v.toNat) off width)).toNat = _
    rw [toNat_ofNat_memRead hw, memRead_memWrite _ _ _ hwf, Nat.pow_mul]

/-- A read of a buffer returns its bytes and changes nothing else (R47, R45). -/
theorem bufferRead_bytes {s : State} {sp : Space} {off width : Nat} {ms : List Move} (hl : s.hw.legal = true)
    (hs : s.seq = []) (hsp : sp = .inp ∨ (sp = .out ∧ s.busy = false)) (hw : width ≤ 4)
    (hleg : legalBuffer s.hw off width = true)
    (hi : s.inputs = .access { space := sp, off := off, width := width, op := .read } :: ms) :
    ∃ t, step s = .next t ∧ (∀ b < width, t.rdata.extractLsb' (8 * b) 8 = spaceByte s sp (off + b)) ∧
      t.rdata.toNat < 2 ^ (8 * width) ∧ t = { s with inputs := ms, rdata := t.rdata } := by
  refine ⟨_, step_bufferRead hl hs hsp hleg hi, ?_, ?_, rfl⟩
  · intro b hb
    rcases hsp with rfl | ⟨rfl, _⟩ <;> exact ofNat_memRead_byte hw hb
  · rcases hsp with rfl | ⟨rfl, _⟩ <;> exact toNat_ofNat_memRead_lt hw

/-- A register read returns the value of the register's four bytes (R45). -/
theorem regRead_bytes {s : State} {off : Nat} {ms : List Move} (hl : s.hw.legal = true) (hs : s.seq = [])
    (hb : s.busy = false) (h4 : off % 4 = 0) (ho : off < 0x100)
    (hi : s.inputs = .access { space := .reg, off := off, width := 4, op := .read } :: ms) :
    ∃ t, step s = .next t ∧
      t.rdata.toNat = (spaceByte s .reg off).toNat + 256 * (spaceByte s .reg (off + 1)).toNat
        + 65536 * (spaceByte s .reg (off + 2)).toNat + 16777216 * (spaceByte s .reg (off + 3)).toNat := by
  refine ⟨_, step_regRead_value hl hs h4 ho (.inl hb) hi, ?_⟩
  rw [spaceByte_reg s (b := 1) h4 (by decide), spaceByte_reg s (b := 2) h4 (by decide),
    spaceByte_reg s (b := 3) h4 (by decide), ← Nat.add_zero off, spaceByte_reg s (b := 0) h4 (by decide)]
  exact toNat_eq_sum_bytes _

/-- Settles O56: a written range reads back, and each read is the sum of the bytes its space shows. -/
theorem hostAccessesAreLittleEndian : Obligations.HostAccessesAreLittleEndian := by
  refine ⟨fun s off width v ms hl hs hwf hw hin => ?_, fun s sp off width ms hl hs hsp hw hin => ?_,
    fun s off ms => regRead_bytes⟩
  · have hleg := (legalBuffer_iff s.hw off width).2 ⟨hw, hin⟩
    exact ⟨inWrite_then_read hl hs hwf (by omega) hleg, step_outWrite hl hs hleg⟩
  · exact bufferRead_bytes hl hs hsp (by omega) ((legalBuffer_iff s.hw off width).2 ⟨hw, hin⟩)

/-! ### Operands without storage -/

/-- Settles O34: each micro-operation first checks its operand against the storage. -/
theorem microOperationsOnMissingStorageFault : Obligations.MicroOperationsOnMissingStorageFault := by
  intro s k p y
  refine ⟨fun h => ?_, fun h => ?_, fun h => if_neg h.not_gt⟩
  · exact ⟨if_neg h.not_gt, if_neg h.not_gt, if_neg h.not_gt, if_neg h.not_gt⟩
  · exact ⟨if_neg h.not_ge, if_neg h.not_ge⟩

/-! ### Issuing a command -/

theorem issueCommand_idle {s : State} (c : Word32) (hb : s.busy = false) :
    issueCommand c s = { s with
      pend := { word := c, rate := s.argRate, blockLen := s.argBlocklen, seed := s.argSeed }, busy := true } :=
  if_neg (by rw [hb]; decide)

theorem issueCommand_busy {s : State} (c : Word32) (hb : s.busy = true) : issueCommand c s = { s with lost := true } :=
  if_pos hb

/-- Settles O50: a write of `CMD` is `issueCommand`, whose two branches are the two clauses. -/
theorem cmdWriteIssuesOrIsLost : Obligations.CmdWriteIssuesOrIsLost := by
  intro s c ms hl hs hi
  rw [step_wr hl hs hi]
  exact ⟨fun hb => congrArg _ (issueCommand_idle (s := { s with inputs := ms }) c hb),
    fun hb => congrArg _ (issueCommand_busy (s := { s with inputs := ms }) c hb)⟩

/-! ### Refused accesses -/

/-- Settles O57: each access function refuses what its legality test rejects, and the write of `IN` while busy. -/
theorem illegalAccessesAreRefused : Obligations.IllegalAccessesAreRefused := by
  intro s a ms hl hs hi
  rw [step_access hl hs hi]
  obtain ⟨sp, off, width, op⟩ := a
  refine ⟨?_, fun hsp hill => ?_, ?_⟩
  · rintro rfl hill
    exact accessReg_illegal op (mt (legalReg_iff off width).1 hill)
  · have hleg := mt (legalBuffer_iff s.hw off width).1 hill
    cases sp with
    | reg => exact absurd rfl hsp
    | inp => exact accessIn_illegal (s := { s with inputs := ms }) op hleg
    | out => exact accessOut_illegal (s := { s with inputs := ms }) op hleg
  · rintro v rfl rfl hw hin hb
    have hleg := (legalBuffer_iff s.hw off width).2 ⟨hw, hin⟩
    exact (accessIn_write (s := { s with inputs := ms }) v hleg).trans (if_pos hb)

/-! ### Bus addresses -/

/-- The address lies in the space's window (R59). -/
def InWindow (hw : Params) (addr : Nat) (sp : Space) : Prop :=
  spaceBase hw sp ≤ addr ∧ addr < spaceBase hw sp + spaceSize hw sp

theorem offsetIn_of_inWindow {hw : Params} {addr : Nat} {sp : Space} (h : InWindow hw addr sp) :
    offsetIn hw addr sp = some (sp, addr - spaceBase hw sp) := if_pos h

theorem offsetIn_of_not_inWindow {hw : Params} {addr : Nat} {sp : Space} (h : ¬ InWindow hw addr sp) :
    offsetIn hw addr sp = none := if_neg h

/-- An address in exactly one window is found there. -/
theorem locate_of_inWindow {hw : Params} {addr : Nat} {sp : Space} (h : InWindow hw addr sp)
    (hother : ∀ sp', sp' ≠ sp → ¬ InWindow hw addr sp') : locate hw addr = some (sp, addr - spaceBase hw sp) := by
  have hnone (sp' : Space) (hne : sp' ≠ sp) := offsetIn_of_not_inWindow (hother sp' hne)
  unfold locate
  cases sp with
  | reg => rw [offsetIn_of_inWindow h]; rfl
  | inp => rw [hnone .reg (by decide), offsetIn_of_inWindow h]; rfl
  | out => rw [hnone .reg (by decide), hnone .inp (by decide), offsetIn_of_inWindow h]; rfl

theorem locate_of_not_inWindow {hw : Params} {addr : Nat} (h : ∀ sp, ¬ InWindow hw addr sp) :
    locate hw addr = none := by
  unfold locate
  rw [offsetIn_of_not_inWindow (h .reg), offsetIn_of_not_inWindow (h .inp), offsetIn_of_not_inWindow (h .out)]
  rfl

theorem busAccess_of_locate {addr width off : Nat} {op : HostOp} {sp : Space} {s : State}
    (h : locate s.hw addr = some (sp, off)) :
    busAccess addr width op s = hostAccess { space := sp, off := off, width := width, op := op } s := by
  unfold busAccess
  rw [h]

theorem busAccess_of_locate_none {addr width : Nat} {op : HostOp} {s : State} (h : locate s.hw addr = none) :
    busAccess addr width op s = .refused .noSpaceAtAddress := by
  unfold busAccess
  rw [h]

/-- Settles O58: `locate` finds the one window the address lies in, or none. -/
theorem busAccessesReachTheirSpace : Obligations.BusAccessesReachTheirSpace := by
  intro s addr width op ms hl hs hi
  rw [step_move hl hs hi, takeMove_bus]
  refine ⟨fun sp hlo hhi hother => ?_, fun hnone => ?_⟩
  · rw [step_access (s := { s with inputs := _ :: ms }) hl hs rfl]
    exact busAccess_of_locate (s := { s with inputs := ms }) (locate_of_inWindow ⟨hlo, hhi⟩ hother)
  · exact busAccess_of_locate_none (s := { s with inputs := ms }) (locate_of_not_inWindow hnone)

end Sys2Proof.Machine
end

section
/-! The decoder and the encoder (30_encoding.md R61 to R65, R69; operand fields log 14): what each does with the fields
of a word, and that each undoes the other, on words and on bytes. -/

namespace Sys2Proof

/-! ### Bytes -/

theorem length_bytesOfNum (n w : Nat) : (bytesOfNum n w).length = n := by
  induction n generalizing w with
  | zero => rfl
  | succ n ih => exact congrArg (· + 1) (ih (w / 256))

/-- Little-endian bytes spell the number back, as far as they reach (20_memory.md R45). -/
theorem numOfBytes_bytesOfNum (n w : Nat) : numOfBytes (bytesOfNum n w) = w % 256 ^ n := by
  induction n generalizing w with
  | zero => exact (Nat.mod_one w).symm
  | succ n ih =>
    calc numOfBytes (bytesOfNum (n + 1) w) = w % 256 + 256 * (w / 256 % 256 ^ n) :=
          congrArg (w % 256 + 256 * ·) (ih (w / 256))
      _ = w % 256 ^ (n + 1) := by rw [Nat.pow_succ', Nat.mod_mul]

theorem ofNat_toNat_self {n : Nat} (x : BitVec n) : BitVec.ofNat n x.toNat = x := by
  rw [BitVec.ofNat_toNat, BitVec.setWidth_eq]

/-- The bytes of a word spell it. -/
theorem ofNat_numOfBytes (n : Nat) (x : BitVec (8 * n)) :
    BitVec.ofNat (8 * n) (numOfBytes (bytesOfNum n x.toNat)) = x := by
  have hx : x.toNat < 256 ^ n := x.isLt.trans_eq (Nat.pow_mul 2 8 n)
  rw [numOfBytes_bytesOfNum, Nat.mod_eq_of_lt hx, ofNat_toNat_self]

theorem codeOfBytes_bytes (c : Code) : codeOfBytes c.bytes = .ok c := by
  unfold codeOfBytes Code.bytes
  cases c with
  | command w =>
    rw [length_bytesOfNum, if_pos rfl]
    exact congrArg (fun x => Except.ok (Code.command x)) (ofNat_numOfBytes 4 w)
  | micro w =>
    rw [length_bytesOfNum, if_neg (by decide), if_pos rfl]
    exact congrArg (fun x => Except.ok (Code.micro x)) (ofNat_numOfBytes 13 w)

/-- The decoder reads the same from a code's bytes as from the code. -/
theorem decodeBytes_bytes (c : Code) : decodeBytes c.bytes = decode c := by
  unfold decodeBytes
  rw [codeOfBytes_bytes]

/-! ### Command words -/

/-- The command that `OP` names in a word whose `RSVD` is 0 (R63, R65). -/
def commandOf (op : BitVec 4) : Instr :=
  if op = 0x0 then .nop
  else if op = 0x1 then .openStream
  else if op = 0x2 then .process
  else if op = 0x3 then .closeStream
  else if op.toNat < 0x8 then .reservedOp47 (op.extractLsb' 0 2)
  else .reservedOp8F (op.extractLsb' 0 3)

theorem decodeCommand_of_rsvd_ne {w : Word32} (h : rsvdField w ≠ 0) : decodeCommand w = .error .reservedBits := if_pos h

theorem decodeCommand_of_rsvd {w : Word32} (h : rsvdField w = 0) : decodeCommand w = .ok (commandOf (opField w)) := by
  unfold decodeCommand commandOf
  rw [if_neg (not_not_intro h)]
  simp only [apply_ite (Except.ok (ε := DecodeError))]

theorem rsvdField_eq_zero_iff (w : Word32) : rsvdField w = 0 ↔ w.toNat / 16 = 0 := by
  have hw := w.isLt
  rw [BitVec.toNat_eq, rsvdField, BitVec.extractLsb'_toNat, Nat.shiftRight_eq_div_pow, BitVec.ofNat_eq_ofNat,
    BitVec.toNat_zero]
  omega

theorem opField_zero_append (op : BitVec 4) : opField ((0 : BitVec 28) ++ op) = op :=
  BitVec.extractLsb'_append_eq_right

/-- A word whose `RSVD` is 0 is the command word of its `OP` (R62). -/
theorem commandWord_opField {w : Word32} (h : rsvdField w = 0) : commandWord (opField w) = .command w := by
  have hw := (rsvdField_eq_zero_iff w).1 h
  refine congrArg Code.command (BitVec.eq_of_toNat_eq ?_)
  rw [Machine.toNat_append_eq_add, opField, BitVec.extractLsb'_toNat, Nat.shiftRight_eq_div_pow, BitVec.ofNat_eq_ofNat,
    BitVec.toNat_zero]
  omega

theorem decode_commandWord (op : BitVec 4) : decode (commandWord op) = .ok (commandOf op) :=
  (decodeCommand_of_rsvd (Laws.Format.rsvd_commandWord op)).trans (by rw [opField_zero_append])

theorem encode_commandOf (op : BitVec 4) : encode (commandOf op) = commandWord op := by decide +revert

theorem wellFormed_commandOf (op : BitVec 4) : (commandOf op).wellFormed = true := by decide +revert

theorem isCommand_commandOf (op : BitVec 4) : (commandOf op).isCommand = true := by decide +revert

theorem commandOf_reserved47 (low : BitVec 2) : commandOf ((1 : BitVec 2) ++ low) = .reservedOp47 low := by
  decide +revert

theorem commandOf_reserved8F (low : BitVec 3) : commandOf ((1 : BitVec 1) ++ low) = .reservedOp8F low := by
  decide +revert

/-! ### Micro-operation words -/

/-- The micro-operation word with these fields: `y` in `[103:40]`, the index in `[39:8]`, the identifier in `[7:0]`
(log 14). -/
def microWord (y : Word64) (k : Word32) (id : BitVec 8) : MicroWord := y ++ k ++ id

section
variable (y : Word64) (k : Word32) (id : BitVec 8)

theorem toNat_microWord : (microWord y k id).toNat = y.toNat * 2 ^ 40 + k.toNat * 2 ^ 8 + id.toNat := by
  unfold microWord
  rw [Machine.toNat_append_eq_add, Machine.toNat_append_eq_add]
  omega

@[simp] theorem microIdField_microWord : microIdField (microWord y k id) = id :=
  Laws.Format.microId_append (y ++ k) id rfl

@[simp] theorem indexField_microWord : indexField (microWord y k id) = k := by
  have hk := k.isLt
  have hid := id.isLt
  rw [BitVec.toNat_eq, indexField, BitVec.extractLsb'_toNat, Nat.shiftRight_eq_div_pow, toNat_microWord]
  omega

@[simp] theorem valueField_microWord : valueField (microWord y k id) = y := by
  have hy := y.isLt
  have hk := k.isLt
  have hid := id.isLt
  rw [BitVec.toNat_eq, valueField, BitVec.extractLsb'_toNat, Nat.shiftRight_eq_div_pow, toNat_microWord]
  omega

end

/-- A micro-operation word is made of its fields. -/
theorem microWord_fields (w : MicroWord) : microWord (valueField w) (indexField w) (microIdField w) = w := by
  have hw := w.isLt
  rw [BitVec.toNat_eq, toNat_microWord, valueField, indexField, microIdField]
  simp only [BitVec.extractLsb'_toNat, Nat.shiftRight_eq_div_pow]
  omega

/-- No bit from 40 up: the word carries no value. -/
theorem toNat_lt_40_iff (w : MicroWord) : w.toNat < 2 ^ 40 ↔ valueField w = 0 := by
  have hw := w.isLt
  rw [BitVec.toNat_eq, valueField, BitVec.extractLsb'_toNat, Nat.shiftRight_eq_div_pow, BitVec.ofNat_eq_ofNat,
    BitVec.toNat_zero]
  omega

/-- No bit from 8 up: the word carries no operand. -/
theorem toNat_lt_8_iff (w : MicroWord) : w.toNat < 2 ^ 8 ↔ valueField w = 0 ∧ indexField w = 0 := by
  have hw := w.isLt
  rw [← toNat_lt_40_iff, BitVec.toNat_eq, indexField, BitVec.extractLsb'_toNat, Nat.shiftRight_eq_div_pow,
    BitVec.ofNat_eq_ofNat, BitVec.toNat_zero]
  omega

/-- No bit from 72 up: of the value, the word carries the sub-phase only. -/
theorem toNat_lt_72_iff (w : MicroWord) : w.toNat < 2 ^ 72 ↔ valueField w = (0 : Word32) ++ phaseField w := by
  have hw := w.isLt
  rw [BitVec.toNat_eq, Machine.toNat_append_eq_add, valueField, phaseField]
  simp only [BitVec.extractLsb'_toNat, Nat.shiftRight_eq_div_pow, BitVec.ofNat_eq_ofNat, BitVec.toNat_zero]
  omega

theorem phaseField_microWord (p k : Word32) (id : BitVec 8) :
    phaseField (microWord ((0 : Word32) ++ p) k id) = p := by
  have hp := p.isLt
  have hk := k.isLt
  have hid := id.isLt
  rw [BitVec.toNat_eq, phaseField, BitVec.extractLsb'_toNat, Nat.shiftRight_eq_div_pow, toNat_microWord,
    Machine.toNat_append_eq_add, BitVec.ofNat_eq_ofNat, BitVec.toNat_zero]
  omega

theorem microPlain_eq (id : BitVec 8) : microPlain id = .micro (microWord 0 0 id) := by
  refine congrArg Code.micro (BitVec.eq_of_toNat_eq ?_)
  rw [toNat_microWord, Machine.toNat_append_eq_add]
  simp

theorem microIndex_eq (id : BitVec 8) (k : Nat) : microIndex id k = .micro (microWord 0 (BitVec.ofNat 32 k) id) := rfl

theorem encode_reconSubsample (g p : Nat) :
    encode (.reconSubsample g p) =
      .micro (microWord ((0 : Word32) ++ BitVec.ofNat 32 p) (BitVec.ofNat 32 g) 0x30) := rfl

theorem encode_encode24 (j : Nat) (y : Word64) :
    encode (.encode24 j y) = .micro (microWord y (BitVec.ofNat 32 j) 0x41) := rfl

theorem noBitsFrom_of_lt {w : MicroWord} {lo : Nat} {i : Instr} (h : w.toNat < 2 ^ lo) : noBitsFrom w lo i = .ok i :=
  if_pos h

theorem noBitsFrom_eq_ok {w : MicroWord} {lo : Nat} {i i' : Instr} (h : noBitsFrom w lo i = .ok i') :
    w.toNat < 2 ^ lo ∧ i = i' := by
  unfold noBitsFrom at h
  split at h
  · cases h; exact ⟨‹_›, rfl⟩
  · cases h

theorem toNat_ofNat_of_indexFits {k : Nat} (h : indexFits k = true) : (BitVec.ofNat 32 k).toNat = k :=
  (BitVec.toNat_ofNat k 32).trans (Nat.mod_eq_of_lt (of_decide_eq_true h))

theorem indexFits_toNat (k : Word32) : indexFits k.toNat = true := decide_eq_true k.isLt

/-! ### The forms of the micro-operations -/

/-- `i` is the micro-operation with the identifier `id` and no operand. -/
structure PlainForm (id : BitVec 8) (i : Instr) : Prop where
  wellFormed : i.wellFormed = true
  encode_eq : encode i = microPlain id
  decode_eq : ∀ w, microIdField w = id → decodeMicro w = noBitsFrom w 8 i

/-- `mk` is the micro-operation with the identifier `id` and one index operand. -/
structure IndexForm (id : BitVec 8) (mk : Nat → Instr) : Prop where
  wellFormed : ∀ k, (mk k).wellFormed = indexFits k
  encode_eq : ∀ k, encode (mk k) = microIndex id k
  decode_eq : ∀ w, microIdField w = id → decodeMicro w = noBitsFrom w 40 (mk (indexField w).toNat)

theorem plainForm_firGen : PlainForm 0x10 .firGen := ⟨rfl, rfl, fun _ h => by rw [decodeMicro, h]; rfl⟩
theorem plainForm_noiseGen : PlainForm 0x11 .noiseGen := ⟨rfl, rfl, fun _ h => by rw [decodeMicro, h]; rfl⟩
theorem plainForm_cursorAdvance : PlainForm 0x42 .cursorAdvance := ⟨rfl, rfl, fun _ h => by rw [decodeMicro, h]; rfl⟩

theorem indexForm_splitSample : IndexForm 0x20 .splitSample :=
  ⟨fun _ => rfl, fun _ => rfl, fun _ h => by rw [decodeMicro, h]; rfl⟩
theorem indexForm_lpStore : IndexForm 0x21 .lpStore :=
  ⟨fun _ => rfl, fun _ => rfl, fun _ h => by rw [decodeMicro, h]; rfl⟩
theorem indexForm_splitGroup : IndexForm 0x22 .splitGroup :=
  ⟨fun _ => rfl, fun _ => rfl, fun _ h => by rw [decodeMicro, h]; rfl⟩
theorem indexForm_reconGroup : IndexForm 0x31 .reconGroup :=
  ⟨fun _ => rfl, fun _ => rfl, fun _ h => by rw [decodeMicro, h]; rfl⟩
theorem indexForm_decode24 : IndexForm 0x40 .decode24 :=
  ⟨fun _ => rfl, fun _ => rfl, fun _ h => by rw [decodeMicro, h]; rfl⟩

theorem decodeMicro_reconSubsample {w : MicroWord} (h : microIdField w = 0x30) :
    decodeMicro w = noBitsFrom w 72 (.reconSubsample (indexField w).toNat (phaseField w).toNat) := by
  rw [decodeMicro, h]; rfl

theorem decodeMicro_encode24 {w : MicroWord} (h : microIdField w = 0x41) :
    decodeMicro w = .ok (.encode24 (indexField w).toNat (valueField w)) := by
  rw [decodeMicro, h]; rfl

/-! ### Decoding an encoded instruction -/

theorem PlainForm.decode_encode {id : BitVec 8} {i : Instr} (f : PlainForm id i) : decode (encode i) = .ok i := by
  rw [f.encode_eq, microPlain_eq]
  refine (f.decode_eq _ (microIdField_microWord 0 0 id)).trans (noBitsFrom_of_lt ((toNat_lt_8_iff _).2 ?_))
  exact ⟨valueField_microWord 0 0 id, indexField_microWord 0 0 id⟩

theorem IndexForm.decode_encode {id : BitVec 8} {mk : Nat → Instr} (f : IndexForm id mk) {k : Nat}
    (h : (mk k).wellFormed = true) : decode (encode (mk k)) = .ok (mk k) := by
  have hk : indexFits k = true := f.wellFormed k ▸ h
  rw [f.encode_eq, microIndex_eq]
  refine (f.decode_eq _ (microIdField_microWord ..)).trans ?_
  rw [noBitsFrom_of_lt ((toNat_lt_40_iff _).2 (valueField_microWord ..)), indexField_microWord,
    toNat_ofNat_of_indexFits hk]

theorem decode_encode_reconSubsample {g p : Nat} (hg : indexFits g = true) (hp : indexFits p = true) :
    decode (encode (.reconSubsample g p)) = .ok (.reconSubsample g p) := by
  rw [encode_reconSubsample]
  refine (decodeMicro_reconSubsample (microIdField_microWord ..)).trans ?_
  have hlt := (toNat_lt_72_iff (microWord ((0 : Word32) ++ BitVec.ofNat 32 p) (BitVec.ofNat 32 g) 0x30)).2
    (by rw [valueField_microWord, phaseField_microWord])
  rw [noBitsFrom_of_lt hlt, indexField_microWord, phaseField_microWord, toNat_ofNat_of_indexFits hg,
    toNat_ofNat_of_indexFits hp]

theorem decode_encode_encode24 {j : Nat} (y : Word64) (hj : indexFits j = true) :
    decode (encode (.encode24 j y)) = .ok (.encode24 j y) := by
  rw [encode_encode24]
  refine (decodeMicro_encode24 (microIdField_microWord ..)).trans ?_
  rw [indexField_microWord, valueField_microWord, toNat_ofNat_of_indexFits hj]

theorem decode_encode {i : Instr} (h : i.wellFormed = true) : decode (encode i) = .ok i := by
  cases i with
  | nop => exact decode_commandWord 0x0
  | openStream => exact decode_commandWord 0x1
  | process => exact decode_commandWord 0x2
  | closeStream => exact decode_commandWord 0x3
  | reservedOp47 low => exact (decode_commandWord _).trans (congrArg _ (commandOf_reserved47 low))
  | reservedOp8F low => exact (decode_commandWord _).trans (congrArg _ (commandOf_reserved8F low))
  | firGen => exact plainForm_firGen.decode_encode
  | noiseGen => exact plainForm_noiseGen.decode_encode
  | splitSample j => exact indexForm_splitSample.decode_encode h
  | lpStore g => exact indexForm_lpStore.decode_encode h
  | splitGroup g => exact indexForm_splitGroup.decode_encode h
  | reconSubsample g p =>
    obtain ⟨hg, hp⟩ := Bool.and_eq_true_iff.1 h
    exact decode_encode_reconSubsample hg hp
  | reconGroup g => exact indexForm_reconGroup.decode_encode h
  | decode24 j => exact indexForm_decode24.decode_encode h
  | encode24 j y => exact decode_encode_encode24 y h
  | cursorAdvance => exact plainForm_cursorAdvance.decode_encode

/-- Settles O2, by the form of the instruction; the bytes are read back as the word they spell. -/
theorem decodeOfEncodeIsIdentity : Obligations.DecodeOfEncodeIsIdentity := by
  intro i h
  exact ⟨decode_encode h, (decodeBytes_bytes (encode i)).trans (decode_encode h)⟩

/-! ### Encoding a decoded instruction -/

theorem PlainForm.encode_decode {id : BitVec 8} {i i' : Instr} {w : MicroWord} (f : PlainForm id i)
    (hid : microIdField w = id) (h : decodeMicro w = .ok i') : i'.wellFormed = true ∧ encode i' = .micro w := by
  obtain ⟨hlt, rfl⟩ := noBitsFrom_eq_ok ((f.decode_eq w hid).symm.trans h)
  obtain ⟨hy, hk⟩ := (toNat_lt_8_iff w).1 hlt
  refine ⟨f.wellFormed, ?_⟩
  rw [f.encode_eq, microPlain_eq, ← hid]
  conv_rhs => rw [← microWord_fields w, hy, hk]

theorem IndexForm.encode_decode {id : BitVec 8} {mk : Nat → Instr} {i : Instr} {w : MicroWord} (f : IndexForm id mk)
    (hid : microIdField w = id) (h : decodeMicro w = .ok i) : i.wellFormed = true ∧ encode i = .micro w := by
  obtain ⟨hlt, rfl⟩ := noBitsFrom_eq_ok ((f.decode_eq w hid).symm.trans h)
  refine ⟨(f.wellFormed _).trans (indexFits_toNat _), ?_⟩
  rw [f.encode_eq, microIndex_eq, ofNat_toNat_self, ← hid]
  conv_rhs => rw [← microWord_fields w, (toNat_lt_40_iff w).1 hlt]

theorem encode_decode_reconSubsample {i : Instr} {w : MicroWord} (hid : microIdField w = 0x30)
    (h : decodeMicro w = .ok i) : i.wellFormed = true ∧ encode i = .micro w := by
  obtain ⟨hlt, rfl⟩ := noBitsFrom_eq_ok ((decodeMicro_reconSubsample hid).symm.trans h)
  refine ⟨Bool.and_eq_true_iff.2 ⟨indexFits_toNat _, indexFits_toNat _⟩, ?_⟩
  rw [encode_reconSubsample, ofNat_toNat_self, ofNat_toNat_self, ← hid]
  conv_rhs => rw [← microWord_fields w, (toNat_lt_72_iff w).1 hlt]

theorem encode_decode_encode24 {i : Instr} {w : MicroWord} (hid : microIdField w = 0x41)
    (h : decodeMicro w = .ok i) : i.wellFormed = true ∧ encode i = .micro w := by
  cases (decodeMicro_encode24 hid).symm.trans h
  refine ⟨indexFits_toNat _, ?_⟩
  rw [encode_encode24, ofNat_toNat_self, ← hid, microWord_fields]

theorem encode_decodeMicro {w : MicroWord} {i : Instr} (h : decodeMicro w = .ok i) :
    i.wellFormed = true ∧ encode i = .micro w := by
  by_cases h10 : microIdField w = 0x10
  · exact plainForm_firGen.encode_decode h10 h
  by_cases h11 : microIdField w = 0x11
  · exact plainForm_noiseGen.encode_decode h11 h
  by_cases h20 : microIdField w = 0x20
  · exact indexForm_splitSample.encode_decode h20 h
  by_cases h21 : microIdField w = 0x21
  · exact indexForm_lpStore.encode_decode h21 h
  by_cases h22 : microIdField w = 0x22
  · exact indexForm_splitGroup.encode_decode h22 h
  by_cases h30 : microIdField w = 0x30
  · exact encode_decode_reconSubsample h30 h
  by_cases h31 : microIdField w = 0x31
  · exact indexForm_reconGroup.encode_decode h31 h
  by_cases h40 : microIdField w = 0x40
  · exact indexForm_decode24.encode_decode h40 h
  by_cases h41 : microIdField w = 0x41
  · exact encode_decode_encode24 h41 h
  by_cases h42 : microIdField w = 0x42
  · exact plainForm_cursorAdvance.encode_decode h42 h
  rw [decodeMicro, if_neg h10, if_neg h11, if_neg h20, if_neg h21, if_neg h22, if_neg h30, if_neg h31, if_neg h40,
    if_neg h41, if_neg h42] at h
  cases h

theorem encode_decodeCommand {w : Word32} {i : Instr} (h : decodeCommand w = .ok i) :
    i.wellFormed = true ∧ encode i = .command w := by
  by_cases hr : rsvdField w = 0
  · cases (decodeCommand_of_rsvd hr).symm.trans h
    exact ⟨wellFormed_commandOf _, (encode_commandOf _).trans (commandWord_opField hr)⟩
  · cases (decodeCommand_of_rsvd_ne hr).symm.trans h

/-- Settles O3, by the kind of the code: its word is made of the fields its instruction keeps and of zeros. -/
theorem encodeOfDecodeIsIdentity : Obligations.EncodeOfDecodeIsIdentity := by
  intro c i h
  cases c with
  | command w => exact encode_decodeCommand h
  | micro w => exact encode_decodeMicro h

/-- Settles O4: with `RSVD` 0 the decoder gives the command that `OP` names. -/
theorem commandWordDecodesIffReservedBitsZero : Obligations.CommandWordDecodesIffReservedBitsZero := by
  intro w
  rw [ne_eq, ← rsvdField_eq_zero_iff]
  exact ⟨fun h => ⟨_, decodeCommand_of_rsvd h, isCommand_commandOf _⟩, fun h => decodeCommand_of_rsvd_ne h⟩

/-! ### The opcode table -/

/-- A row whose bytes are those of an instruction's code is read as that instruction. -/
theorem decodeTableWord_of_bytes {n w : Nat} {i : Instr} (h : i.wellFormed = true)
    (hb : tableBytes n w = (encode i).bytes) : decodeTableWord n w = some i := by
  unfold decodeTableWord
  rw [hb, decodeBytes_bytes, decode_encode h]

/-- Settles O1: each row stands for the bytes of its instruction's code, which decode to it (O2). -/
theorem opcodeTableWordsDecode : Obligations.OpcodeTableWordsDecode := by
  unfold Obligations.OpcodeTableWordsDecode
  have row {n w : Nat} {i : Instr} := @decodeTableWord_of_bytes n w i
  refine ⟨row rfl rfl, row rfl rfl, row rfl rfl, row rfl rfl, fun l => row rfl ?_, fun l => row rfl ?_, row rfl rfl,
    row rfl rfl, row rfl rfl, row rfl rfl, row rfl rfl, row rfl rfl, row rfl rfl, row rfl rfl, row rfl rfl, row rfl rfl⟩
  · revert l; decide
  · revert l; decide

end Sys2Proof
end

section
/-! The reserved command words (30_encoding.md R65, 60_exceptions.md R120) complete with their code and nothing else. -/

namespace Sys2Proof.Machine

theorem step_pending {s : State} (hl : s.hw.legal = true) (hs : s.seq = []) (hi : s.inputs = [])
    (hb : s.busy = true) : step s = commandStep s := by
  rw [step_block hl hs hi]
  exact if_pos hb

theorem commandStep_of_ok {s : State} {i : Instr} (h : decodeCommand s.pend.word = .ok i) :
    commandStep s = exec i s := by
  unfold commandStep
  rw [h]

theorem commandStep_of_error {s : State} {e : DecodeError} (h : decodeCommand s.pend.word = .error e) :
    commandStep s = .next (complete .cmdReservedBits s) := by
  unfold commandStep
  rw [h]

theorem exec_reservedOp47 (l : BitVec 2) (s : State) :
    exec (.reservedOp47 l) s = .next (complete .cmdReservedOp s) := rfl

theorem exec_reservedOp8F (l : BitVec 3) (s : State) :
    exec (.reservedOp8F l) s = .next (complete .cmdReservedOp s) := rfl

/-- An `OP` from 4 up names a reserved instruction. -/
theorem exec_commandOf_reserved {op : BitVec 4} (h : 4 ≤ op.toNat) (s : State) :
    exec (commandOf op) s = .next (complete .cmdReservedOp s) := by
  have hop : (∃ l, commandOf op = .reservedOp47 l) ∨ ∃ l, commandOf op = .reservedOp8F l := by decide +revert
  obtain ⟨l, hl⟩ | ⟨l, hl⟩ := hop
  · rw [hl, exec_reservedOp47]
  · rw [hl, exec_reservedOp8F]

theorem toNat_opField (w : Word32) : (opField w).toNat = w.toNat % 16 := BitVec.extractLsb'_toNat ..

/-- Settles O7: the block's step on a pending word decodes it, and no reserved word gets past its completion. -/
theorem reservedWordsCompleteWithTheirCode : Obligations.ReservedWordsCompleteWithTheirCode := by
  refine ⟨fun s hl hs hi hb => ⟨fun hr => ?_, fun hr hop => ?_⟩, fun s l => exec_reservedOp47 l s,
    fun s l => exec_reservedOp8F l s⟩
  · rw [step_pending hl hs hi hb]
    exact commandStep_of_error (decodeCommand_of_rsvd_ne (mt (rsvdField_eq_zero_iff _).1 hr))
  · rw [step_pending hl hs hi hb, commandStep_of_ok (decodeCommand_of_rsvd ((rsvdField_eq_zero_iff _).2 hr))]
    exact exec_commandOf_reserved (by rw [toNat_opField]; omega) s

end Sys2Proof.Machine
end

section
/-! The kernel and the tables an OPEN builds (40_fir_coeff_gen.md R73, R75; 41_noise_table_gen.md R77): functions
of the block length and of the seed. -/

namespace Sys2Proof.Machine

theorem exec_firGen (s : State) : exec .firGen s = .next (firGen s) := rfl

theorem exec_openStream (s : State) : exec .openStream s = execOpen s := rfl

/-- Settles O17: the kernel fills the entries in use and free values the others, up to the storage's `N_MAX`. -/
theorem firGenWritesTheKernel : Obligations.FirGenWritesTheKernel := by
  intro s hlen
  refine ⟨firGen s, exec_firGen s, fun i hi => ?_, ?_, rfl⟩
  · rw [firGen_fir, List.getElem?_append_left (by simpa using hi)]
    exact firKernel_getElem? s.hw hi
  · rw [firGen_fir, List.length_append, firKernel_length, freeWords_length]
    omega

/-- The noise table is what the loop makes of the draws of the latched seed. -/
theorem noiseLoop_of_noiseGen {s t : State} (h : noiseGen s = .ok t) :
    noiseLoop s.hw.fBits (noiseDraw s.hw.noiseDraw s.pend.seed) 0 s.hw.nl 0 = .ok t.noise := by
  obtain ⟨tbl, htbl, h⟩ := bind_ok h
  cases h
  exact htbl

/-- The legal block lengths `2^k` (44_block_processor.md R103). -/
theorem openCheck_two_pow {hw : Params} {n k : Nat} (hn : n = 2 ^ k) (hf : hw.fBits ≤ k) (hmax : k ≤ hw.nMaxBits) :
    openCheck hw n = .none :=
  (openCheck_none_iff hw n).2
    ⟨⟨k, hn⟩, hn ▸ Nat.pow_le_pow_right (by decide) hf, hn ▸ Nat.pow_le_pow_right (by decide) hmax⟩

/-- The tables an accepted OPEN leaves: the kernel of its length and the residuals of its seed's draws. -/
theorem tables_of_open {s t : State} (c : openCheck s.hw s.pend.blockLen.toNat = .none)
    (h : exec .openStream s = .next t) :
    t.fir.take s.pend.blockLen.toNat = firKernel s.hw s.pend.blockLen.toNat ∧
      noiseLoop s.hw.fBits (noiseDraw s.hw.noiseDraw s.pend.seed) 0 s.hw.nl 0 = .ok t.noise := by
  rw [exec_openStream] at h
  obtain ⟨hc, _⟩ | ⟨_, tbl, hgen, hopen⟩ := execOpen_cases s
  · exact absurd c hc
  · cases h.symm.trans hopen
    have hnoise := noiseLoop_of_noiseGen hgen
    exact ⟨List.take_left' (firKernel_length _ _), hnoise⟩

/-- Settles O16: both tables are functions of what is the same in the two OPENs. -/
theorem tablesDependOnLengthAndSeedOnly : Obligations.TablesDependOnLengthAndSeedOnly := by
  intro s s' t t' k k' _ hhw hn hf hmax hn' hf' hmax' ht ht'
  obtain ⟨hfir, hnoise⟩ := tables_of_open (openCheck_two_pow hn hf hmax) ht
  obtain ⟨hfir', hnoise'⟩ := tables_of_open (openCheck_two_pow hn' (hhw ▸ hf') (hhw ▸ hmax')) ht'
  rw [hn] at hfir
  rw [hn', hhw] at hfir'
  rw [hhw] at hnoise'
  refine ⟨fun hk => ?_, fun hseed => ?_⟩
  · rw [hfir, ← hk, hfir']
  · rw [hseed, hnoise] at hnoise'
    exact (Except.ok.inj hnoise').symm

end Sys2Proof.Machine
end

section
/-! The binary64 arithmetic of the reference kernel at its centre tap (40_fir_coeff_gen.md R72, R74): there every
operation but those of the window's constants is exact, since it multiplies or divides by a power of two. -/

namespace Sys2Proof.Machine

/-! ### Exact results -/

/-- A count of least steps that 53 significant bits hold: the rounding leaves it alone. -/
def IsB64 (v : Nat) : Prop := 2 ^ (v.log2 - 52) ∣ v

theorem B64.unit_pos : 0 < B64.unit := by
  unfold B64.unit
  positivity

theorem log2_mul_two_pow {v : Nat} (hv : v ≠ 0) (k : Nat) : (v * 2 ^ k).log2 = v.log2 + k := by
  induction k with
  | zero => simp
  | succ k ih =>
    rw [pow_succ', mul_left_comm, Nat.log2_two_mul (mul_ne_zero hv (by positivity)), ih, Nat.add_assoc]

/-- A binary64 value stays one when multiplied by a power of two. -/
theorem IsB64.mul_two_pow {v : Nat} (h : IsB64 v) (k : Nat) : IsB64 (v * 2 ^ k) := by
  unfold IsB64 at h ⊢
  obtain rfl | hv := Nat.eq_zero_or_pos v
  · simp
  · rw [log2_mul_two_pow hv.ne']
    calc 2 ^ (v.log2 + k - 52) ∣ 2 ^ (v.log2 - 52 + k) := pow_dvd_pow 2 (by omega)
      _ = 2 ^ (v.log2 - 52) * 2 ^ k := pow_add ..
      _ ∣ v * 2 ^ k := Nat.mul_dvd_mul_right h _

theorem isB64_two_pow (k : Nat) : IsB64 (2 ^ k) := by
  have h1 : IsB64 1 := one_dvd 1
  simpa using h1.mul_two_pow k

theorem isB64_unit : IsB64 B64.unit := by
  unfold B64.unit
  exact isB64_two_pow _

theorem roundTiesEven_mul {q d : Nat} (hd : 0 < d) : roundTiesEven (q * d) d = q := by
  unfold roundTiesEven
  rw [Nat.mul_mod_left, Nat.mul_div_cancel q hd, if_pos (by omega)]

/-- A quotient that is a binary64 value is its own rounding. -/
theorem roundNat_exact {n d v : Nat} (hd : 0 < d) (h : n * B64.unit = v * d) (hv : IsB64 v) : roundNat n d = v := by
  unfold roundNat
  rw [h, Nat.mul_div_cancel v hd]
  obtain ⟨q, hq⟩ := hv
  generalize 2 ^ (v.log2 - 52) = ulp at hq
  obtain rfl | hulp := Nat.eq_zero_or_pos ulp
  · simp [hq]
  · have hsplit : v * d = q * (d * ulp) := by rw [hq]; ring
    show roundTiesEven (v * d) (d * ulp) * ulp = v
    rw [hsplit, roundTiesEven_mul (Nat.mul_pos hd hulp), hq, Nat.mul_comm]

theorem B64.round_natCast (n d : Nat) : B64.round n d = roundNat n d := by
  unfold B64.round
  obtain rfl | hn := Nat.eq_zero_or_pos n
  · simp [roundNat, roundTiesEven]
  · rw [Int.sign_eq_one_of_pos (by omega), Int.natAbs_natCast, one_mul]

theorem B64.round_exact {n d v : Nat} (hd : 0 < d) (h : n * B64.unit = v * d) (hv : IsB64 v) :
    B64.round n d = v := by
  rw [B64.round_natCast, roundNat_exact hd h hv]

theorem B64.ofInt_one : B64.ofInt 1 = (B64.unit : Nat) :=
  B64.round_exact (n := 1) one_pos (by omega) isB64_unit

theorem B64.ofInt_two_pow (k : Nat) : B64.ofInt (2 ^ k : Nat) = (B64.unit * 2 ^ k : Nat) :=
  B64.round_exact one_pos (by rw [mul_one, Nat.mul_comm]) (isB64_unit.mul_two_pow k)

protected theorem B64.mul_comm (a b : B64) : B64.mul a b = B64.mul b a := by
  unfold B64.mul
  rw [Int.mul_comm]

theorem B64.mul_exact {a b v : Nat} (h : a * b = v * B64.unit) (hv : IsB64 v) : B64.mul a b = v := by
  unfold B64.mul
  rw [← Int.natCast_mul]
  exact B64.round_exact (Nat.mul_pos unit_pos unit_pos) (by rw [h, Nat.mul_assoc]) hv

theorem B64.mul_unit {v : Nat} (hv : IsB64 v) : B64.mul v (B64.unit : Nat) = v := B64.mul_exact rfl hv

theorem B64.mul_two_pow {v : Nat} (hv : IsB64 v) (k : Nat) :
    B64.mul v (B64.unit * 2 ^ k : Nat) = (v * 2 ^ k : Nat) :=
  B64.mul_exact (by ring) (hv.mul_two_pow k)

theorem B64.toQ32_natCast (v : Nat) : B64.toQ32 v = (v * 2 ^ 32 / B64.unit : Nat) := by
  unfold B64.toQ32
  obtain rfl | hv := Nat.eq_zero_or_pos v
  · simp
  · rw [Int.sign_eq_one_of_pos (by omega), Int.natAbs_natCast, one_mul]

theorem B64.div_two_pow {v : Nat} (hv : IsB64 v) (k : Nat) :
    B64.div (v * 2 ^ k : Nat) (B64.unit * 2 ^ k : Nat) = v := by
  have hpos : 0 < B64.unit * 2 ^ k := Nat.mul_pos unit_pos (Nat.two_pow_pos k)
  unfold B64.div
  rw [Int.sign_eq_one_of_pos (by exact_mod_cast hpos), Int.natAbs_natCast, one_mul]
  exact B64.round_exact hpos (by ring) hv

/-! ### The centre tap -/

/-- The binary64 `pi` as a count of least steps. -/
theorem B64.pi_eq : B64.pi = (roundNat piScaled trigUnit : Nat) := B64.round_natCast ..

theorem isB64_pi : IsB64 (roundNat piScaled trigUnit) := by
  unfold IsB64
  decide +kernel

/-- The binary64 `pi` is not π, but its cosine is nearer to -1 than to the next value. -/
theorem B64.cos_pi : B64.cos B64.pi = -(B64.unit : Int) := by decide +kernel

theorem two_pow_succ_half (n : Nat) : 2 ^ (n + 1) / 2 = 2 ^ n := by
  rw [pow_succ, Nat.mul_div_cancel _ two_pos]

/-- The sinc's special case: its amplitude is 1. -/
theorem refSinc_centre (n f : Nat) : refSinc (2 ^ (n + 1)) f (2 ^ n) = B64.unit := by
  unfold refSinc
  rw [if_pos (two_pow_succ_half n).symm, B64.ofInt_one]

/-- The window's angle `2 pi (N/2) / N` is the binary64 `pi`, and its cosine rounds to -1; the rounded constants
add up to 1. -/
theorem refWindow_centre (n : Nat) : refWindow (2 ^ (n + 1)) (2 ^ n) = B64.unit := by
  have htwo : B64.ofInt 2 = (B64.unit * 2 ^ 1 : Nat) := B64.ofInt_two_pow 1
  have hangle : B64.div (B64.mul (B64.mul (B64.ofInt 2) B64.pi) (B64.ofInt (2 ^ n : Nat)))
      (B64.ofInt (2 ^ (n + 1) : Nat)) = B64.pi := by
    rw [htwo, B64.ofInt_two_pow n, B64.ofInt_two_pow (n + 1), B64.pi_eq, B64.mul_comm _ (roundNat _ _ : Nat),
      B64.mul_two_pow isB64_pi, B64.mul_two_pow (isB64_pi.mul_two_pow 1), mul_assoc, ← pow_add, add_comm 1 n,
      B64.div_two_pow isB64_pi]
  have hconstants : B64.add (B64.round 54 100) (-(B64.mul (B64.round 46 100) (-(B64.unit : Int)))) = B64.unit := by
    decide +kernel
  unfold refWindow
  simp only [hangle, B64.cos_pi, hconstants]

/-- `4 / F` is exact, and so is its place in Q32. -/
theorem B64.four_div_two_pow {f e : Nat} (he : B64.unit = 2 ^ e * 2 ^ f) :
    B64.div (B64.ofInt 4) (B64.ofInt (2 ^ f : Nat)) = (2 ^ e * 2 ^ 2 : Nat) := by
  have hfour : B64.ofInt 4 = (2 ^ e * 2 ^ 2 * 2 ^ f : Nat) := by
    rw [Nat.mul_right_comm, ← he]
    exact B64.ofInt_two_pow 2
  rw [hfour, B64.ofInt_two_pow f, B64.div_two_pow ((isB64_two_pow e).mul_two_pow 2)]

/-- Settles O19: the sinc and the window are 1 there, so the tap is the exact quotient `4 / F` in Q32. -/
theorem referenceCentreTap : Obligations.ReferenceCentreTap := by
  intro n f hn hmax hf
  obtain ⟨m, rfl⟩ : ∃ m, n = m + 1 := ⟨n - 1, by omega⟩
  obtain ⟨e, he⟩ : ∃ e, B64.unit = 2 ^ e * 2 ^ f :=
    ⟨1074 - f, by unfold B64.unit; rw [Nat.pow_sub_mul_pow]; omega⟩
  have hb : IsB64 (2 ^ e * 2 ^ 2) := (isB64_two_pow e).mul_two_pow 2
  have hq : 2 ^ e * 2 ^ 2 * 2 ^ 32 / B64.unit = 2 ^ 34 / 2 ^ f := by
    rw [he, mul_assoc, Nat.mul_div_mul_left _ _ (Nat.two_pow_pos e), ← pow_add]
  unfold refCoeff
  rw [two_pow_succ_half, refSinc_centre, refWindow_centre, B64.four_div_two_pow he, B64.mul_unit hb, B64.mul_unit hb,
    B64.toQ32_natCast, hq, Int.natCast_div, Int.natCast_pow, Int.natCast_pow, Nat.cast_ofNat]

end Sys2Proof.Machine
end

section
/-! The noise table (41_noise_table_gen.md R78 to R80): the residuals of the draws against their running estimate. -/

namespace Sys2Proof.Machine

theorem exec_noiseGen (s : State) : exec .noiseGen s = .next (settle s (noiseGen s)) := rfl

/-- Settles O18: the loop's residuals are the table, and the recurrence from 0 keeps the interval of the draws, so
no check fails and the step settles to the new table. -/
theorem noiseGenWritesTheResiduals : Obligations.NoiseGenWritesTheResiduals := by
  intro s
  obtain ⟨tbl, hgen, hlen, hentry, hrange⟩ := noiseGen_ok s
  have hexec : exec .noiseGen s = .next { s with noise := tbl } := by rw [exec_noiseGen, settle_of_ok hgen]
  have hestimate := exactEstimate_range s.hw.fBits (fun j => (noiseDraw s.hw.noiseDraw s.pend.seed j).toInt)
    (noiseDraw_range s.hw.noiseDraw s.pend.seed)
  exact ⟨{ s with noise := tbl }, hexec, hlen, hentry, hestimate, hrange, rfl⟩

end Sys2Proof.Machine
end

section
/-! The leaky integrator and the micro-operations `SPLIT_SAMPLE` and `LP_STORE` (42_band_splitter.md R82 to R86). -/

namespace Sys2Proof.Machine

/-! ### The recurrence -/

/-- Settles O20: no check fails, and the exact recurrence is monotone in both arguments and fixes each bound. -/
theorem recurrenceKeepsItsInterval : Obligations.RecurrenceKeepsItsInterval := by
  intro b lo hi x v hxlo hxhi hvlo hvhi
  obtain ⟨y, hleak, hy⟩ := leak_ok b x v
  have hrange := recurrence_range (b := b) ⟨hxlo, hxhi⟩ ⟨hvlo, hvhi⟩
  exact ⟨y, hleak, hy, by rwa [hy]⟩

/-- A constant input moves the estimate by the difference of the bands, so it rests exactly in the input's (R85). -/
theorem leak_constant (b : Nat) (c x : Word64) :
    ∃ y, leak b x c = .ok y ∧ y.toInt = x.toInt + (c.toInt / (2 ^ b : Nat) - x.toInt / (2 ^ b : Nat)) ∧
      (y = x ↔ x.toInt / (2 ^ b : Nat) = c.toInt / (2 ^ b : Nat)) := by
  obtain ⟨y, hleak, hy⟩ := leak_ok b x c
  refine ⟨y, hleak, by omega, ?_⟩
  rw [← BitVec.toInt_inj]
  omega

/-! ### One sample -/

theorem exec_splitSample {s : State} {j : Nat} (h : j < s.hw.nMax) :
    exec (.splitSample j) s = .next (settle s (splitSample j s)) := if_pos h

/-- What `SPLIT_SAMPLE(j)` makes of the state (R82, R83). -/
structure SampleEffect (j : Nat) (s t : State) : Prop where
  prev : t.prev.toInt
    = s.prev.toInt - s.prev.toInt / (2 ^ s.hw.fBits : Nat) + (decodeSample s j).toInt / (2 ^ s.hw.fBits : Nat)
  magnitude : (readAt t.hif j).toInt = (((decodeSample s j).toInt - t.prev.toInt).natAbs : Int) / (2 * s.len : Nat)
  energy : t.hifsum.toInt = s.hifsum.toInt - (readAt s.hif j).toInt + (readAt t.hif j).toInt
  frame : t = { s with prev := t.prev, hifsum := t.hifsum, hif := s.hif.set j (readAt t.hif j) }

theorem splitSample_effect {s : State} {j k : Nat} (hj : j < s.hif.length) (hlen : s.len = 2 ^ k)
    (hp : -8388608 ≤ s.prev.toInt ∧ s.prev.toInt ≤ 8388607) (hs : s.hifsum.toInt.natAbs ≤ 2 ^ 61)
    (ho : (readAt s.hif j).toInt.natAbs ≤ 2 ^ 61) : ∃ t, splitSample j s = .ok t ∧ SampleEffect j s t := by
  obtain ⟨prev, h, sum, hok, hprev, _, hh, hsum⟩ := splitSample_ok s j k hlen hp hs ho
  have hread : readAt (s.hif.set j h) j = h := readAt_set_self h hj
  exact ⟨_, hok, hprev, by rw [hread]; exact hh, by rw [hread]; exact hsum, by rw [hread]⟩

/-- Settles O22: the effect of the sample, and R84 for the range of the estimate. -/
theorem splitSampleUpdatesEstimateAndEnergy : Obligations.SplitSampleUpdatesEstimateAndEnergy := by
  intro s j k hj hl hlen hlo hhi hs ho
  obtain ⟨t, hok, e⟩ := splitSample_effect hl hlen ⟨hlo, hhi⟩ hs ho
  have hrange := recurrence_range (b := s.hw.fBits) ⟨hlo, hhi⟩ (decodeSample_toInt s j).2
  rw [← e.prev] at hrange
  have hexec : exec (.splitSample j) s = .next t := by rw [exec_splitSample hj, settle_of_ok hok]
  exact ⟨t, hexec, e.prev, hrange.1, hrange.2, e.magnitude, e.energy, e.frame⟩

/-! ### The store -/

theorem exec_lpStore {s : State} {g : Nat} (h : g < s.hw.nMax) : exec (.lpStore g) s = .next (lpStore g s) := if_pos h

/-- Settles O23: the store sets one entry of the ring. -/
theorem lpStoreWritesPrev : Obligations.LpStoreWritesPrev := by
  intro s g hg hl
  refine ⟨lpStore g s, exec_lpStore hg, ?_, fun i hi => ?_, rfl⟩
  · rw [lpStore_lopass, List.getElem?_set_self (by omega)]
  · rw [lpStore_lopass, List.getElem?_set_ne hi.symm]

/-! ### One group -/

theorem exec_splitGroup {s : State} {g : Nat} (h : (g + 1) * s.hw.f ≤ s.hw.nMax) :
    exec (.splitGroup g) s = .next (settle s (splitGroup g s)) := if_pos h

/-- A group of the block lies in the storage. -/
theorem StorageOk.group_end_le {s : State} {g : Nat} (h : StorageOk s) (hg : g < s.groups) :
    (g + 1) * s.hw.f ≤ s.hw.nMax := (Machine.group_end_le hg).trans h.lenBound

/-- What the splitter may change leaves a good state good, where the storage is whole and the stream good. -/
theorem GoodState.of_splitFrame {s t : State} (h : GoodState s) (f : SplitFrame s t) (hst : StorageOk t)
    (hs : StreamOk t) : GoodState t := by
  have hinst : t.inst = s.inst := by rw [f]
  have hcfgN : t.cfgN = s.cfgN := by rw [f]
  refine ⟨hst, by rw [f]; exact h.noMicroOps, by rw [f]; exact h.ovfIffFault, ?_, fun hu => ?_, fun _ => hs⟩
  · rw [hcfgN, hinst]
    exact h.lenZeroIff
  · exact (h.configured (hinst ▸ hu)).of_same f.hw hcfgN (by rw [f]) (by rw [f])

/-- Settles O25: the samples and the store keep the stream good (R88), and the group's position is in the ring. -/
theorem splitGroupKeepsTheEnergySum : Obligations.SplitGroupKeepsTheEnergySum := by
  intro s g h hr hg
  have hst := h.storage
  obtain ⟨k, hk, _⟩ := (h.configured (by rw [hr]; decide)).length
  obtain ⟨t, hok, hstream, hframe, _, hlp⟩ :=
    splitGroup_stream hk hg (by rw [hst.hifLength]; exact hst.lenBound) (h.stream hr)
  have hgl : g < s.lopass.length := by
    rw [hst.lopassLength]
    exact hg.trans_le ((groups_le_len s).trans hst.lenBound)
  refine ⟨t, ?_, h.of_splitFrame hframe (hst.splitGroup hok) hstream, ?_, hframe⟩
  · rw [exec_splitGroup (hst.group_end_le hg), settle_of_ok hok]
  · rw [hlp, List.getElem?_set_self hgl]

end Sys2Proof.Machine
end

section
/-! Runs of micro-operations from the sequencer (10_state.md R41; log 14), and `SPLIT_GROUP` as such a run
(42_band_splitter.md R87). -/

namespace Sys2Proof.Machine

/-! ### A list of micro-operations -/

/-- The sequencer word of a well-formed micro-operation decodes to it. -/
theorem decodeMicro_microWordOf {i : Instr} (hw : i.wellFormed = true) (hc : i.isCommand = false) :
    decodeMicro (microWordOf i) = .ok i := by
  have hd := decode_encode hw
  unfold microWordOf
  cases he : encode i with
  | micro w => rwa [he] at hd
  | command w =>
    rw [he] at hd
    exact absurd (decodeCommand_isCommand hd) (by rw [hc]; decide)

/-- In the block that began at `s`, each of these micro-operations runs as its body and stays in the block. -/
def RunInBlock (s : State) (l : List (Instr × (State → Except Overflow State))) : Prop :=
  ∀ x ∈ l, ∀ u, InBlock s u → RunsAs x.1 x.2 u ∧ ∀ v, x.2 u = .ok v → InBlock s v

theorem RunInBlock.append {s : State} {l l' : List (Instr × (State → Except Overflow State))} (h : RunInBlock s l)
    (h' : RunInBlock s l') : RunInBlock s (l ++ l') :=
  fun x hx => (List.mem_append.1 hx).elim (h x) (h' x)

theorem InBlock.refl {s : State} (h : s.outMem.wf = true) : InBlock s s := ⟨BlockFrame.refl s, h⟩

theorem InBlock.withSeq_nil {s u : State} (h : InBlock s u) (hs : s.seq = []) : u.withSeq [] = u := by
  have hu : u.seq = [] := h.frame.seq.trans hs
  rw [State.withSeq, ← hu]

theorem withMicroOps_eq_withSeq (s : State) (l : List (Instr × (State → Except Overflow State))) :
    s.withMicroOps (l.map Prod.fst) = s.withSeq (l.map (fun x => microWordOf x.1) ++ []) := by
  rw [State.withMicroOps, List.map_map, List.append_nil]
  rfl

section
variable {s : State} {l : List (Instr × (State → Except Overflow State))}

/-- A list of micro-operations that meets no overflow runs to its end, one step for each. -/
theorem run_microOps_of_ok {t : State} (hw : s.outMem.wf = true) (hs : s.seq = []) (hl : RunInBlock s l)
    (ht : seqBody l s = .ok t) : run l.length (s.withMicroOps (l.map Prod.fst)) = .next t := by
  rw [withMicroOps_eq_withSeq]
  obtain ⟨u, hu, hin, hrun⟩ | ⟨⟨e, he⟩, _⟩ := run_seqBody s hw l s (InBlock.refl hw) hl []
  · cases ht.symm.trans hu
    exact (hrun 0).trans (by rw [run_zero, hin.withSeq_nil hs])
  · cases ht.symm.trans he

/-- A list of micro-operations in the sequencer ends where its bodies settle. -/
theorem run_microOps (hw : s.outMem.wf = true) (hs : s.seq = []) (hl : RunInBlock s l) :
    ∃ n ≤ l.length, run n (s.withMicroOps (l.map Prod.fst)) = .next (settle s (seqBody l s)) := by
  cases ht : seqBody l s with
  | ok t => exact ⟨l.length, le_rfl, run_microOps_of_ok hw hs hl ht⟩
  | error e =>
    rw [withMicroOps_eq_withSeq]
    obtain ⟨u, hu, _⟩ | ⟨_, n, hn, hrun⟩ := run_seqBody s hw l s (InBlock.refl hw) hl []
    · cases ht.symm.trans hu
    · exact ⟨n, hn, hrun⟩

end

/-! ### A loop of micro-operations -/

/-- The micro-operations of the loop `for k in i .. i + n - 1`, each with its body. -/
def loopOps (mk : Nat → Instr) (body : Nat → State → Except Overflow State) (i n : Nat) :
    List (Instr × (State → Except Overflow State)) :=
  (List.range n).map fun k => (mk (i + k), body (i + k))

section
variable (mk : Nat → Instr) (body : Nat → State → Except Overflow State)

@[simp] theorem loopOps_length (i n : Nat) : (loopOps mk body i n).length = n := by simp [loopOps]

theorem loopOps_instrs (i n : Nat) : (loopOps mk body i n).map Prod.fst = (List.range n).map fun k => mk (i + k) := by
  rw [loopOps, List.map_map]
  rfl

theorem loopOps_succ (i n : Nat) : loopOps mk body i (n + 1) = (mk i, body i) :: loopOps mk body (i + 1) n := by
  unfold loopOps
  rw [List.range_succ_eq_map, List.map_cons, List.map_map]
  simp only [Function.comp_def, Nat.add_zero, Nat.add_succ, Nat.succ_add]

/-- The bodies one after another are the loop. -/
theorem seqBody_loopOps (i n : Nat) (s : State) : seqBody (loopOps mk body i n) s = forUp body i n s := by
  induction n generalizing i s with
  | zero => rfl
  | succ n ih =>
    rw [loopOps_succ, seqBody, forUp_succ]
    exact congrArg (body i s).bind (funext (ih (i + 1)))

theorem mem_loopOps {i n : Nat} {x : Instr × (State → Except Overflow State)} (h : x ∈ loopOps mk body i n) :
    ∃ q < n, x = (mk (i + q), body (i + q)) := by
  obtain ⟨q, hq, rfl⟩ := List.mem_map.1 h
  exact ⟨q, List.mem_range.1 hq, rfl⟩

end

/-! ### Samples and stores in a block -/

/-- An index below `N_MAX` fits its field (00_scope.md R5). -/
theorem StorageOk.indexFits {s : State} {j : Nat} (h : StorageOk s) (hj : j < s.hw.nMax) : indexFits j = true :=
  decide_eq_true (by have := legal_nMax_le h.legal; omega)

/-- The samples of a block, wherever the loop takes them, run from the sequencer and stay in the block. -/
theorem runInBlock_samples {s : State} {pos : Nat → Nat} {i n : Nat} (hs : StorageOk s)
    (hpos : ∀ q < n, pos (i + q) < s.len) :
    RunInBlock s (loopOps (fun k => .splitSample (pos k)) (fun k => splitSample (pos k)) i n) := by
  intro x hx u hu
  obtain ⟨q, hq, rfl⟩ := mem_loopOps _ _ hx
  have hj := hpos q hq
  have hmax := hj.trans_le hs.lenBound
  refine ⟨runsAs_splitSample (by rw [hu.hw]; exact hs.legal) (decodeMicro_microWordOf (hs.indexFits hmax) rfl)
    (by rw [hu.hw]; exact hmax), fun v hv => ⟨?_, ?_⟩⟩
  · exact hu.frame.trans (splitSample_blockFrame (by rw [hu.frame.len]; exact hj) hv)
  · obtain ⟨y, hy⟩ := splitSample_frame hv
    rw [hy]
    exact hu.canonical

/-- The store of a group, as a micro-operation with its body. -/
def storeOp (g : Nat) : Instr × (State → Except Overflow State) := (.lpStore g, fun u => .ok (lpStore g u))

theorem lpStore_blockFrame {s : State} {g : Nat} (hg : g < s.groups) : BlockFrame s (lpStore g s) :=
  ⟨rfl, rfl, List.length_set, rfl, drop_set_of_lt _ hg, fun _ _ => rfl⟩

theorem runInBlock_store {s : State} {g : Nat} (hs : StorageOk s) (hg : g < s.groups) :
    RunInBlock s [storeOp g] := by
  intro x hx u hu
  obtain rfl := List.mem_singleton.1 hx
  have hmax : g < s.hw.nMax := hg.trans_le ((groups_le_len s).trans hs.lenBound)
  refine ⟨runsAs_of_exec (by rw [hu.hw]; exact hs.legal) (decodeMicro_microWordOf (hs.indexFits hmax) rfl)
    (fun w => exec_lpStore (s := u.withSeq w) (hu.hw ▸ hmax)) fun _ => rfl, fun v hv => ?_⟩
  cases hv
  exact ⟨hu.frame.trans (lpStore_blockFrame (by rw [hu.frame.groups]; exact hg)), hu.canonical⟩

/-! ### One group -/

/-- The micro-operations of `SPLIT_GROUP(g)`, each with its body. -/
def splitGroupBodies (hw : Params) (g : Nat) : List (Instr × (State → Except Overflow State)) :=
  loopOps .splitSample splitSample (g * hw.f) hw.f ++ [storeOp g]

theorem splitGroupBodies_length (hw : Params) (g : Nat) : (splitGroupBodies hw g).length = hw.f + 1 := by
  rw [splitGroupBodies, List.length_append, loopOps_length, List.length_singleton]

theorem splitGroupBodies_instrs (hw : Params) (g : Nat) :
    (splitGroupBodies hw g).map Prod.fst = splitGroupOps hw g := by
  rw [splitGroupBodies, List.map_append, loopOps_instrs]
  rfl

theorem seqBody_splitGroupBodies (s : State) (g : Nat) : seqBody (splitGroupBodies s.hw g) s = splitGroup g s := by
  rw [splitGroupBodies, seqBody_append, seqBody_loopOps]
  rfl

theorem runInBlock_splitGroup {s : State} {g : Nat} (hs : StorageOk s) (hg : g < s.groups) :
    RunInBlock s (splitGroupBodies s.hw g) :=
  (runInBlock_samples hs fun _ => group_sample_lt hg).append (runInBlock_store hs hg)

/-- Settles O24: the bodies of the group's micro-operations, one after another, are the group. -/
theorem splitGroupIsItsMicroOperations : Obligations.SplitGroupIsItsMicroOperations := by
  intro s g hs hseq hg
  refine ⟨settle s (splitGroup g s), exec_splitGroup (hs.group_end_le hg), ?_⟩
  have hrun := run_microOps hs.outCanonical hseq (runInBlock_splitGroup hs hg)
  rwa [splitGroupBodies_length, splitGroupBodies_instrs, seqBody_splitGroupBodies] at hrun

end Sys2Proof.Machine
end

section
/-! `SPLIT_SAMPLE` on a constant input (42_band_splitter.md R85): the estimate settles in the input's band, and the
ring fills with magnitudes of 0. -/

namespace Sys2Proof.Machine

/-! ### One sample of the constant -/

/-- `SPLIT_SAMPLE(j)` on a good stream: its effect, and a good stream after it (R88). -/
theorem splitSample_stream_effect {s : State} {j k : Nat} (hlen : s.len = 2 ^ k) (hj : j < s.len)
    (hl : s.len ≤ s.hif.length) (h : StreamOk s) :
    ∃ t, splitSample j s = .ok t ∧ StreamOk t ∧ SampleEffect j s t := by
  have hjl : j < s.hif.length := by omega
  obtain ⟨t, hok, hstream, _⟩ := splitSample_stream hlen hj hl h
  obtain ⟨hsum, hring⟩ := energy_bound h (by omega)
  have hold := hring _ (readAt_mem_take hj hjl)
  obtain ⟨t', hok', e⟩ := splitSample_effect hjl hlen h.prevRange (by omega) (by omega)
  cases hok.symm.trans hok'
  exact ⟨t, hok, hstream, e⟩

theorem SampleEffect.hif {j : Nat} {s t : State} (e : SampleEffect j s t) :
    t.hif = s.hif.set j (readAt t.hif j) := congrArg State.hif e.frame

theorem SampleEffect.splitFrame {j : Nat} {s t : State} (e : SampleEffect j s t) : SplitFrame s t := by
  rw [e.frame]
  rfl

/-- A residual below the divisor `2N` has the magnitude 0. -/
theorem SampleEffect.magnitude_eq_zero {j : Nat} {s t : State} (e : SampleEffect j s t)
    (h : ((decodeSample s j).toInt - t.prev.toInt).natAbs < 2 * s.len) : readAt t.hif j = 0 := by
  apply BitVec.eq_of_toInt_eq
  rw [e.magnitude]
  exact Int.ediv_eq_zero_of_lt (by omega) (by omega)

/-- Splitting leaves the input samples alone. -/
theorem SplitFrame.decodeSample_eq {s t : State} (h : SplitFrame s t) (j : Nat) :
    decodeSample t j = decodeSample s j := by
  unfold decodeSample
  rw [h.inMem]

/-! ### The run -/

/-- The estimate `x` is in the band of `c`, or at most `d - i` away from `c`. -/
def Nears (b : Nat) (c : Int) (d i : Nat) (x : Int) : Prop :=
  x / (2 ^ b : Nat) = c / (2 ^ b : Nat) ∨ (c - x).natAbs ≤ d - i

theorem Nears.inBand {b d i : Nat} {c x : Int} (h : Nears b c d i x) (hi : d ≤ i) :
    x / (2 ^ b : Nat) = c / (2 ^ b : Nat) := by
  obtain hband | hnear := h
  · exact hband
  · rw [show x = c by omega]

theorem Nears.recurrence {b d i : Nat} {c x : Int} (h : Nears b c d i x) :
    Nears b c d (i + 1) (x - x / (2 ^ b : Nat) + c / (2 ^ b : Nat)) :=
  recurrence_approaches (h.imp_right fun hnear => by omega)

/-- The state after `i` samples of the constant `c` from `s`, over the positions `0 .. N-1` again and again: the
estimate comes nearer to `c` until it is in its band, and every magnitude since then is 0. -/
structure Settling (s : State) (c : Int) (i : Nat) (u : State) : Prop where
  stream : StreamOk u
  frame : SplitFrame s u
  hifLength : u.hif.length = s.hif.length
  estimate : Nears s.hw.fBits c (c - s.prev.toInt).natAbs i u.prev.toInt
  magnitudes : ∀ q < i, (c - s.prev.toInt).natAbs ≤ q + 1 → readAt u.hif (q % s.len) = 0

theorem Settling.start {s : State} (h : StreamOk s) (c : Int) : Settling s c 0 s :=
  ⟨h, SplitFrame.refl s, rfl, .inr le_rfl, fun _ hq => absurd hq (Nat.not_lt_zero _)⟩

/-- One sample more: in the band the residual is below `2^B <= N`, so its magnitude is 0. -/
theorem Settling.sample {s u : State} {c : Int} {i k : Nat} (hlen : s.len = 2 ^ k) (hf : s.hw.fBits ≤ k)
    (hl : s.len ≤ s.hif.length) (hc : ∀ j < s.len, (decodeSample s j).toInt = c) (h : Settling s c i u) :
    ∃ v, splitSample (i % s.len) u = .ok v ∧ Settling s c (i + 1) v := by
  have hj : i % s.len < s.len := Nat.mod_lt _ (by rw [hlen]; positivity)
  have hulen := h.frame.len
  obtain ⟨v, hok, hstream, e⟩ := splitSample_stream_effect (hulen.trans hlen) (by rwa [hulen])
    (by rwa [hulen, h.hifLength]) h.stream
  have hv : (decodeSample u (i % s.len)).toInt = c := by rw [h.frame.decodeSample_eq, hc _ hj]
  have hnear : Nears s.hw.fBits c (c - s.prev.toInt).natAbs (i + 1) v.prev.toInt := by
    rw [e.prev, hv, h.frame.hw]
    exact h.estimate.recurrence
  refine ⟨v, hok, hstream, h.frame.trans e.splitFrame, by rw [e.hif, List.length_set, h.hifLength], hnear, ?_⟩
  intro q hq hd
  by_cases hpos : q % s.len = i % s.len
  · have hres := natAbs_sub_lt_of_same_band (hnear.inBand (by omega))
    have hband : 2 ^ s.hw.fBits ≤ s.len := hlen ▸ Nat.pow_le_pow_right two_pos hf
    rw [hpos]
    exact e.magnitude_eq_zero (by rw [hv, hulen]; omega)
  · have hqi : q ≠ i := fun hqi => hpos (by rw [hqi])
    rw [e.hif, readAt_set_ne _ (Ne.symm hpos)]
    exact h.magnitudes q (by omega) hd

/-- `n` samples of the constant meet no overflow. -/
theorem Settling.samples {s : State} {c : Int} {k : Nat} (hlen : s.len = 2 ^ k) (hf : s.hw.fBits ≤ k)
    (hl : s.len ≤ s.hif.length) (hc : ∀ j < s.len, (decodeSample s j).toInt = c) (h : StreamOk s) (n : Nat) :
    ∃ t, forUp (fun i => splitSample (i % s.len)) 0 n s = .ok t ∧ Settling s c n t := by
  obtain ⟨t, hrun, ht⟩ := forUp_total (Settling s c) (n := n)
    (fun i u _ _ hu => hu.sample hlen hf hl hc) (Settling.start h c)
  exact ⟨t, hrun, by rwa [Nat.zero_add] at ht⟩

/-- Among any `len` numbers in a row one has the remainder `j`. -/
theorem exists_mod_eq {len n j : Nat} (hj : j < len) (hn : len ≤ n) : ∃ q < n, n ≤ q + len ∧ q % len = j := by
  have hdiv := Nat.div_add_mod (n - 1 - j) len
  have hmod := Nat.mod_lt (n - 1 - j) (by omega : 0 < len)
  exact ⟨j + len * ((n - 1 - j) / len), by omega, by omega, by rw [Nat.add_mul_mod_self_left, Nat.mod_eq_of_lt hj]⟩

/-- A whole block of samples later the ring, and with it the energy sum, is 0. -/
theorem Settling.hifsum_eq_zero {s t : State} {c : Int} {n : Nat} (h : Settling s c n t)
    (hn : (c - s.prev.toInt).natAbs + s.len ≤ n) : t.hifsum = 0 := by
  apply BitVec.eq_of_toInt_eq
  rw [h.stream.hifSum, h.frame.len]
  refine List.sum_eq_zero fun y hy => ?_
  obtain ⟨x, hx, rfl⟩ := List.mem_map.1 hy
  obtain ⟨j, hj, rfl⟩ := List.mem_take_iff_getElem.1 hx
  obtain ⟨q, hq, hlast, hqj⟩ := exists_mod_eq (n := n) (show j < s.len by omega) (by omega)
  have hread := h.magnitudes q hq (by omega)
  rw [hqj, readAt_of_lt (by omega)] at hread
  rw [hread]
  rfl

/-- The samples of R85 as a loop of micro-operations. -/
theorem withMicroOps_samples (s : State) (n : Nat) :
    s.withMicroOps ((List.range n).map fun i => .splitSample (i % s.len)) =
      s.withMicroOps ((loopOps (fun i => .splitSample (i % s.len)) (fun i => splitSample (i % s.len)) 0 n).map
        Prod.fst) := by
  simp only [loopOps_instrs, Nat.zero_add]

/-- Settles O21: the loop of the samples carries `Settling`, and runs from the sequencer as it stands. -/
theorem constantInputSettlesInItsBand : Obligations.ConstantInputSettlesInItsBand := by
  refine ⟨leak_constant, fun s c n h hr hc hn => ?_⟩
  have hst := h.storage
  have hl : s.len ≤ s.hif.length := by rw [hst.hifLength]; exact hst.lenBound
  obtain ⟨k, hlen, hf, _⟩ := (h.configured (by rw [hr]; decide)).length
  have hpos : 0 < s.len := by rw [hlen]; positivity
  obtain ⟨t, hloop, ht⟩ := Settling.samples hlen hf hl hc (h.stream hr) n
  have hin := runInBlock_samples (pos := (· % s.len)) (i := 0) (n := n) hst fun _ _ => Nat.mod_lt _ hpos
  have hrun := run_microOps_of_ok hst.outCanonical h.noMicroOps hin (by rw [seqBody_loopOps]; exact hloop)
  rw [loopOps_length, ← withMicroOps_samples] at hrun
  have hband := ht.estimate.inBand hn
  exact ⟨t, hrun, hband, natAbs_sub_lt_of_same_band hband, fun h0 => ht.magnitudes (n - 1) (by omega) (by omega),
    ht.hifsum_eq_zero⟩

end Sys2Proof.Machine
end

section
/-! The reconstructor (43_reconstructor.md R90 to R98): one output sample, and the outputs of a group. -/

namespace Sys2Proof.Machine

/-! ### One output sample -/

theorem exec_reconSubsample {s : State} {g p : Nat} (h : g * s.hw.f + p < s.hw.nMax) :
    exec (.reconSubsample g p) s = .next (settle s (reconSubsample g p s)) := if_pos h

/-- Where every check passes, the value encoded is the exact accumulator above `OUT_SHIFT` (R92, R95). -/
theorem reconSubsample_of_checksPass {s : State} {g p m : Nat} (hL : s.groups = 2 ^ m) (hc : ChecksPass s g p) :
    ∃ y, reconSubsample g p s = .ok (encodeSample (outPosition s.hw g p) y s) ∧
      y.toInt = exactAcc s g p / (2 ^ s.hw.outShift.val : Nat) := by
  obtain ⟨a, _, ha⟩ := chk64_exists hc.2.2
  have hacc : reconAcc s g p = .ok a := (reconAcc_ok_iff hL a).2 ⟨hc, ha⟩
  exact ⟨asr a s.hw.outShift.val, reconSubsample_of_acc hacc, by rw [asr_toInt, ha]⟩

/-- Where a check fails, the sample overflows (R96). -/
theorem reconSubsample_of_not_checksPass {s : State} {g p m : Nat} (hL : s.groups = 2 ^ m)
    (hc : ¬ ChecksPass s g p) : ∃ e, reconSubsample g p s = .error e := by
  unfold reconSubsample
  cases ha : reconAcc s g p with
  | ok a => exact absurd ((reconAcc_ok_iff hL a).1 ha).1 hc
  | error e => exact ⟨e, rfl⟩

/-- Settles O26: the sample encoded is the exact accumulator's, and encoding writes its three bytes only. -/
theorem reconSubsampleWritesThePolyphaseSum : Obligations.ReconSubsampleWritesThePolyphaseSum := by
  intro s g p m hL _ _ hmax hw hc
  obtain ⟨y, hok, hy⟩ := reconSubsample_of_checksPass hL hc
  refine ⟨encodeSample (outPosition s.hw g p) y s, ?_, ?_, fun off ho => ?_, rfl⟩
  · rw [exec_reconSubsample hmax, settle_of_ok hok]
  · rw [← hy]
    exact encodeSample_value (outPosition s.hw g p) y hw
  · exact (encodeSample_frame s (outPosition s.hw g p) y).2 off ho

/-- Settles O27: a sample that overflows settles to the overflow fault. -/
theorem reconSubsampleFaultsOnOverflow : Obligations.ReconSubsampleFaultsOnOverflow := by
  intro s g p m hL _ _ hmax hc
  obtain ⟨e, he⟩ := reconSubsample_of_not_checksPass hL hc
  have hexec : exec (.reconSubsample g p) s = .next (overflowFault s) := by
    rw [exec_reconSubsample hmax, he]
    rfl
  exact ⟨overflowFault s, hexec, rfl, rfl, rfl, rfl, rfl, rfl, rfl, rfl⟩

/-! ### A constant history -/

/-- On a constant history the dot product is the constant times the sum of the sub-phase's coefficients (R98). -/
theorem exactDot_constant {s : State} {g p : Nat} {c : Int} (hL : 0 < s.groups)
    (hc : ∀ i < s.groups, (readAt s.lopass i).toInt = c) (n : Nat) :
    exactDot s g p n = c * ((List.range n).map fun k => (readAt s.fir (k * s.hw.f + p)).toInt).sum := by
  induction n with
  | zero => simp [exactDot]
  | succ n ih =>
    rw [exactDot, ih, hc _ (Nat.mod_lt _ hL), List.sum_range_succ, mul_add]

/-- Without high-frequency energy no noise is added (R92). -/
theorem exactAcc_of_hifsum_zero {s : State} (g p : Nat) (h : s.hifsum = 0) :
    exactAcc s g p = exactDot s g p s.groups := by
  simp [exactAcc, h]

/-- Settles O30: the noise term is 0, and the constant factors out of the dot product. -/
theorem constantHistoryGivesTheScaledSum : Obligations.ConstantHistoryGivesTheScaledSum := by
  intro s g p m c hL hg hp hmax hw hc h0 hchecks
  obtain ⟨t, hexec, hvalue, _⟩ := reconSubsampleWritesThePolyphaseSum s g p m hL hg hp hmax hw hchecks
  refine ⟨t, hexec, ?_⟩
  rw [hvalue, exactAcc_of_hifsum_zero g p h0, exactDot_constant (by omega) hc]

/-! ### One group -/

theorem exec_reconGroup {s : State} {g : Nat} (h : (g + 1) * s.hw.f ≤ s.hw.nMax) :
    exec (.reconGroup g) s = .next (settle s (reconGroup g s)) := if_pos h

/-- `L = N / F` is a power of two (00_scope.md R7). -/
theorem ConfiguredOk.groups_two_pow {s : State} (h : ConfiguredOk s) : ∃ m, s.groups = 2 ^ m := by
  obtain ⟨k, hlen, hf, _⟩ := h.length
  refine ⟨k - s.hw.fBits, ?_⟩
  rw [State.groups, hlen, Params.f, Nat.pow_div hf (by omega)]

/-- Within the kernel bound every check of a good stream passes (R96). -/
theorem GoodState.checksPass {s : State} {p : Nat} (h : GoodState s) (hr : s.inst = .ready) (hk : KernelBound s)
    (g : Nat) (hp : p < s.hw.f) : ChecksPass s g p := by
  have hst := h.storage
  have hcfg := h.configured (by rw [hr]; decide)
  have hstream := h.stream hr
  have hpos : 0 < s.len := by
    obtain ⟨k, hlen, _⟩ := hcfg.length
    rw [hlen]
    positivity
  have hlopass : s.groups ≤ s.lopass.length := by
    rw [hst.lopassLength]
    exact (groups_le_len s).trans hst.lenBound
  exact checksPass_of_bound (fun i hi => hstream.lopassRange _ (readAt_mem_take hi (hi.trans_le hlopass)))
    (exactNoise_range g p hst.noiseLength hcfg.noiseRange) (energy_bound hstream hpos).1 (hk p hp)

/-- Settles O29: every check of the group passes, so it runs to its end, in its frame. -/
theorem reconGroupWritesOnlyItsOutputs : Obligations.ReconGroupWritesOnlyItsOutputs := by
  intro s g h hr hk hg
  obtain ⟨m, hL⟩ := (h.configured (by rw [hr]; decide)).groups_two_pow
  obtain ⟨t, hok⟩ := reconGroup_total (g := g) hL fun p hp => h.checksPass hr hk g hp
  obtain ⟨hsame, hbytes⟩ := reconGroup_frame hok
  refine ⟨t, ?_, hbytes, hsame⟩
  rw [exec_reconGroup (h.storage.group_end_le hg), settle_of_ok hok]

/-! ### One group from the sequencer -/

/-- `RECON_SUBSAMPLE(g, p)` from the sequencer. -/
theorem runsAs_reconSubsample {s : State} {g p : Nat} (hl : s.hw.legal = true)
    (hd : decodeMicro (microWordOf (.reconSubsample g p)) = .ok (.reconSubsample g p))
    (hmax : g * s.hw.f + p < s.hw.nMax) : RunsAs (.reconSubsample g p) (reconSubsample g p) s :=
  runsAs_of_exec hl hd (fun w => exec_reconSubsample (s := s.withSeq w) hmax) (reconSubsample_withSeq g p s)

theorem encodeSample_blockFrame {s : State} {j : Nat} (y : Word64) (hj : j < s.len) :
    BlockFrame s (encodeSample j y s) :=
  ⟨rfl, rfl, rfl, rfl, rfl, fun _ ho => memWrite_read_outside (by omega)⟩

/-- A sub-phase of a group of the block writes a sample of the block, so it stays in the block. -/
theorem InBlock.reconSubsample {s u v : State} {g p : Nat} (h : InBlock s u) (hg : g < s.groups) (hp : p < s.hw.f)
    (hv : reconSubsample g p u = .ok v) : InBlock s v := by
  obtain ⟨y, rfl⟩ := reconSubsample_ok hv
  have hj : outPosition u.hw g p < u.len := by
    rw [h.hw, h.frame.len]
    exact group_sample_lt hg hp
  exact ⟨h.frame.trans (encodeSample_blockFrame y hj), memWrite_wf _ _ _ h.canonical⟩

/-- The sub-phases of a group run from the sequencer and stay in the block. -/
theorem runInBlock_reconGroup {s : State} {g : Nat} (hs : StorageOk s) (hg : g < s.groups) :
    RunInBlock s (loopOps (.reconSubsample g) (reconSubsample g) 0 s.hw.f) := by
  intro x hx u hu
  obtain ⟨p, hp, rfl⟩ := mem_loopOps _ _ hx
  rw [Nat.zero_add]
  have hmax : g * s.hw.f + p < s.hw.nMax := (group_sample_lt hg hp).trans_le hs.lenBound
  have hgmax : g < s.hw.nMax := hg.trans_le ((groups_le_len s).trans hs.lenBound)
  have hfits : (Instr.reconSubsample g p).wellFormed = true :=
    Bool.and_eq_true_iff.2 ⟨hs.indexFits hgmax, hs.indexFits (j := p) (by omega)⟩
  refine ⟨runsAs_reconSubsample (by rw [hu.hw]; exact hs.legal) (decodeMicro_microWordOf hfits rfl) ?_,
    fun v hv => hu.reconSubsample hg hp hv⟩
  rw [hu.hw]
  exact hmax

theorem loopOps_reconGroup_instrs (hw : Params) (g : Nat) :
    (loopOps (.reconSubsample g) (reconSubsample g) 0 hw.f).map Prod.fst = reconGroupOps hw g := by
  simp only [loopOps_instrs, Nat.zero_add, reconGroupOps]

/-- Settles O28: the loop of the group's micro-operations is the group. -/
theorem reconGroupIsItsMicroOperations : Obligations.ReconGroupIsItsMicroOperations := by
  intro s g hs hseq hg
  refine ⟨settle s (reconGroup g s), exec_reconGroup (hs.group_end_le hg), ?_⟩
  have hrun := run_microOps hs.outCanonical hseq (runInBlock_reconGroup hs hg)
  rwa [loopOps_length, loopOps_reconGroup_instrs, seqBody_loopOps] at hrun

end Sys2Proof.Machine
end

section
/-! The commands but PROCESS's block (44_block_processor.md R100 to R104, R110, R111): what each answers, and that every
command completes. -/

namespace Sys2Proof.Machine

theorem exec_nop (s : State) : exec .nop s = .next (complete .none s) := rfl

theorem exec_process (s : State) : exec .process s = execProcess s := rfl

theorem exec_closeStream (s : State) :
    exec .closeStream s = .next (complete .none
      { discardInstance s with inst := .unconfigured, cfgN := 0, cfgRate := 0, ovf := false, lost := false }) := rfl

/-! ### Every command -/

/-- How a command from `s` may end (R101, R102): with `BUSY = 0`, and with a code other than 0 and 7 in the completion
alone. -/
structure Completes (s t : State) : Prop where
  idle : t.busy = false
  rejected : t.errcode ≠ .none → t.errcode ≠ .overflow → t = complete t.errcode s

theorem completes_complete (code : ErrCode) (s : State) : Completes s (complete code s) := ⟨rfl, fun _ _ => rfl⟩

theorem exec_command {i : Instr} (hi : i.isCommand = true) (s : State) : ∃ t, exec i s = .next t ∧ Completes s t := by
  cases i with
  | nop => exact ⟨_, exec_nop s, completes_complete _ s⟩
  | openStream =>
    obtain ⟨_, h⟩ | ⟨_, tbl, _, h⟩ := execOpen_cases s
    · exact ⟨_, h, completes_complete _ s⟩
    · exact ⟨_, h, rfl, fun hcode => absurd rfl hcode⟩
  | process =>
    obtain ⟨_, h⟩ | ⟨_, t, _, _, h⟩ | ⟨_, _, h⟩ := execProcess_cases s
    · exact ⟨_, h, completes_complete _ s⟩
    · exact ⟨_, h, rfl, fun hcode => absurd rfl hcode⟩
    · exact ⟨_, h, rfl, fun _ hcode => absurd rfl hcode⟩
  | closeStream => exact ⟨_, exec_closeStream s, rfl, fun hcode => absurd rfl hcode⟩
  | reservedOp47 low => exact ⟨_, exec_reservedOp47 low s, completes_complete _ s⟩
  | reservedOp8F low => exact ⟨_, exec_reservedOp8F low s, completes_complete _ s⟩
  | firGen | noiseGen | splitSample | lpStore | splitGroup | reconSubsample | reconGroup | decode24 | encode24
  | cursorAdvance => cases hi

/-- Settles O9, by the answer of each command. -/
theorem everyCommandCompletes : Obligations.EveryCommandCompletes := by
  intro i s hi
  obtain ⟨t, ht, hc⟩ := exec_command hi s
  exact ⟨t, ht, hc.idle⟩

/-- Settles O10: a rejection is a completion alone, also that of a pending word which is no instruction. -/
theorem rejectedCommandChangesNothingElse : Obligations.RejectedCommandChangesNothingElse := by
  have hexec : ∀ (i : Instr) (s t : State), i.isCommand = true → exec i s = .next t → t.errcode ≠ .none →
      t.errcode ≠ .overflow → t = complete t.errcode s := by
    intro i s t hi ht
    obtain ⟨u, hu, hc⟩ := exec_command hi s
    cases hu.symm.trans ht
    exact hc.rejected
  refine ⟨hexec, fun s t ht => ?_⟩
  cases hd : decodeCommand s.pend.word with
  | ok i =>
    rw [commandStep_of_ok hd] at ht
    exact hexec i s t (decodeCommand_isCommand hd) ht
  | error e =>
    rw [commandStep_of_error hd] at ht
    cases ht
    exact (completes_complete _ s).rejected

/-! ### NOP and CLOSE -/

/-- Settles O12: NOP is its completion alone. -/
theorem nopOnlyClearsErrcode : Obligations.NopOnlyClearsErrcode := exec_nop

/-- Settles O13: the free cursor that CLOSE leaves is below `NL`; the other elements stand in its answer. -/
theorem closeDiscardsTheInstance : Obligations.CloseDiscardsTheInstance := by
  intro s
  exact ⟨_, exec_closeStream s, rfl, rfl, rfl, rfl, rfl, rfl, rfl, freeCursor_lt s.hw (s.draws + 2), rfl, rfl, rfl, rfl,
    rfl, rfl, rfl, rfl, rfl, rfl, rfl, rfl, rfl⟩

/-! ### OPEN -/

section
variable {hw : Params} {n : Nat}

theorem openCheck_of_not_pow2 (h : ¬ ∃ k, n = 2 ^ k) : openCheck hw n = .cfgNNotPow2 :=
  if_pos (Bool.eq_false_iff.2 (mt (isPow2_iff n).1 h))

theorem openCheck_of_pow2 (h : ∃ k, n = 2 ^ k) :
    openCheck hw n = if hw.nMax < n then .cfgNTooLarge else if n < hw.f then .cfgNTooSmall else .none :=
  if_neg (by rw [(isPow2_iff n).2 h]; decide)

end

/-- A length that the check rejects (R103). -/
theorem exec_open_of_rejected {s : State} {code : ErrCode} (h : openCheck s.hw s.pend.blockLen.toNat = code)
    (hc : code ≠ .none) : exec .openStream s = .next (complete code s) := by
  obtain ⟨_, hopen⟩ | ⟨hnone, _⟩ := execOpen_cases s
  · rw [exec_openStream, hopen, h]
  · exact absurd (h.symm.trans hnone) hc

/-- Settles O14, by the check's branches in their order. -/
theorem openRejectsIllegalLengths : Obligations.OpenRejectsIllegalLengths := by
  intro s
  refine ⟨fun h => exec_open_of_rejected (openCheck_of_not_pow2 h) (by decide), fun h hlt => ?_, fun h hle hlt => ?_⟩
  · exact exec_open_of_rejected ((openCheck_of_pow2 h).trans (if_pos hlt)) (by decide)
  · exact exec_open_of_rejected ((openCheck_of_pow2 h).trans ((if_neg hle.not_gt).trans (if_pos hlt))) (by decide)

theorem getElem?_replicate_append {n j : Nat} {x : Word64} {l : List Word64} (h : j < n) :
    (List.replicate n x ++ l)[j]? = some x := by
  rw [List.getElem?_append_left (by simpa using h), List.getElem?_replicate_of_lt h]

/-- Settles O15: a legal length passes the check, and the accepted OPEN clears, generates both tables and is ready. -/
theorem openBuildsAReadyInstance : Obligations.OpenBuildsAReadyInstance := by
  intro s k _ hk hf hmax
  obtain ⟨hrej, _⟩ | ⟨_, tbl, hgen, hopen⟩ := execOpen_cases s
  · exact absurd (openCheck_two_pow hk hf hmax) hrej
  obtain ⟨tbl', hgen', _, hnoise, _⟩ := noiseGen_ok (firGen (openClear s))
  have htbl : tbl = tbl' := congrArg State.noise (Except.ok.inj (hgen.symm.trans hgen'))
  refine ⟨_, hopen, rfl, rfl, rfl, rfl, rfl, rfl, rfl, rfl, rfl, rfl, fun j hj => ?_, fun j hj => ?_, fun j hj => ?_, ?_,
    rfl, rfl, rfl, rfl, rfl, rfl, rfl, rfl, rfl, rfl, rfl⟩
  · exact getElem?_replicate_append (hk ▸ hj)
  · exact getElem?_replicate_append (hk ▸ hj)
  · rw [← hk] at hj ⊢
    exact (List.getElem?_append_left (by simpa using hj)).trans (firKernel_getElem? s.hw hj)
  · rw [htbl]
    exact hnoise

/-! ### PROCESS outside `READY` -/

/-- Settles O35: PROCESS looks at `STATE` first. -/
theorem processRejectedUnlessReady : Obligations.ProcessRejectedUnlessReady := by
  intro s h
  exact if_neg h

end Sys2Proof.Machine
end

section
/-! The sample codec and the cursor (44_block_processor.md R105, R106, R109): what one `DECODE24`, one `ENCODE24` and
repeated `CURSOR_ADVANCE`s do. -/

namespace Sys2Proof.Machine

/-! ### Decoding -/

theorem exec_decode24 {s : State} {j : Nat} (h : j < s.hw.nMax) :
    exec (.decode24 j) s = .next { s with decoded := decodeSample s j } := if_pos h

/-- Bit 23 is the sign: the upper half of the 24-bit numbers stands for the negative samples (R12). -/
theorem sext24_eq {u : Nat} (h : u < 16777216) : sext24 u = if u < 8388608 then (u : Int) else u - 16777216 := by
  have hbit : u.testBit 23 = decide (¬ u < 8388608) := by
    rw [Nat.testBit_eq_decide_div_mod_eq]
    exact decide_eq_decide.2 (by omega)
  unfold sext24
  rw [hbit]
  split <;> simp_all

/-- The three bytes of a sample, lowest first. -/
theorem memRead_three (m : Memory) (off : Nat) :
    memRead m off 3 = (m.read off).toNat + 256 * (m.read (off + 1)).toNat + 65536 * (m.read (off + 2)).toNat := by
  simp only [memRead, Nat.add_assoc, Nat.reduceAdd]
  omega

/-- Settles O31: the sign bit of a sample is that of its last byte. -/
theorem decode24ReturnsTheSample : Obligations.Decode24ReturnsTheSample := by
  intro s j hj
  obtain ⟨hval, hlo, hhi⟩ := decodeSample_toInt s j
  refine ⟨_, exec_decode24 hj, ?_, hlo, hhi, rfl⟩
  have h0 := (s.inMem.read (3 * j)).isLt
  have h1 := (s.inMem.read (3 * j + 1)).isLt
  have h2 := (s.inMem.read (3 * j + 2)).isLt
  show (decodeSample s j).toInt = _
  rw [hval, sext24_eq (memRead_lt s.inMem (3 * j) 3), memRead_three]
  split <;> split <;> omega

/-! ### Encoding -/

theorem exec_encode24 {s : State} {j : Nat} (y : Word64) (h : j < s.hw.nMax) :
    exec (.encode24 j y) s = .next (encodeSample j y s) := if_pos h

/-- Byte `b` of an encoded sample is byte `b` of the value: 24 bits, with no saturation (R106). -/
theorem encodeSample_read {s : State} {j b : Nat} (y : Word64) (hw : s.outMem.wf = true) (hb : b < 3) :
    (encodeSample j y s).outMem.read (3 * j + b) = y.extractLsb' (8 * b) 8 := by
  rw [encodeSample_outMem, memWrite_read_inside hw hb]
  apply BitVec.eq_of_toNat_eq
  rw [BitVec.extractLsb'_toNat, BitVec.toNat_ofNat, Nat.shiftRight_eq_div_pow, trunc24]
  interval_cases b <;> omega

/-- Settles O32: each byte of the sample is read back, and the other bytes are outside the write. -/
theorem encode24WritesThreeBytes : Obligations.Encode24WritesThreeBytes := by
  intro s j y hj hw
  exact ⟨_, exec_encode24 y hj, encodeSample_read (b := 0) y hw (by decide), encodeSample_read y hw (by decide),
    encodeSample_read y hw (by decide), (encodeSample_frame s j y).2, rfl⟩

/-! ### The cursor -/

theorem exec_cursorAdvance (s : State) : exec .cursorAdvance s = .next (cursorAdvance s) := rfl

theorem cursorAdvance_eq (s : State) : cursorAdvance s = { s with noisei := (s.noisei + s.len) % s.hw.nl } := by
  rw [cursorAdvance, mask_nl]

/-- `n` advances add `n * N` modulo `NL`. -/
theorem iterate_cursorAdvance {s : State} (h : s.noisei < s.hw.nl) (n : Nat) :
    cursorAdvance^[n] s = { s with noisei := (s.noisei + n * s.len) % s.hw.nl } := by
  induction n with
  | zero => rw [Nat.zero_mul, Nat.add_zero, Nat.mod_eq_of_lt h]; rfl
  | succ n ih =>
    have hadd : ((s.noisei + n * s.len) % s.hw.nl + s.len) % s.hw.nl = (s.noisei + (n + 1) * s.len) % s.hw.nl := by
      rw [Nat.mod_add_mod, Nat.add_mul, Nat.one_mul, Nat.add_assoc]
    rw [Function.iterate_succ_apply', ih, cursorAdvance_eq, ← hadd]
    rfl

/-- Settles O33: `NL / N` advances add `NL`, since `N` divides it. -/
theorem cursorAdvanceWrapsAround : Obligations.CursorAdvanceWrapsAround := by
  refine ⟨fun s => (exec_cursorAdvance s).trans (by rw [cursorAdvance_eq]), fun s k hlen hk hlt => ?_⟩
  have hdvd : s.len ∣ s.hw.nl := hlen ▸ pow_dvd_pow 2 hk
  rw [iterate_cursorAdvance hlt]
  show (s.noisei + s.hw.nl / s.len * s.len) % s.hw.nl = s.noisei
  rw [Nat.div_mul_cancel hdvd, Nat.add_mod_right, Nat.mod_eq_of_lt hlt]

end Sys2Proof.Machine
end

section
/-! What a step runs (44_block_processor.md R100; log 10, 11, 14, 20), and that a legal host is always served (R102,
20_memory.md R46, R47). -/

namespace Sys2Proof.Machine

/-! ### The decoded instruction -/

theorem microStep_of_ok {w : MicroWord} {i : Instr} (h : decodeMicro w = .ok i) (s : State) :
    microStep w s = exec i s := by
  unfold microStep
  rw [h]

theorem Pends.commandStep {s : State} {i : Instr} (h : Pends s i) : commandStep s = exec i s :=
  commandStep_of_ok h.2

theorem Pends.blockTurn {s : State} {i : Instr} (h : Pends s i) : blockTurn s = exec i s :=
  (if_pos h.1).trans h.commandStep

/-- A step on a sequencer word runs the micro-operation it encodes. -/
theorem step_micro {s : State} {w : MicroWord} {ws : List MicroWord} {i : Instr} (hl : s.hw.legal = true)
    (hs : s.seq = w :: ws) (hd : decodeMicro w = .ok i) : step s = exec i { s with seq := ws } := by
  rw [step_seq hl hs, microStep_of_ok hd]

/-- The block's turn in the list of moves runs the pending command. -/
theorem step_turn {s : State} {i : Instr} {ms : List Move} (hl : s.hw.legal = true) (hs : s.seq = [])
    (hp : Pends s i) (hi : s.inputs = .block :: ms) : step s = exec i { s with inputs := ms } := by
  have hp' : Pends { s with inputs := ms } i := hp
  rw [step_move hl hs hi, takeMove_block, hp'.blockTurn]

/-- A waiting host lets the block run the pending command, and goes on waiting (log 11). -/
theorem step_wait {s : State} {i : Instr} {ms : List Move} (hl : s.hw.legal = true) (hs : s.seq = [])
    (hp : Pends s i) (hi : s.inputs = .wait :: ms) : step s = exec i s := by
  have hwait : hostWait { s with inputs := ms } = Machine.commandStep { s with inputs := .wait :: ms } := if_pos hp.1
  rw [step_move hl hs hi, takeMove_wait, hwait, with_inputs_self hi, hp.commandStep]

/-- Settles O5, by the place the step takes its instruction from. -/
theorem stepRunsTheDecodedInstruction : Obligations.StepRunsTheDecodedInstruction := by
  intro s i hl
  refine ⟨fun hs hp => ⟨fun hi => ?_, fun ms => step_turn hl hs hp, fun ms => step_wait hl hs hp⟩,
    fun w ws => step_micro hl⟩
  rw [step_block hl hs hi, hp.blockTurn]

/-! ### A placed word -/

theorem decodeBytes_of_decodeTableWord {n w : Nat} {i : Instr} (h : decodeTableWord n w = some i) :
    decodeBytes (tableBytes n w) = .ok i := by
  unfold decodeTableWord at h
  split at h
  next hd => cases h; exact hd
  next => cases h

/-- A row of 8 bits is read as a micro-operation word (30_encoding.md R69; log 14). -/
theorem decodeTableWord_micro {w : Nat} {i : Instr} (h : decodeTableWord 8 w = some i) :
    decodeMicro (BitVec.ofNat 104 (numOfBytes (tableBytes 8 w))) = .ok i := by
  have hd := decodeBytes_of_decodeTableWord h
  have hlen : (tableBytes 8 w).length = 13 := length_bytesOfNum 13 w
  have hcode : codeOfBytes (tableBytes 8 w) = .ok (.micro (BitVec.ofNat 104 (numOfBytes (tableBytes 8 w)))) := by
    rw [codeOfBytes, hlen]
    exact if_neg (by decide)
  rw [decodeBytes, hcode] at hd
  exact hd

/-- A row of 32 bits is its own command word (30_encoding.md R62). -/
theorem decodeTableWord_command {w : Nat} {i : Instr} (hw : w < 2 ^ 32) (h : decodeTableWord 32 w = some i) :
    numOfBytes (tableBytes 32 w) = w ∧ decodeCommand (BitVec.ofNat 32 w) = .ok i := by
  have hd := decodeBytes_of_decodeTableWord h
  have hlen : (tableBytes 32 w).length = 4 := length_bytesOfNum 4 w
  have hnum : numOfBytes (tableBytes 32 w) = w := (numOfBytes_bytesOfNum 4 w).trans (Nat.mod_eq_of_lt hw)
  have hcode : codeOfBytes (tableBytes 32 w) = .ok (.command (BitVec.ofNat 32 w)) := by
    rw [codeOfBytes, hlen, hnum]
    exact if_pos rfl
  rw [decodeBytes, hcode] at hd
  exact ⟨hnum, hd⟩

/-- Settles O6: a micro-operation's word stands first in the sequencer; a command's is pending, and the block moves
next. -/
theorem placedTableWordRunsNext : Obligations.PlacedTableWordRunsNext := by
  intro s w i hl
  refine ⟨fun _ h => ?_, fun hw h => ?_⟩
  · have hplace : (s.withFetchWord 8 w).seq = BitVec.ofNat 104 (numOfBytes (tableBytes 8 w)) :: s.seq := rfl
    exact step_micro hl hplace (decodeTableWord_micro h)
  · obtain ⟨hnum, hd⟩ := decodeTableWord_command hw h
    rw [State.withFetchWord, placeWord, if_neg (by decide), hnum]
    exact step_turn hl rfl ⟨rfl, hd⟩ rfl

/-! ### A legal host -/

theorem blockTurn_answers (s : State) : ∃ t, blockTurn s = .next t := by
  unfold blockTurn
  split
  next hb =>
    obtain ⟨t, ht, _⟩ := commandStep_effect hb
    exact ⟨t, ht⟩
  next => exact ⟨s, rfl⟩

theorem hostWait_answers (s : State) : ∃ t, hostWait s = .next t := by
  unfold hostWait
  split
  next hb =>
    obtain ⟨t, ht, _⟩ := commandStep_effect (s := { s with inputs := .wait :: s.inputs }) hb
    exact ⟨t, ht⟩
  next => exact ⟨_, rfl⟩

/-- A legal access is answered (20_memory.md R46, R47, R54). -/
theorem hostAccess_answers {s : State} {a : Access} (h : legalAccess s a = true) : ∃ t, hostAccess a s = .next t := by
  obtain ⟨sp, off, width, op⟩ := a
  cases sp with
  | reg => exact ⟨_, accessReg_legal op h⟩
  | inp =>
    obtain ⟨hleg, hduty⟩ := Bool.and_eq_true_iff.1 h
    cases op with
    | read => exact ⟨_, accessIn_read hleg⟩
    | write v =>
      have hidle : s.busy = false := by simpa using hduty
      exact ⟨_, (accessIn_write v hleg).trans (if_neg (by rw [hidle]; decide))⟩
  | out =>
    cases op with
    | read =>
      rw [hostAccess_out, accessOut_read h]
      split
      · exact ⟨_, rfl⟩
      · exact ⟨_, rfl⟩
    | write v => exact ⟨_, accessOut_write v h⟩

theorem busAccess_answers {s : State} {addr width : Nat} {op : HostOp} (h : legalMove s (.bus addr width op) = true) :
    ∃ t, busAccess addr width op s = .next t := by
  cases hloc : locate s.hw addr with
  | some found =>
    simp only [legalMove, hloc] at h
    rw [busAccess_of_locate hloc]
    exact hostAccess_answers h
  | none => simp [legalMove, hloc] at h

theorem takeMove_answers {s : State} {m : Move} (h : legalMove s m = true) : ∃ t, takeMove m s = .next t := by
  cases m with
  | access a => exact hostAccess_answers h
  | bus addr width op => exact busAccess_answers h
  | wait => exact hostWait_answers s
  | block => exact blockTurn_answers s
  | reset => exact ⟨_, takeMove_reset s⟩

/-- Settles O49: the next move is legal also once it is taken off the list, and every legal move is answered. -/
theorem legalHostIsAlwaysServed : Obligations.LegalHostIsAlwaysServed := by
  intro s hst hs hlegal
  unfold StepsOn
  cases hi : s.inputs with
  | nil =>
    rw [step_block hst.legal hs hi]
    exact blockTurn_answers s
  | cons m ms =>
    rw [step_move hst.legal hs hi]
    have hm : legalMove s m = true := by rw [nextMoveLegal, hi] at hlegal; exact hlegal
    exact takeMove_answers (s := { s with inputs := ms }) hm

end Sys2Proof.Machine
end

section
/-! PROCESS over the groups of its block (44_block_processor.md R107, R108, R112): a block that meets no overflow, on a
good stream within the kernel bound and on silence. -/

namespace Sys2Proof.Machine

/-! ### What PROCESS answers -/

theorem exec_process_of_ok {s t : State} (hr : s.inst = .ready) (h : processGroups s = .ok t) :
    exec .process s = .next (complete .none (cursorAdvance t)) := by
  rw [exec_process, execProcess, if_pos hr, processBlock, h]
  rfl

theorem exec_process_of_error {s : State} {e : Overflow} (hr : s.inst = .ready) (h : processGroups s = .error e) :
    exec .process s = .next (overflowFault s) := by
  rw [exec_process, execProcess, if_pos hr, processBlock, h]
  rfl

/-- A property of the groups already output that every `SPLIT_GROUP` keeps and every `RECON_GROUP` carries on, both
ending, holds of the whole block at its end, under both schedules (R107, R108). -/
theorem processGroups_total {s : State} (P : Nat → State → Prop)
    (hsplit : ∀ g < s.groups, ∀ n u, P n u → ∃ v, splitGroup g u = .ok v ∧ P n v)
    (hrecon : ∀ g < s.groups, ∀ u, P g u → ∃ v, reconGroup g u = .ok v ∧ P (g + 1) v) (h : P 0 s) :
    ∃ t, processGroups s = .ok t ∧ P s.groups t := by
  unfold processGroups
  cases s.hw.schedule with
  | interleaved =>
    obtain ⟨t, ht, hP⟩ := forUp_total (body := splitThenRecon) P (i := 0) (n := s.groups) (fun g u _ hg hu => by
      obtain ⟨v, hv, hPv⟩ := hsplit g (by omega) g u hu
      obtain ⟨w, hw, hPw⟩ := hrecon g (by omega) v hPv
      exact ⟨w, by rw [splitThenRecon, hv]; exact hw, hPw⟩) h
    exact ⟨t, ht, by rwa [Nat.zero_add] at hP⟩
  | splitAllFirst =>
    obtain ⟨u, hu, hPu⟩ := forUp_total (i := 0) (n := s.groups) (fun _ => P 0)
      (fun g u _ hg hu => hsplit g (by omega) 0 u hu) h
    obtain ⟨t, ht, hP⟩ := forUp_total P (i := 0) (n := s.groups) (fun g u _ hg hu => hrecon g (by omega) u hu) hPu
    refine ⟨t, ?_, by rwa [Nat.zero_add] at hP⟩
    show (forUp splitGroup 0 s.groups s >>= _) = _
    rw [hu]
    exact ht

/-! ### A good stream within the kernel bound -/

/-- An operation that did not end in `FAULT` met no overflow. -/
theorem ok_of_settle {s t : State} {r : Except Overflow State}
    (h : (.next (settle s r) : Host.Outcome State Fault Refusal) = .next t) (ht : t.inst ≠ .fault) : r = .ok t := by
  injection h with h
  obtain ⟨u, hu, e⟩ | ⟨_, e⟩ := settle_cases s r
  · rw [hu, ← e, h]
  · rw [← h, e] at ht
    exact absurd rfl ht

/-- R88 over a group: it ends, and in a good state. -/
theorem GoodState.splitGroup {s : State} {g : Nat} (h : GoodState s) (hr : s.inst = .ready) (hg : g < s.groups) :
    ∃ t, splitGroup g s = .ok t ∧ GoodState t := by
  obtain ⟨t, ht, hgood, _, hframe⟩ := splitGroupKeepsTheEnergySum s g h hr hg
  rw [exec_splitGroup (h.storage.group_end_le hg)] at ht
  exact ⟨t, ok_of_settle ht (by rw [hframe]; simp [hr]), hgood⟩

/-- R96 over a group: within the kernel bound it ends, and in a good state. -/
theorem GoodState.reconGroup {s : State} {g : Nat} (h : GoodState s) (hr : s.inst = .ready) (hk : KernelBound s)
    (hg : g < s.groups) : ∃ t, reconGroup g s = .ok t ∧ GoodState t := by
  obtain ⟨t, ht, _, hframe⟩ := reconGroupWritesOnlyItsOutputs s g h hr hk hg
  rw [exec_reconGroup (h.storage.group_end_le hg)] at ht
  have hok := ok_of_settle ht (by rw [hframe]; simp [hr])
  have hst := h.storage.reconGroup (h.storage.group_end_le hg) hok
  obtain ⟨m, rfl⟩ : ∃ m, t = { s with outMem := m } := ⟨_, hframe⟩
  exact ⟨_, hok, h.of_same hst ⟨rfl, rfl, rfl, rfl, rfl, rfl, rfl⟩ rfl rfl rfl rfl rfl⟩

theorem BlockFrame.kernelBound {s t : State} (f : BlockFrame s t) (h : KernelBound s) : KernelBound t := by
  unfold KernelBound
  rw [f.hw, f.groups, f.fir]
  exact h

/-- Within the kernel bound no group of a good stream's block overflows (R96, R112). -/
theorem GoodState.processGroups {s : State} (h : GoodState s) (hr : s.inst = .ready) (hk : KernelBound s) :
    ∃ t, processGroups s = .ok t := by
  obtain ⟨t, ht, _⟩ := processGroups_total (s := s) (fun _ u => GoodState u ∧ BlockFrame s u)
    (fun g hg _ u ⟨hu, f⟩ => by
      have hgu : g < u.groups := by rw [f.groups]; exact hg
      obtain ⟨v, hv, hgood⟩ := hu.splitGroup (f.inst.trans hr) hgu
      exact ⟨v, hv, hgood, f.trans (splitGroup_blockFrame hgu hv)⟩)
    (fun g hg u ⟨hu, f⟩ => by
      have hgu : g < u.groups := by rw [f.groups]; exact hg
      obtain ⟨v, hv, hgood⟩ := hu.reconGroup (f.inst.trans hr) (f.kernelBound hk) hgu
      exact ⟨v, hv, hgood, f.trans (reconGroup_blockFrame hgu hv)⟩)
    ⟨h, BlockFrame.refl s⟩
  exact ⟨t, ht⟩

theorem GoodState.ovf_of_ready {s : State} (h : GoodState s) (hr : s.inst = .ready) : s.ovf = false :=
  Bool.eq_false_iff.2 fun ho => by rw [h.ovfIffFault.1 ho] at hr; cases hr

/-- Settles O36: no group overflows, the groups keep the block's frame, and the completion advances the cursor. -/
theorem processRunsItsBlock : Obligations.ProcessRunsItsBlock := by
  intro s h hr hk
  obtain ⟨u, hu⟩ := h.processGroups hr hk
  have f := processGroups_blockFrame hu
  have hout := f.outRest
  have hexec := exec_process_of_ok hr hu
  rw [cursorAdvance_eq, f.same] at hexec
  exact ⟨_, hexec, hr, h.ovf_of_ready hr, rfl, rfl, rfl, rfl, rfl, rfl, rfl, rfl, rfl, hout, rfl, rfl, rfl, rfl, rfl,
    rfl, rfl, rfl, rfl⟩

/-! ### Silence -/

/-- A block of silence: the datapath in use and the input samples of the block are zero (R112 (e)). -/
structure Silent (s : State) : Prop where
  prev : s.prev = 0
  hifsum : s.hifsum = 0
  hif : ∀ j < s.len, readAt s.hif j = 0
  lopass : ∀ i < s.groups, readAt s.lopass i = 0
  input : ∀ j < s.len, decodeSample s j = 0
  hifLength : s.len ≤ s.hif.length
  lopassLength : s.groups ≤ s.lopass.length
  lenPow : ∃ k, s.len = 2 ^ k
  groupsPow : ∃ m, s.groups = 2 ^ m

theorem Silent.with_outMem {s : State} (h : Silent s) (m : Memory) : Silent { s with outMem := m } :=
  ⟨h.prev, h.hifsum, h.hif, h.lopass, h.input, h.hifLength, h.lopassLength, h.lenPow, h.groupsPow⟩

theorem set_readAt_self {arr : List Word64} {i : Nat} (h : i < arr.length) : arr.set i (readAt arr i) = arr := by
  rw [readAt_of_lt h, List.set_getElem_self]

/-- A sample of silence changes nothing: estimate, magnitude and sum stay 0. -/
theorem Silent.splitSample {s : State} {j : Nat} (h : Silent s) (hj : j < s.len) : splitSample j s = .ok s := by
  have hjl : j < s.hif.length := hj.trans_le h.hifLength
  obtain ⟨k, hlen⟩ := h.lenPow
  obtain ⟨t, hok, e⟩ := splitSample_effect hjl hlen (by simp [h.prev]) (by simp [h.hifsum]) (by simp [h.hif j hj])
  have hprev : t.prev = s.prev := BitVec.eq_of_toInt_eq (by rw [e.prev, h.input j hj, h.prev]; simp)
  have hmag : readAt t.hif j = readAt s.hif j :=
    BitVec.eq_of_toInt_eq (by rw [e.magnitude, hprev, h.input j hj, h.prev, h.hif j hj]; simp)
  have hsum : t.hifsum = s.hifsum := BitVec.eq_of_toInt_eq (by rw [e.energy, hmag]; omega)
  rw [hok, e.frame, hprev, hsum, hmag, set_readAt_self hjl]

theorem Silent.splitGroup {s : State} {g : Nat} (h : Silent s) (hg : g < s.groups) : splitGroup g s = .ok s := by
  obtain ⟨t, ht, rfl⟩ := forUp_total (body := Machine.splitSample) (fun _ u => u = s) (i := g * s.hw.f) (n := s.hw.f)
    (fun j u hlo hhi hu => by
      have hj := group_sample_lt (s := s) hg (q := j - g * s.hw.f) (by omega)
      exact ⟨s, by rw [hu]; exact h.splitSample (by omega), rfl⟩) rfl
  have hstore : lpStore g t = t := by
    have hset : t.lopass.set g t.prev = t.lopass := by
      rw [h.prev, ← h.lopass g hg, set_readAt_self (hg.trans_le h.lopassLength)]
    rw [lpStore, hset]
  rw [Machine.splitGroup, ht]
  exact congrArg Except.ok hstore

theorem inInt64_zero : InInt64 0 := by unfold InInt64; omega

/-- A silent history gives the output 0, whatever the kernel and the noise (R98). -/
theorem Silent.reconSubsample {s : State} (h : Silent s) (g p : Nat) :
    reconSubsample g p s = .ok (encodeSample (outPosition s.hw g p) 0 s) := by
  obtain ⟨m, hL⟩ := h.groupsPow
  have hpos : 0 < s.groups := hL ▸ Nat.two_pow_pos m
  have hlp : ∀ i < s.groups, (readAt s.lopass i).toInt = 0 := fun i hi => by rw [h.lopass i hi]; rfl
  have hdot (n : Nat) : exactDot s g p n = 0 := by rw [exactDot_constant hpos hlp, zero_mul]
  have hacc : exactAcc s g p = 0 := by rw [exactAcc_of_hifsum_zero g p h.hifsum, hdot]
  have hc : ChecksPass s g p := by
    refine ⟨fun k _ => ⟨?_, ?_⟩, ?_, ?_⟩
    · rw [hlp _ (Nat.mod_lt _ hpos), zero_mul]
      exact inInt64_zero
    · rw [hdot]
      exact inInt64_zero
    · rw [h.hifsum]
      exact (mul_zero (exactNoise s g p)).symm ▸ inInt64_zero
    · rw [hacc]
      exact inInt64_zero
  obtain ⟨y, hok, hy⟩ := reconSubsample_of_checksPass hL hc
  have hy0 : y = 0 := BitVec.eq_of_toInt_eq (by rw [hy, hacc]; simp)
  rw [hok, hy0]

/-- The state once the first `n` outputs of a silent block are written. -/
structure SilentOutput (s : State) (n : Nat) (u : State) : Prop where
  same : u = { s with outMem := u.outMem }
  canonical : u.outMem.wf = true
  zeros : ∀ off < 3 * n, u.outMem.read off = 0

theorem SilentOutput.silent {s u : State} {n : Nat} (h : Silent s) (hu : SilentOutput s n u) : Silent u := by
  rw [hu.same]
  exact h.with_outMem u.outMem

theorem SilentOutput.hw {s u : State} {n : Nat} (hu : SilentOutput s n u) : u.hw = s.hw := by rw [hu.same]
theorem SilentOutput.groups {s u : State} {n : Nat} (hu : SilentOutput s n u) : u.groups = s.groups := by
  rw [hu.same]; rfl

/-- A byte of the first `n + 1` samples is one of the first `n`, or one of the last sample's three. -/
theorem sample_byte_cases {n off : Nat} (h : off < 3 * (n + 1)) : off < 3 * n ∨ ∃ b < 3, off = 3 * n + b := by
  rcases lt_or_ge off (3 * n) with hlt | hge
  · exact .inl hlt
  · exact .inr ⟨off - 3 * n, by omega, by omega⟩

theorem SilentOutput.encode {s u : State} {n : Nat} (hu : SilentOutput s n u) :
    SilentOutput s (n + 1) (encodeSample n 0 u) := by
  refine ⟨?_, memWrite_wf _ _ _ hu.canonical, fun off hoff => ?_⟩
  · rw [hu.same]
    rfl
  · obtain hlt | ⟨b, hb, rfl⟩ := sample_byte_cases hoff
    · rw [(encodeSample_frame u n 0).2 off (.inl hlt), hu.zeros off hlt]
    · rw [encodeSample_read 0 hu.canonical hb]
      simp

theorem SilentOutput.reconGroup {s u : State} {g : Nat} (h : Silent s) (hu : SilentOutput s (g * s.hw.f) u) :
    ∃ v, reconGroup g u = .ok v ∧ SilentOutput s ((g + 1) * s.hw.f) v := by
  rw [Nat.add_mul, Nat.one_mul]
  rw [Machine.reconGroup, hu.hw]
  obtain ⟨v, hv, hout⟩ := forUp_total (body := Machine.reconSubsample g) (fun p v => SilentOutput s (g * s.hw.f + p) v)
    (i := 0) (n := s.hw.f) (fun p v _ _ hv => by
      refine ⟨_, (hv.silent h).reconSubsample g p, ?_⟩
      rw [hv.hw]
      exact hv.encode) hu
  exact ⟨v, hv, by rwa [Nat.zero_add] at hout⟩

theorem ConfiguredOk.groups_mul_f {s : State} (h : ConfiguredOk s) : s.groups * s.hw.f = s.len := by
  obtain ⟨k, hlen, hf, _⟩ := h.length
  exact Nat.div_mul_cancel (hlen ▸ pow_dvd_pow 2 hf)

/-- From the zero state an all-zero block is a block of silence. -/
theorem GoodState.silent {s : State} (h : GoodState s) (hr : s.inst = .ready) (hprev : s.prev = 0)
    (hhif : ∀ x ∈ s.hif.take s.len, x = 0) (hlp : ∀ x ∈ s.lopass.take s.groups, x = 0)
    (hin : ∀ off < 3 * s.len, s.inMem.read off = 0) : Silent s := by
  have hst := h.storage
  have hcfg := h.configured (by rw [hr]; decide)
  have hhl : s.len ≤ s.hif.length := by rw [hst.hifLength]; exact hst.lenBound
  have hll : s.groups ≤ s.lopass.length := by rw [hst.lopassLength]; exact (groups_le_len s).trans hst.lenBound
  refine ⟨hprev, ?_, fun j hj => hhif _ (readAt_mem_take hj (hj.trans_le hhl)),
    fun i hi => hlp _ (readAt_mem_take hi (hi.trans_le hll)), fun j hj => ?_, hhl, hll, ?_, hcfg.groups_two_pow⟩
  · apply BitVec.eq_of_toInt_eq
    rw [(h.stream hr).hifSum]
    refine List.sum_eq_zero fun y hy => ?_
    obtain ⟨x, hx, rfl⟩ := List.mem_map.1 hy
    rw [hhif x hx]
    rfl
  · rw [decodeSample, memRead_three, hin _ (by omega), hin _ (by omega), hin _ (by omega)]
    rfl
  · obtain ⟨k, hlen, _⟩ := hcfg.length
    exact ⟨k, hlen⟩

/-- Settles O39: splitting leaves silence as it is, and every output of the block is 0. -/
theorem zeroBlockGivesZeroOutput : Obligations.ZeroBlockGivesZeroOutput := by
  intro s h hr hprev hhif hlp hin
  have hs := h.silent hr hprev hhif hlp hin
  obtain ⟨u, hu, hout⟩ := processGroups_total (s := s) (fun g => SilentOutput s (g * s.hw.f))
    (fun g hg n u hu => ⟨u, (hu.silent hs).splitGroup (by rw [hu.groups]; exact hg), hu⟩)
    (fun g _ u hu => hu.reconGroup hs)
    ⟨rfl, h.storage.outCanonical, fun off hoff => by omega⟩
  have hzeros := hout.zeros
  rw [(h.configured (by rw [hr]; decide)).groups_mul_f] at hzeros
  have hexec := exec_process_of_ok hr hu
  rw [cursorAdvance_eq, hout.same] at hexec
  exact ⟨_, hexec, hr, rfl, hprev, hs.hifsum, rfl, rfl, rfl, hzeros⟩

end Sys2Proof.Machine
end

section
/-! What a block depends on (44_block_processor.md R112 (b)): two runs of PROCESS that agree on the datapath in use and
on the input block agree at every step, on what they computed and on whether they overflow. -/

namespace Sys2Proof.Machine

/-! ### Two operations that end alike -/

/-- Both operations end, in states related by `R`, or both overflow. -/
inductive SameOutcome {σ : Type} (R : σ → σ → Prop) : Except Overflow σ → Except Overflow σ → Prop where
  | ok {t t' : σ} (h : R t t') : SameOutcome R (.ok t) (.ok t')
  | error (e e' : Overflow) : SameOutcome R (.error e) (.error e')

theorem SameOutcome.bind {σ τ : Type} {R : σ → σ → Prop} {S : τ → τ → Prop} {x x' : Except Overflow σ}
    {f f' : σ → Except Overflow τ} (h : SameOutcome R x x') (hf : ∀ t t', R t t' → SameOutcome S (f t) (f' t')) :
    SameOutcome S (x >>= f) (x' >>= f') := by
  cases h with
  | ok h => exact hf _ _ h
  | error e e' => exact .error e e'

/-- A loop whose iterations end alike ends alike. -/
theorem forUp_sameOutcome {σ : Type} {body body' : Nat → σ → Except Overflow σ} (R : Nat → σ → σ → Prop) {i n : Nat}
    {x x' : σ} (step : ∀ k u u', i ≤ k → k < i + n → R k u u' → SameOutcome (R (k + 1)) (body k u) (body' k u'))
    (h : R i x x') : SameOutcome (R (i + n)) (forUp body i n x) (forUp body' i n x') := by
  induction n generalizing i x x' with
  | zero => exact .ok h
  | succ n ih =>
    rw [forUp_succ, forUp_succ]
    refine (step i x x' le_rfl (by omega) h).bind fun u u' hu => ?_
    have hrest := ih (i := i + 1) (fun k v v' hlo hhi => step k v v' (by omega) (by omega)) hu
    rwa [show i + 1 + n = i + (n + 1) by omega] at hrest

theorem forUp_congr {σ : Type} {body body' : Nat → σ → Except Overflow σ} {i n : Nat} {x : σ}
    (h : ∀ k u, i ≤ k → k < i + n → body' k u = body k u) : forUp body' i n x = forUp body i n x := by
  induction n generalizing i x with
  | zero => rfl
  | succ n ih =>
    rw [forUp_succ, forUp_succ, h i x le_rfl (by omega)]
    exact congrArg (body i x).bind (funext fun u => ih fun k v hlo hhi => h k v (by omega) (by omega))

/-! ### Entries in use -/

theorem readAt_eq_of_take {l l' : List Word64} {i n : Nat} (h : l'.take n = l.take n) (hi : i < n) :
    readAt l' i = readAt l i := by
  have hget : l'[i]? = l[i]? := by rw [← List.getElem?_take_of_lt hi, h, List.getElem?_take_of_lt hi]
  rw [readAt, readAt, List.getD_eq_getElem?_getD, List.getD_eq_getElem?_getD, hget]

theorem take_set_congr {l l' : List Word64} {n : Nat} (j : Nat) (x : Word64) (h : l'.take n = l.take n) :
    (l'.set j x).take n = (l.set j x).take n := by
  rw [List.take_set, List.take_set, h]

theorem ringIndex_lt {l g k : Nat} (h : 0 < l) : ringIndex l g k < l := by
  have hle : ringIndex l g k ≤ l - 1 := Nat.and_le_right
  omega

/-! ### Two states of one block -/

/-- Two states of blocks of the length and the hardware of `s` that agree on the datapath in use, on the kernel, on the
input block, and on the first `n` output samples. -/
structure SameInUse (s : State) (n : Nat) (u u' : State) : Prop where
  hw : u.hw = s.hw
  hw' : u'.hw = s.hw
  cfgN : u.cfgN = s.cfgN
  cfgN' : u'.cfgN = s.cfgN
  prev : u'.prev = u.prev
  hifsum : u'.hifsum = u.hifsum
  noisei : u'.noisei = u.noisei
  noise : u'.noise = u.noise
  hif : u'.hif.take s.len = u.hif.take s.len
  lopass : u'.lopass.take s.groups = u.lopass.take s.groups
  fir : u'.fir.take s.len = u.fir.take s.len
  input : ∀ off < 3 * s.len, u'.inMem.read off = u.inMem.read off
  canonical : u.outMem.wf = true
  canonical' : u'.outMem.wf = true
  output : ∀ off < 3 * n, u'.outMem.read off = u.outMem.read off

section
variable {s u u' : State} {n : Nat}

theorem SameInUse.len (h : SameInUse s n u u') : u.len = s.len := congrArg BitVec.toNat h.cfgN
theorem SameInUse.len' (h : SameInUse s n u u') : u'.len = s.len := congrArg BitVec.toNat h.cfgN'
theorem SameInUse.groups (h : SameInUse s n u u') : u.groups = s.groups := by
  rw [State.groups, h.len, h.hw, State.groups]
theorem SameInUse.groups' (h : SameInUse s n u u') : u'.groups = s.groups := by
  rw [State.groups, h.len', h.hw', State.groups]

theorem SameInUse.decodeSample (h : SameInUse s n u u') {j : Nat} (hj : j < s.len) :
    decodeSample u' j = decodeSample u j := by
  have hread : memRead u'.inMem (3 * j) 3 = memRead u.inMem (3 * j) 3 :=
    memRead_congr fun x _ hx => h.input x (by omega)
  rw [Machine.decodeSample, hread, Machine.decodeSample]

/-! ### Splitting -/

theorem SameInUse.splitSample (h : SameInUse s n u u') {j : Nat} (hj : j < s.len) :
    SameOutcome (SameInUse s n) (splitSample j u) (splitSample j u') := by
  have hvalues : splitValues u'.hw.fBits u'.len (Machine.decodeSample u' j) u'.prev u'.hifsum (readAt u'.hif j)
      = splitValues u.hw.fBits u.len (Machine.decodeSample u j) u.prev u.hifsum (readAt u.hif j) := by
    rw [h.hw', h.hw, h.len', h.len, h.decodeSample hj, h.prev, h.hifsum, readAt_eq_of_take h.hif hj]
  rw [splitSample_values, splitSample_values, hvalues]
  cases splitValues u.hw.fBits u.len (Machine.decodeSample u j) u.prev u.hifsum (readAt u.hif j) with
  | ok x =>
    exact .ok ⟨h.hw, h.hw', h.cfgN, h.cfgN', rfl, rfl, h.noisei, h.noise, take_set_congr j x.2.1 h.hif, h.lopass, h.fir,
      h.input, h.canonical, h.canonical', h.output⟩
  | error e => exact .error e e

theorem SameInUse.lpStore (h : SameInUse s n u u') (g : Nat) : SameInUse s n (lpStore g u) (lpStore g u') := by
  refine ⟨h.hw, h.hw', h.cfgN, h.cfgN', h.prev, h.hifsum, h.noisei, h.noise, h.hif, ?_, h.fir, h.input, h.canonical,
    h.canonical', h.output⟩
  rw [lpStore_lopass, lpStore_lopass, h.prev]
  exact take_set_congr g u.prev h.lopass

theorem SameInUse.splitGroup (h : SameInUse s n u u') {g : Nat} (hg : g < s.groups) :
    SameOutcome (SameInUse s n) (splitGroup g u) (splitGroup g u') := by
  unfold Machine.splitGroup
  rw [h.hw, h.hw']
  refine (forUp_sameOutcome (fun _ => SameInUse s n) (fun j v v' hlo hhi hv => ?_) h).bind
    fun v v' hv => .ok (hv.lpStore g)
  have hj := group_sample_lt (s := s) hg (q := j - g * s.hw.f) (by omega)
  exact hv.splitSample (by omega)

/-! ### Reconstruction -/

/-- The accumulator reads the kernel, the table and the datapath in use only. -/
theorem SameInUse.reconAcc (h : SameInUse s n u u') (g : Nat) {p : Nat} (hp : p < s.hw.f) :
    reconAcc u' g p = reconAcc u g p := by
  have htap : ∀ k acc, 0 ≤ k → k < 0 + s.groups → dotTap u' g p k acc = dotTap u g p k acc := by
    intro k acc _ hk
    have hlp : readAt u'.lopass (ringIndex s.groups g k) = readAt u.lopass (ringIndex s.groups g k) :=
      readAt_eq_of_take h.lopass (ringIndex_lt (by omega))
    have hfir : readAt u'.fir (coeffIndex s.hw k p) = readAt u.fir (coeffIndex s.hw k p) :=
      readAt_eq_of_take h.fir (group_sample_lt (by omega) hp)
    rw [dotTap, dotTap, h.groups', h.groups, h.hw', h.hw, hlp, hfir]
  rw [Machine.reconAcc, Machine.reconAcc, h.groups', h.groups, forUp_congr htap, h.hw', h.hw, h.noise, h.noisei,
    h.hifsum]

theorem SameInUse.encodeSample (h : SameInUse s n u u') (y : Word64) :
    SameInUse s (n + 1) (encodeSample n y u) (encodeSample n y u') := by
  refine ⟨h.hw, h.hw', h.cfgN, h.cfgN', h.prev, h.hifsum, h.noisei, h.noise, h.hif, h.lopass, h.fir, h.input,
    memWrite_wf _ _ _ h.canonical, memWrite_wf _ _ _ h.canonical', fun off hoff => ?_⟩
  obtain hlt | ⟨b, hb, rfl⟩ := sample_byte_cases hoff
  · rw [(encodeSample_frame u n y).2 off (.inl hlt), (encodeSample_frame u' n y).2 off (.inl hlt), h.output off hlt]
  · rw [encodeSample_read y h.canonical hb, encodeSample_read y h.canonical' hb]

theorem SameInUse.reconSubsample {g p : Nat} (h : SameInUse s (g * s.hw.f + p) u u') (hp : p < s.hw.f) :
    SameOutcome (SameInUse s (g * s.hw.f + (p + 1))) (reconSubsample g p u) (reconSubsample g p u') := by
  rw [Machine.reconSubsample, Machine.reconSubsample, h.reconAcc g hp, h.hw', h.hw]
  cases Machine.reconAcc u g p with
  | ok acc => exact .ok (h.encodeSample _)
  | error e => exact .error e e

theorem SameInUse.reconGroup {g : Nat} (h : SameInUse s (g * s.hw.f) u u') :
    SameOutcome (SameInUse s ((g + 1) * s.hw.f)) (reconGroup g u) (reconGroup g u') := by
  have hloop := forUp_sameOutcome (body := Machine.reconSubsample g) (body' := Machine.reconSubsample g)
    (fun p => SameInUse s (g * s.hw.f + p)) (i := 0) (n := s.hw.f)
    (fun p v v' _ hp hv => hv.reconSubsample (by omega)) h
  rw [Machine.reconGroup, Machine.reconGroup, h.hw, h.hw', Nat.add_mul, Nat.one_mul]
  rwa [Nat.zero_add] at hloop

/-! ### The block -/

/-- The groups of the two blocks end alike, under both schedules. -/
theorem SameInUse.processGroups (h : SameInUse s 0 u u') :
    SameOutcome (SameInUse s (s.groups * s.hw.f)) (processGroups u) (processGroups u') := by
  have h0 : SameInUse s (0 * s.hw.f) u u' := by rwa [Nat.zero_mul]
  rw [← Nat.zero_add s.groups]
  unfold Machine.processGroups
  rw [h.hw, h.hw', h.groups, h.groups']
  cases s.hw.schedule with
  | interleaved =>
    refine forUp_sameOutcome (fun g => SameInUse s (g * s.hw.f)) (fun g v v' _ hg hv => ?_) h0
    have hgs : g < s.groups := by omega
    exact (hv.splitGroup hgs).bind fun w w' hw => hw.reconGroup
  | splitAllFirst =>
    refine (forUp_sameOutcome (fun _ => SameInUse s (0 * s.hw.f)) (fun g v v' _ hg hv => ?_) h0).bind fun v v' hv => ?_
    · have hgs : g < s.groups := by omega
      exact hv.splitGroup hgs
    · exact forUp_sameOutcome (fun g => SameInUse s (g * s.hw.f)) (fun g w w' _ _ hw => hw.reconGroup) hv

end

/-- Settles O38: both blocks overflow, or both end and agree on what they computed. -/
theorem processDependsOnlyOnItsInputs : Obligations.ProcessDependsOnlyOnItsInputs := by
  intro s s' t t' h h' hr hr' hhw hn hprev hsum hcur hnoise hhif hlp hin ht ht'
  have hcfg := h.configured (by rw [hr]; decide)
  have hlen : s'.len = s.len := congrArg BitVec.toNat hn
  have hfir : s'.fir.take s.len = s.fir.take s.len := by
    have hkernel := (h'.configured (by rw [hr']; decide)).kernel
    rw [hlen, hhw] at hkernel
    rw [hkernel, hcfg.kernel]
  have hsame : SameInUse s 0 s s' := ⟨rfl, hhw, rfl, hn, hprev, hsum, hcur, hnoise, hhif, hlp, hfir, hin,
    h.storage.outCanonical, h'.storage.outCanonical, fun off hoff => by omega⟩
  have hout := hsame.processGroups
  rw [hcfg.groups_mul_f] at hout
  generalize hp : processGroups s = r at hout
  generalize hp' : processGroups s' = r' at hout
  cases hout with
  | ok hv =>
    cases ht.symm.trans (exec_process_of_ok hr hp)
    cases ht'.symm.trans (exec_process_of_ok hr' hp')
    refine ⟨rfl, fun _ => ⟨hv.prev, hv.hifsum, ?_, hv.hif, hv.lopass, hv.output⟩⟩
    simp only [complete_noisei, cursorAdvance_noisei, hv.noisei, hv.len, hv.len', hv.hw, hv.hw']
  | error e e' =>
    cases ht.symm.trans (exec_process_of_error hr hp)
    cases ht'.symm.trans (exec_process_of_error hr' hp')
    exact ⟨rfl, fun hne => by cases hne⟩

end Sys2Proof.Machine
end

section
/-! PROCESS as its micro-program from the sequencer (44_block_processor.md R107, R108; log 14), by groups and down to
single samples. -/

namespace Sys2Proof.Machine

/-! ### The groups of a block as micro-operations -/

theorem runsAs_splitGroup {s : State} {g : Nat} (hs : StorageOk s) (hg : g < s.groups) {u : State} (hu : InBlock s u) :
    RunsAs (.splitGroup g) (splitGroup g) u := by
  have hmax : g < s.hw.nMax := hg.trans_le ((groups_le_len s).trans hs.lenBound)
  exact runsAs_of_exec (by rw [hu.hw]; exact hs.legal) (decodeMicro_microWordOf (hs.indexFits hmax) rfl)
    (fun w => exec_splitGroup (s := u.withSeq w) (hu.hw ▸ hs.group_end_le hg)) (splitGroup_withSeq g u)

theorem runsAs_reconGroup {s : State} {g : Nat} (hs : StorageOk s) (hg : g < s.groups) {u : State} (hu : InBlock s u) :
    RunsAs (.reconGroup g) (reconGroup g) u := by
  have hmax : g < s.hw.nMax := hg.trans_le ((groups_le_len s).trans hs.lenBound)
  exact runsAs_of_exec (by rw [hu.hw]; exact hs.legal) (decodeMicro_microWordOf (hs.indexFits hmax) rfl)
    (fun w => exec_reconGroup (s := u.withSeq w) (hu.hw ▸ hs.group_end_le hg)) (reconGroup_withSeq g u)

theorem InBlock.splitGroup {s u v : State} {g : Nat} (h : InBlock s u) (hg : g < s.groups)
    (hv : splitGroup g u = .ok v) : InBlock s v :=
  ⟨h.frame.trans (splitGroup_blockFrame (by rw [h.frame.groups]; exact hg) hv),
    by rw [splitGroup_outMem hv]; exact h.canonical⟩

theorem InBlock.reconGroup {s u v : State} {g : Nat} (h : InBlock s u) (hg : g < s.groups)
    (hv : reconGroup g u = .ok v) : InBlock s v :=
  forUp_ok (fun _ v => InBlock s v)
    (fun _ _ _ _ hp ha hb => ha.reconSubsample hg (by rw [h.hw] at hp; omega) hb) h hv

/-! ### The micro-program -/

/-- Micro-operations, each with its body. -/
abbrev MicroOps := List (Instr × (State → Except Overflow State))

/-- The micro-operations of a block over `l` groups in the order of the schedule, where those of each `SPLIT_GROUP` and
`RECON_GROUP` are given (R107, R108). -/
def blockOps (split recon : Nat → MicroOps) (schedule : Schedule) (l : Nat) : MicroOps :=
  match schedule with
  | .interleaved => (List.range l).flatMap fun g => split g ++ recon g
  | .splitAllFirst => (List.range l).flatMap split ++ (List.range l).flatMap recon

/-- In the block of `s` these micro-operations run from the sequencer, and together are `body g`. -/
structure GroupOps (s : State) (ops : Nat → MicroOps) (body : Nat → State → Except Overflow State) : Prop where
  run : ∀ g < s.groups, RunInBlock s (ops g)
  seqBody_eq : ∀ g < s.groups, ∀ u, InBlock s u → seqBody (ops g) u = body g u
  inBlock : ∀ g < s.groups, ∀ u v, InBlock s u → body g u = .ok v → InBlock s v

section
variable {s : State} {ops ops' : Nat → MicroOps} {body body' : Nat → State → Except Overflow State}

theorem RunInBlock.flatMap (h : ∀ g < s.groups, RunInBlock s (ops g)) :
    RunInBlock s ((List.range s.groups).flatMap ops) := by
  intro x hx
  obtain ⟨g, hg, hxg⟩ := List.mem_flatMap.1 hx
  exact h g (List.mem_range.1 hg) x hxg

/-- The groups' micro-operations one after another are the loop over the groups. -/
theorem GroupOps.seqBody_flatMap (h : GroupOps s ops body) (i n : Nat) (hn : i + n ≤ s.groups) {u : State}
    (hu : InBlock s u) : seqBody ((List.range' i n).flatMap ops) u = forUp body i n u := by
  induction n generalizing i u with
  | zero => rfl
  | succ n ih =>
    rw [List.range'_succ, List.flatMap_cons, seqBody_append, h.seqBody_eq i (by omega) u hu, forUp_succ]
    cases hv : body i u with
    | ok v => exact ih (i + 1) (by omega) (h.inBlock i (by omega) u v hu hv)
    | error e => rfl

theorem GroupOps.seqBody_groups (h : GroupOps s ops body) {u : State} (hu : InBlock s u) :
    seqBody ((List.range s.groups).flatMap ops) u = forUp body 0 s.groups u := by
  rw [List.range_eq_range']
  exact h.seqBody_flatMap 0 s.groups (by omega) hu

theorem GroupOps.forUp_inBlock (h : GroupOps s ops body) {u v : State} (hu : InBlock s u)
    (hv : forUp body 0 s.groups u = .ok v) : InBlock s v :=
  forUp_ok (fun _ v => InBlock s v) (fun g a b _ hg ha hb => h.inBlock g (by omega) a b ha hb) hu hv

/-- Two operations of each group, the second after the first. -/
theorem GroupOps.append (h : GroupOps s ops body) (h' : GroupOps s ops' body') :
    GroupOps s (fun g => ops g ++ ops' g) (fun g u => (body g u).bind (body' g)) := by
  refine ⟨fun g hg => (h.run g hg).append (h'.run g hg), fun g hg u hu => ?_, fun g hg u v hu hv => ?_⟩
  · rw [seqBody_append, h.seqBody_eq g hg u hu]
    cases hb : body g u with
    | ok v => exact h'.seqBody_eq g hg v (h.inBlock g hg u v hu hb)
    | error e => rfl
  · obtain ⟨w, hw, hv⟩ := bind_ok hv
    exact h'.inBlock g hg w v (h.inBlock g hg u w hu hw) hv

theorem runInBlock_blockOps (h : GroupOps s ops splitGroup) (h' : GroupOps s ops' reconGroup) :
    RunInBlock s (blockOps ops ops' s.hw.schedule s.groups) := by
  unfold blockOps
  cases s.hw.schedule with
  | interleaved => exact RunInBlock.flatMap fun g hg => (h.run g hg).append (h'.run g hg)
  | splitAllFirst => exact (RunInBlock.flatMap h.run).append (RunInBlock.flatMap h'.run)

/-- The micro-operations of the block are its groups, under both schedules. -/
theorem seqBody_blockOps (hw : s.outMem.wf = true) (h : GroupOps s ops splitGroup) (h' : GroupOps s ops' reconGroup) :
    seqBody (blockOps ops ops' s.hw.schedule s.groups) s = processGroups s := by
  unfold blockOps processGroups
  cases s.hw.schedule with
  | interleaved => exact (h.append h').seqBody_groups (InBlock.refl hw)
  | splitAllFirst =>
    show seqBody ((List.range s.groups).flatMap ops ++ (List.range s.groups).flatMap ops') s = _
    rw [seqBody_append, h.seqBody_groups (InBlock.refl hw)]
    cases hu : forUp splitGroup 0 s.groups s with
    | ok u => exact h'.seqBody_groups (h.forUp_inBlock (InBlock.refl hw) hu)
    | error e => rfl

end

/-! ### By groups and by samples -/

/-- A group's operation as one micro-operation. -/
def oneOp (mk : Nat → Instr) (body : Nat → State → Except Overflow State) (g : Nat) : MicroOps := [(mk g, body g)]

theorem groupOps_oneOp {s : State} {mk : Nat → Instr} {body : Nat → State → Except Overflow State}
    (hrun : ∀ g < s.groups, ∀ u, InBlock s u → RunsAs (mk g) (body g) u)
    (hin : ∀ g < s.groups, ∀ u v, InBlock s u → body g u = .ok v → InBlock s v) : GroupOps s (oneOp mk body) body := by
  refine ⟨fun g hg x hx u hu => ?_, fun g _ u _ => ?_, hin⟩
  · obtain rfl := List.mem_singleton.1 hx
    exact ⟨hrun g hg u hu, fun v => hin g hg u v hu⟩
  · show (body g u).bind .ok = body g u
    cases body g u <;> rfl

section
variable {s : State} (hs : StorageOk s)
include hs

theorem groupOps_splitGroup : GroupOps s (oneOp .splitGroup splitGroup) splitGroup :=
  groupOps_oneOp (fun _ hg _ hu => runsAs_splitGroup hs hg hu) fun _ hg _ _ hu hv => hu.splitGroup hg hv

theorem groupOps_reconGroup : GroupOps s (oneOp .reconGroup reconGroup) reconGroup :=
  groupOps_oneOp (fun _ hg _ hu => runsAs_reconGroup hs hg hu) fun _ hg _ _ hu hv => hu.reconGroup hg hv

theorem groupOps_splitSamples : GroupOps s (splitGroupBodies s.hw) splitGroup :=
  ⟨fun _ hg => runInBlock_splitGroup hs hg, fun g _ u hu => by rw [← hu.hw, seqBody_splitGroupBodies],
    fun _ hg _ _ hu hv => hu.splitGroup hg hv⟩

theorem groupOps_reconSubsamples :
    GroupOps s (fun g => loopOps (.reconSubsample g) (reconSubsample g) 0 s.hw.f) reconGroup :=
  ⟨fun _ hg => runInBlock_reconGroup hs hg, fun g _ u hu => by rw [seqBody_loopOps, ← hu.hw]; rfl,
    fun _ hg _ _ hu hv => hu.reconGroup hg hv⟩

end

theorem blockOps_instrs_groups (hw : Params) (l : Nat) :
    (blockOps (oneOp .splitGroup splitGroup) (oneOp .reconGroup reconGroup) hw.schedule l).map Prod.fst
      ++ [.cursorAdvance] = processOps hw l := by
  unfold blockOps processOps
  cases hw.schedule with
  | interleaved =>
    simp only [List.map_flatMap]
    rfl
  | splitAllFirst =>
    simp only [List.map_append, List.map_flatMap]
    rw [List.map_eq_flatMap, List.map_eq_flatMap]
    rfl

theorem blockOps_instrs_samples (hw : Params) (l : Nat) :
    (blockOps (splitGroupBodies hw) (fun g => loopOps (.reconSubsample g) (reconSubsample g) 0 hw.f) hw.schedule l).map
      Prod.fst ++ [.cursorAdvance] = processLeafOps hw l := by
  unfold blockOps processLeafOps
  cases hw.schedule with
  | interleaved =>
    simp only [List.map_flatMap, List.map_append, splitGroupBodies_instrs, loopOps_reconGroup_instrs]
  | splitAllFirst =>
    simp only [List.map_append, List.map_flatMap, splitGroupBodies_instrs, loopOps_reconGroup_instrs]

/-! ### The run -/

/-- `CURSOR_ADVANCE` from the sequencer, as the last micro-operation of a block. -/
theorem run_cursorAdvance {u : State} (hl : u.hw.legal = true) :
    run 1 (u.withSeq [microWordOf .cursorAdvance]) = .next (cursorAdvance (u.withSeq [])) := by
  have hd : decodeMicro (microWordOf .cursorAdvance) = .ok .cursorAdvance := decodeMicro_microWordOf rfl rfl
  have hstep := step_micro (s := u.withSeq [microWordOf .cursorAdvance]) hl rfl hd
  exact run_succ 0 (hstep.trans (exec_cursorAdvance _))

/-- Micro-operations of a block and the cursor's advance after them run to their end, or to the block's fault. -/
theorem run_microOps_cursorAdvance {s : State} {l : MicroOps} (hst : StorageOk s) (hs : s.seq = [])
    (hl : RunInBlock s l) :
    ∃ n ≤ l.length + 1, run n (s.withMicroOps (l.map Prod.fst ++ [.cursorAdvance])) =
      .next (settle s ((seqBody l s).map cursorAdvance)) := by
  have hw := hst.outCanonical
  have hwords : s.withMicroOps (l.map Prod.fst ++ [.cursorAdvance]) =
      s.withSeq (l.map (fun x => microWordOf x.1) ++ [microWordOf .cursorAdvance]) := by
    rw [State.withMicroOps, List.map_append, List.map_map]
    rfl
  rw [hwords]
  obtain ⟨u, hu, hin, hrun⟩ | ⟨⟨e, he⟩, n, hn, hrun⟩ :=
    run_seqBody s hw l s (InBlock.refl hw) hl [microWordOf .cursorAdvance]
  · refine ⟨l.length + 1, le_rfl, ?_⟩
    rw [hrun 1, run_cursorAdvance (by rw [hin.hw]; exact hst.legal), hin.withSeq_nil hs, hu]
    rfl
  · exact ⟨n, by omega, by rw [hrun, he]; rfl⟩

/-- A micro-program of the block, run from the sequencer, ends where PROCESS does, but for the completion. -/
theorem run_microProgram {s t : State} {split recon : Nat → MicroOps} {ops : List Instr} (h : GoodState s)
    (hr : s.inst = .ready) (ht : exec .process s = .next t) (hsplit : GroupOps s split splitGroup)
    (hrecon : GroupOps s recon reconGroup)
    (hops : (blockOps split recon s.hw.schedule s.groups).map Prod.fst ++ [.cursorAdvance] = ops) :
    ∃ n ≤ ops.length, ∃ u : State, run n (s.withMicroOps ops) = .next u ∧ u.seq = [] ∧
      t = if u.inst = .fault then u else { u with errcode := .none, busy := false } := by
  obtain ⟨n, hn, hrun⟩ :=
    run_microOps_cursorAdvance h.storage h.noMicroOps (runInBlock_blockOps hsplit hrecon)
  rw [seqBody_blockOps h.storage.outCanonical hsplit hrecon, hops] at hrun
  refine ⟨n, by rw [← hops, List.length_append, List.length_map]; exact hn, _, hrun, ?_⟩
  cases hp : processGroups s with
  | ok v =>
    have f := processGroups_blockFrame hp
    cases ht.symm.trans (exec_process_of_ok hr hp)
    have hready : (cursorAdvance v).inst ≠ .fault := by rw [cursorAdvance_inst, f.inst, hr]; decide
    exact ⟨f.seq.trans h.noMicroOps, (if_neg hready).symm⟩
  | error e =>
    cases ht.symm.trans (exec_process_of_error hr hp)
    exact ⟨rfl, (if_pos rfl).symm⟩

/-- Settles O37: both micro-programs are operations of the groups in the order of the schedule. -/
theorem processIsItsMicroProgram : Obligations.ProcessIsItsMicroProgram := by
  intro s h hr
  obtain ⟨t, ht, _⟩ := exec_command (i := .process) rfl s
  have hs := h.storage
  exact ⟨t, ht,
    run_microProgram h hr ht (groupOps_splitGroup hs) (groupOps_reconGroup hs) (blockOps_instrs_groups s.hw s.groups),
    run_microProgram h hr ht (groupOps_splitSamples hs) (groupOps_reconSubsamples hs)
      (blockOps_instrs_samples s.hw s.groups)⟩

end Sys2Proof.Machine
end

section
/-! Which cause a command's code names (60_exceptions.md R120, R121), the overflow fault at its entry (R122, R123) and
the ways out of it (R124), and the block at rest (R132). -/

namespace Sys2Proof.Machine

/-! ### The block at rest -/

theorem blockTurn_of_idle {s : State} (h : s.busy = false) : blockTurn s = .next s :=
  if_neg (by rw [h]; decide)

/-- Settles O8: a step with no move to come and a step on the block's turn are both `blockTurn`, which holds the
state. -/
theorem idleBlockHoldsItsState : Obligations.IdleBlockHoldsItsState := by
  intro s hl hs hb
  refine ⟨fun hi => ?_, fun ms hi => ?_⟩
  · rw [step_block hl hs hi, blockTurn_of_idle hb]
  · rw [step_move hl hs hi, takeMove_block, blockTurn_of_idle (s := { s with inputs := ms }) hb]

/-! ### The first cause -/

theorem exec_openStream_of_legal {s : State} (h : openCheck s.hw s.pend.blockLen.toNat = .none) :
    ∃ t, exec .openStream s = .next t ∧ t.inst = .ready ∧ t.ovf = false ∧ t.errcode = .none := by
  obtain ⟨hrej, _⟩ | ⟨_, _, _, hopen⟩ := execOpen_cases s
  · exact absurd h hrej
  · exact ⟨_, hopen, rfl, rfl, rfl⟩

/-- The code of a pending command is that of the answer of the instruction it decodes to. -/
theorem errcode_of_exec {s t u : State} {w : Word32} {i : Instr} (ht : commandStep s = .next t)
    (hd : decodeCommand w = .ok i) (hu : exec i s = .next u) (hw : s.pend.word = w) : t.errcode = u.errcode := by
  rw [commandStep_of_ok (hw ▸ hd), hu] at ht
  cases ht
  rfl

/-- Settles O11: the reserved words by O7, the lengths by the check of OPEN in its order (O14), PROCESS by its
groups. -/
theorem errorCodePriority : Obligations.ErrorCodePriority := by
  intro s t hl hs hi hb ht
  have hstep := ht
  rw [step_pending hl hs hi hb] at ht
  obtain ⟨hbits, hop⟩ := reservedWordsCompleteWithTheirCode.1 s hl hs hi hb
  obtain ⟨hnotPow2, hlarge, hsmall⟩ := openRejectsIllegalLengths s
  have nop {u} := errcode_of_exec (u := u) ht (w := 0) (i := .nop) rfl
  have openStream {u} := errcode_of_exec (u := u) ht (w := 1) (i := .openStream) rfl
  have process {u} := errcode_of_exec (u := u) ht (w := 2) (i := .process) rfl
  have closeStream {u} := errcode_of_exec (u := u) ht (w := 3) (i := .closeStream) rfl
  refine ⟨fun hr => ?_, fun hr h4 => ?_, fun hw h => openStream (hnotPow2 h) hw,
    fun hw h hlt => openStream (hlarge h hlt) hw, fun hw h hle hlt => openStream (hsmall h hle hlt) hw,
    fun hw h hf hmax => ?_, fun hw hr => process (processRejectedUnlessReady s hr) hw,
    fun hw hr => ⟨fun e he => process (exec_process_of_error hr he) hw,
      fun u hu => process (exec_process_of_ok hr hu) hw⟩, fun hw => ?_⟩
  · cases hstep.symm.trans (hbits hr)
    rfl
  · cases hstep.symm.trans (hop hr h4)
    rfl
  · obtain ⟨u, hu, _, _, hcode⟩ := exec_openStream_of_legal ((openCheck_none_iff _ _).2 ⟨h, hf, hmax⟩)
    exact (openStream hu hw).trans hcode
  · obtain hw | hw := hw
    · exact nop (exec_nop s) hw
    · exact closeStream (exec_closeStream s) hw

/-! ### Into the fault -/

/-- The free words of a ring's entries in use leave the others alone (R123). -/
theorem drop_freeWords_append (base n : Nat) (l : List Word64) : (freeWords base n ++ l).drop n = l :=
  List.drop_left' (freeWords_length base n)

/-- Settles O40: PROCESS in `READY` answers the fault where its groups raise an overflow, and otherwise completes with
code 0. -/
theorem overflowFaultEntry : Obligations.OverflowFaultEntry := by
  refine ⟨fun s t hr ht => ?_, fun s e hr he => ?_⟩
  · cases hp : processGroups s with
    | ok u =>
      cases ht.symm.trans (exec_process_of_ok hr hp)
      simp
    | error e =>
      cases ht.symm.trans (exec_process_of_error hr hp)
      simp
  · have hout : SameBytesFrom (3 * s.len) s.outMem (overflowFault s).outMem :=
      fun off hoff => fillFree_read_outside (.inr (by omega))
    exact ⟨overflowFault s, exec_process_of_error hr he, rfl, rfl, rfl, rfl, freeCursor_lt s.hw (s.draws + 2), rfl, rfl,
      rfl, rfl, rfl, rfl, hout, drop_freeWords_append _ _ _, drop_freeWords_append _ _ _, rfl, rfl, rfl, rfl, rfl, rfl⟩

/-! ### Out of the fault -/

/-- Settles O41: the answers of the commands in `FAULT`, and of the transitions of `STATE` (O45) those that leave it. -/
theorem onlyOpenCloseAndResetLeaveFault : Obligations.OnlyOpenCloseAndResetLeaveFault := by
  intro s hl hs hf
  have hready : s.inst ≠ .ready := by rw [hf]; decide
  have hconf : s.inst ≠ .unconfigured := by rw [hf]; decide
  refine ⟨processRejectedUnlessReady s hready, nopOnlyClearsErrcode s, if_neg hconf,
    (regValue_hifsum s).trans (if_neg hconf), fun k hk hF hmax => ?_, ⟨_, exec_closeStream s, rfl, rfl⟩,
    fun t ht hleft => ?_⟩
  · obtain ⟨t, ht, hinst, hovf, _⟩ := exec_openStream_of_legal (openCheck_two_pow hk hF hmax)
    exact ⟨t, ht, hinst, hovf⟩
  · obtain h | ⟨_, hopen⟩ | ⟨_, hout⟩ | ⟨h, _⟩ := stateTransitions s t hl hs ht
    · exact absurd (h.trans hf) hleft
    · exact .inl hopen
    · exact .inr hout
    · exact absurd h hleft

end Sys2Proof.Machine
end

section
/-! Reset and the build-time parameters (70_reset_and_hazards.md R133 to R135). -/

namespace Sys2Proof.Machine

/-! ### No micro-operation changes the parameters -/

theorem noiseGen_hw {s t : State} (h : noiseGen s = .ok t) : t.hw = s.hw := by
  obtain ⟨tbl, h', _⟩ := noiseGen_ok s
  cases h'.symm.trans h
  rfl

theorem splitSample_hw {s t : State} {j : Nat} (h : splitSample j s = .ok t) : t.hw = s.hw := by
  obtain ⟨x, hx⟩ := splitSample_frame h
  rw [hx]

theorem splitGroup_hw {s t : State} {g : Nat} (h : splitGroup g s = .ok t) : t.hw = s.hw := by
  obtain ⟨u, hu, ht⟩ := bind_ok h
  cases ht
  exact forUp_ok (fun _ u => u.hw = s.hw) (fun _ _ _ _ _ ha hb => (splitSample_hw hb).trans ha) rfl hu

theorem reconSubsample_hw {s t : State} {g p : Nat} (h : reconSubsample g p s = .ok t) : t.hw = s.hw := by
  obtain ⟨y, rfl⟩ := reconSubsample_ok h
  rfl

/-- The overflow fault keeps the parameters, so an operation that keeps them settles to a state that has them. -/
theorem settle_hw {s : State} {r : Except Overflow State} (h : ∀ t, r = .ok t → t.hw = s.hw) :
    (settle s r).hw = s.hw := by
  obtain ⟨t, ht, e⟩ | ⟨_, e⟩ := settle_cases s r
  · rw [e]; exact h t ht
  · rw [e]; rfl

theorem exec_micro_hw {s t : State} {i : Instr} (hi : i.isCommand = false) (ht : exec i s = .next t) :
    t.hw = s.hw := by
  cases i with
  | nop | openStream | process | closeStream | reservedOp47 | reservedOp8F => cases hi
  | firGen | cursorAdvance => cases ht; rfl
  | noiseGen => cases ht; exact settle_hw fun _ => noiseGen_hw
  | splitSample j => obtain ⟨_, rfl⟩ := of_ite_fault ht; exact settle_hw fun _ => splitSample_hw
  | splitGroup g => obtain ⟨_, rfl⟩ := of_ite_fault ht; exact settle_hw fun _ => splitGroup_hw
  | reconSubsample g p => obtain ⟨_, rfl⟩ := of_ite_fault ht; exact settle_hw fun _ => reconSubsample_hw
  | reconGroup g => obtain ⟨_, rfl⟩ := of_ite_fault ht; exact settle_hw fun _ h => (reconGroup_frame h).hw
  | lpStore | decode24 | encode24 => obtain ⟨_, rfl⟩ := of_ite_fault ht; rfl

theorem microStep_hw {s t : State} {w : MicroWord} (ht : microStep w s = .next t) : t.hw = s.hw := by
  unfold microStep at ht
  cases hd : decodeMicro w with
  | error e => rw [hd] at ht; cases ht
  | ok i =>
    rw [hd] at ht
    exact exec_micro_hw (decodeMicro_not_isCommand hd) ht

/-! ### No step changes the parameters -/

theorem CommandEffect.hw {s t : State} (e : CommandEffect s t) : t.hw = s.hw := by
  cases e with
  | only | opened | faulted | closed => rfl
  | processed u _ _ _ f => exact f.hw

theorem StepEffect.hw {s t : State} (e : StepEffect s t) : t.hw = s.hw := by
  cases e with
  | host ms e _ =>
    obtain ⟨_, _, hhw, _⟩ := e.keeps
    exact hhw
  | command ms _ e => exact e.hw
  | reset ms _ e => rw [e]; rfl

/-- Settles O48: a step runs the sequencer's first word or has one of the effects of `StepEffect`. -/
theorem parametersNeverChange : Obligations.ParametersNeverChange := by
  intro s t ht
  cases hs : s.seq with
  | nil => exact (step_effect hs ht).hw
  | cons w ws =>
    rw [step_seq (legal_of_step ht) hs] at ht
    exact microStep_hw (s := { s with seq := ws }) ht

/-! ### The state after reset -/

/-- The reference configuration has legal parameters, and reset holds whole arrays and empty buffers. -/
theorem storageOk_reset : StorageOk State.reset where
  legal := by decide
  hifLength := List.length_replicate
  lopassLength := List.length_replicate
  firLength := List.length_replicate
  noiseLength := List.length_replicate
  cursorBound := nl_pos _
  lenBound := Nat.zero_le _
  inCanonical := rfl
  outCanonical := rfl
  inInside := rfl
  outInside := rfl

/-- Settles O42: the storage is whole, and `STATE` is `UNCONFIGURED`. -/
theorem resetMeetsInvariant : Obligations.ResetMeetsInvariant :=
  GoodState.of_unconfigured storageOk_reset rfl rfl rfl rfl

/-- While `UNCONFIGURED` the cursor and the energy sum read 0 (10_state.md R36, R37). -/
theorem regValue_of_unconfigured {s : State} (h : s.inst = .unconfigured) :
    regValue s .noisei = 0 ∧ regValue s .hifsumLo = 0 ∧ regValue s .hifsumHi = 0 :=
  ⟨if_pos h, if_pos h, if_pos h⟩

/-- Every field of `STATUS` is 0 in an idle, unconfigured block with no code and no flag set (R34). -/
theorem statusWord_eq_zero {s : State} (hi : s.inst = .unconfigured) (hb : s.busy = false) (ho : s.ovf = false)
    (hl : s.lost = false) (he : s.errcode = .none) : statusWord s = 0 := by
  rw [statusWord, hi, hb, ho, hl, he]
  rfl

/-- Settles O59: the elements as `State.reset` gives them, and what the registers read of them. -/
theorem resetHoldsItsStatedValues : Obligations.ResetHoldsItsStatedValues := by
  obtain ⟨hcursor, hlow, hhigh⟩ := regValue_of_unconfigured (s := State.reset) rfl
  exact ⟨rfl, rfl, rfl, rfl, rfl, rfl, rfl, rfl, rfl, rfl, statusWord_eq_zero rfl rfl rfl rfl rfl, hcursor, hlow, hhigh,
    rfl, rfl, rfl, rfl, rfl⟩

/-! ### Reset at any time -/

theorem step_reset {s : State} {ms : List Move} (hl : s.hw.legal = true) (hs : s.seq = [])
    (hi : s.inputs = .reset :: ms) : step s = .next (platformReset { s with inputs := ms }) := by
  rw [step_move hl hs hi, takeMove_reset]

/-- Settles O60: the step is `platformReset`, whose values are the stated ones and whose storage is whole. -/
theorem platformResetAtAnyTime : Obligations.PlatformResetAtAnyTime := by
  intro s ms hl hs hi
  have hst : StorageOk (platformReset { s with inputs := ms }) := StorageOk.platformReset hl
  exact ⟨_, step_reset hl hs hi, rfl, rfl, rfl, rfl, rfl, rfl, rfl, rfl, rfl, rfl,
    statusWord_eq_zero rfl rfl rfl rfl rfl, hst.cursorBound, rfl, rfl, rfl, hst.hifLength, hst.lopassLength,
    hst.firLength, hst.noiseLength⟩

end Sys2Proof.Machine
end
